-- ==== Sys2Proof/Word.lean ====
section
/-! DEFINITION. The word type: every register, every memory word and the command word are 32 bits
wide (spec 00_scope.md R9). -/

namespace Sys2Proof

/-- A 32-bit word; bit 0 is least significant (R9, R13). -/
abbrev Word := BitVec 32

/-- The ceiling of `a / b` (R14), used for `b > 0`. -/
def cdiv (a b : Nat) : Nat := (a + b - 1) / b

end Sys2Proof
end

