-- ==== Sys2Proof/Syntax.lean ====
section
/-! DEFINITION. The commands of the block (spec 30_encoding.md R72), the names of its registers and
memories (10_state.md R22, R32 to R35), the host's transactions (R39, R79), and the assembler's
statements (30_encoding.md R77, R78). -/

namespace Sys2Proof

/-- The seventeen commands, one per row of the opcode table (R72). A command word carries no
operand (R71). -/
inductive Instr where
  | bfExtract
  | bfInsert
  | fieldRead
  | fieldWrite
  | gammaEnc
  | gammaDec
  | wselUniform
  | wselOverflow
  | nsCompress
  | nsDecompress
  | nsGet
  | spCompress
  | spDecompress
  | spGet
  | ovCompress
  | ovDecompress
  | ovGet
deriving DecidableEq, Repr

/-- The fourteen registers (R22). -/
inductive Reg where
  | cmd
  | status
  | a0
  | a1
  | a2
  | a3
  | a4
  | res0
  | res1
  | seqInLen
  | pbufLen
  | seqOutLen
  | capN
  | capPbuf
deriving DecidableEq, Repr

/-- The four word memories (R32 to R35, R50). -/
inductive Space where
  | seqIn
  | pbuf
  | seqOut
  | scratch
deriving DecidableEq, Repr

/-- What the outside world does to the block: the host's transactions (R39, as the triples of R79,
with a register named by its index) and the reset input (R240), which loss of power acts as (R229).
Each falls between commands and is atomic. -/
inductive Event where
  | readReg (index : Nat)
  | writeReg (index : Nat) (value : Word)
  | readMem (space : Space) (index : Nat)
  | writeMem (space : Space) (index : Nat) (value : Word)
  | reset
deriving DecidableEq, Repr

/-- A location an EXPECT annotation names; the index is an immediate (R77). -/
inductive Loc where
  | reg (r : Reg)
  | mem (space : Space) (index : Int)
deriving DecidableEq, Repr

/-- The pseudo-instructions (R78). Immediates are integers, taken mod 2^32 (R77). -/
inductive Pseudo where
  | extract (w lo hi : Int)
  | insert (d dlo s slo shi : Int)
  | fread (p n : Int)
  | fwrite (p n v : Int)
  | genc (n p : Int)
  | gdec (p : Int)
  | loadSeq (vs : List Int)
  | loadBuf (xs : List Int)
  | getNs (i : Int)
  | getSp (i : Int)
  | getOv (i : Int)
deriving DecidableEq, Repr

/-- The statements of a host program (R77). -/
inductive Stmt where
  | wr (r : Reg) (imm : Int)
  | rd (r : Reg)
  | mw (space : Space) (index : Int) (imm : Int)
  | mr (space : Space) (index : Int)
  | cmd (i : Instr)
  | cmdw (imm : Int)
  | expect (loc : Loc) (imm : Int)
  | pseudo (p : Pseudo)
deriving DecidableEq, Repr

/-- A line of a host program: a label names it for the reader only (R77). -/
structure Line where
  label : Option String
  stmt : Option Stmt
deriving DecidableEq, Repr

end Sys2Proof
end

