-- ==== Sys2Proof/WellFormed.lean ====
section
/-! DEFINITION. Which command words and which host transactions are well formed. -/

namespace Sys2Proof

/-- A command word is legal when RSV = 0 and OPC is one of 0x01 to 0x11 (spec 30_encoding.md R70). -/
def commandWordWf (c : Word) : Bool :=
  c.toNat / 2 ^ 8 == 0 && decide (1 ≤ c.toNat % 2 ^ 8) && decide (c.toNat % 2 ^ 8 ≤ 0x11)

/-- Every command is well formed: it has no operand, immediate or register field (R71). -/
def Instr.wf : Instr → Bool
  | .bfExtract | .bfInsert | .fieldRead | .fieldWrite | .gammaEnc | .gammaDec | .wselUniform
  | .wselOverflow | .nsCompress | .nsDecompress | .nsGet | .spCompress | .spDecompress | .spGet
  | .ovCompress | .ovDecompress | .ovGet => true

/-- The registers the host may write (R22, the access column). -/
def Reg.hostWritable : Reg → Bool
  | .cmd | .a0 | .a1 | .a2 | .a3 | .a4 | .seqInLen | .pbufLen => true
  | .status | .res0 | .res1 | .seqOutLen | .capN | .capPbuf => false

/-- The memories the host may read (R32 to R35). -/
def Space.hostReadable : Space → Bool
  | .seqIn | .pbuf | .seqOut => true
  | .scratch => false

/-- The memories the host may write (R32 to R35). -/
def Space.hostWritable : Space → Bool
  | .seqIn | .pbuf => true
  | .seqOut | .scratch => false

/-- The capacity of a memory in words, for capacities N_MAX and PBUF_MAX (R32 to R35). -/
def Space.capacity (nMax pbufMax : Nat) : Space → Nat
  | .seqIn | .seqOut | .scratch => nMax
  | .pbuf => pbufMax

/-- A host transaction inside the interface of 10_state.md R31 and R39: a register index of the
table, a writable register for a write, a memory the host reaches and an index below its capacity.
`regs` is the index table (`regOfIndex` of Decode.lean). -/
def Event.wf (regs : Nat → Option Reg) (nMax pbufMax : Nat) : Event → Bool
  | .readReg i => (regs i).isSome
  | .writeReg i _ => (regs i).any Reg.hostWritable
  | .readMem sp i => sp.hostReadable && decide (i < sp.capacity nMax pbufMax)
  | .writeMem sp i _ => sp.hostWritable && decide (i < sp.capacity nMax pbufMax)
  | .reset => true

end Sys2Proof
end

