-- ==== Sys2Proof/Decode.lean ====
section
/-! DEFINITION. Decoding and encoding of command words and of register indices (spec
30_encoding.md R70 to R76, 10_state.md R22). -/

namespace Sys2Proof

/-- Why a word is no command (R73): a reserved bit is set, or OPC is 0x00 or above 0x11. -/
inductive Illegal where
  | reservedBits
  | badOpcode
deriving DecidableEq, Repr

/-- The opcode map (R72). -/
def instrOfOpc : Nat → Option Instr
  | 0x01 => some .bfExtract
  | 0x02 => some .bfInsert
  | 0x03 => some .fieldRead
  | 0x04 => some .fieldWrite
  | 0x05 => some .gammaEnc
  | 0x06 => some .gammaDec
  | 0x07 => some .wselUniform
  | 0x08 => some .wselOverflow
  | 0x09 => some .nsCompress
  | 0x0A => some .nsDecompress
  | 0x0B => some .nsGet
  | 0x0C => some .spCompress
  | 0x0D => some .spDecompress
  | 0x0E => some .spGet
  | 0x0F => some .ovCompress
  | 0x10 => some .ovDecompress
  | 0x11 => some .ovGet
  | _ => none

/-- Decoding is total on every 32-bit word (R76): CMD[31:8] must be 0 and CMD[7:0] an opcode. -/
def decode (c : Word) : Except Illegal Instr :=
  if c.toNat / 2 ^ 8 ≠ 0 then .error .reservedBits
  else
    match instrOfOpc (c.toNat % 2 ^ 8) with
    | some i => .ok i
    | none => .error .badOpcode

/-- The opcode of a command (R72). -/
def opc : Instr → Nat
  | .bfExtract => 0x01
  | .bfInsert => 0x02
  | .fieldRead => 0x03
  | .fieldWrite => 0x04
  | .gammaEnc => 0x05
  | .gammaDec => 0x06
  | .wselUniform => 0x07
  | .wselOverflow => 0x08
  | .nsCompress => 0x09
  | .nsDecompress => 0x0A
  | .nsGet => 0x0B
  | .spCompress => 0x0C
  | .spDecompress => 0x0D
  | .spGet => 0x0E
  | .ovCompress => 0x0F
  | .ovDecompress => 0x10
  | .ovGet => 0x11

/-- The command word of a command: format C, RSV = 0, one word (R70, R75). -/
def encode (i : Instr) : Word := BitVec.ofNat 32 (opc i)

/-- What the decoder reads from the opcode-table bits `w` of a row of `nbits` bits: a command is
one word (R75), so bits above the 32nd make no command. -/
def decodeTableWord (nbits w : Nat) : Option Instr :=
  if w % 2 ^ nbits < 2 ^ 32 then (decode (BitVec.ofNat 32 (w % 2 ^ nbits))).toOption else none

/-- The register index table (R22); indices above 0x0D name no register (R31). -/
def regOfIndex : Nat → Option Reg
  | 0x00 => some .cmd
  | 0x01 => some .status
  | 0x02 => some .a0
  | 0x03 => some .a1
  | 0x04 => some .a2
  | 0x05 => some .a3
  | 0x06 => some .a4
  | 0x07 => some .res0
  | 0x08 => some .res1
  | 0x09 => some .seqInLen
  | 0x0A => some .pbufLen
  | 0x0B => some .seqOutLen
  | 0x0C => some .capN
  | 0x0D => some .capPbuf
  | _ => none

/-- The index of a register (R22). -/
def regIndex : Reg → Nat
  | .cmd => 0x00
  | .status => 0x01
  | .a0 => 0x02
  | .a1 => 0x03
  | .a2 => 0x04
  | .a3 => 0x05
  | .a4 => 0x06
  | .res0 => 0x07
  | .res1 => 0x08
  | .seqInLen => 0x09
  | .pbufLen => 0x0A
  | .seqOutLen => 0x0B
  | .capN => 0x0C
  | .capPbuf => 0x0D

end Sys2Proof
end

