-- ==== Sys2Proof/Machine/Bits.lean ====
section
/-! DEFINITION. Bit ranges of one word and bit widths (spec 00_scope.md R13 to R16, 40_bitfield.md
R100, R101, 41_gamma.md R120). -/

namespace Sys2Proof.Machine

open Sys2Proof

/-- The `n` bits of `x` from bit `lo` up, right-aligned: `x[lo+n-1:lo]` (R13). -/
def bitsOf (x : Word) (lo n : Nat) : Nat := x.toNat / 2 ^ lo % 2 ^ n

/-- The word with `n` ones at bits `lo` to `lo+n-1` (R101's mask). -/
def maskAt (lo n : Nat) : Word := BitVec.ofNat 32 ((2 ^ n - 1) * 2 ^ lo)

/-- `dest` with its `n` bits from `lo` replaced by the low `n` bits of `v` (R101's last line). -/
def putBits (dest : Word) (lo n v : Nat) : Word :=
  (dest &&& ~~~ maskAt lo n) ||| BitVec.ofNat 32 (v % 2 ^ n * 2 ^ lo)

/-- `extract(x, lo, hi)` (R100); `none` is InvalidRange. -/
def extractBits (x : Word) (lo hi : Int) : Option Word :=
  if lo < 0 ∨ hi > 31 ∨ lo > hi then none
  else some (BitVec.ofNat 32 (bitsOf x lo.toNat (hi - lo + 1).toNat))

/-- `insert(dest, destLo, source, srcLo, srcHi)` (R101); `none` is InvalidRange. -/
def insertBits (dest : Word) (destLo : Int) (source : Word) (srcLo srcHi : Int) : Option Word :=
  if srcLo < 0 ∨ srcHi > 31 ∨ srcLo > srcHi then none
  else if destLo < 0 ∨ destLo + (srcHi - srcLo) > 31 then none
  else
    let n := (srcHi - srcLo + 1).toNat
    some (putBits dest destLo.toNat n (bitsOf source srcLo.toNat n))

/-- The bit-width of a natural number, with that of 0 taken as 1 (R16). -/
def bitWidth (v : Nat) : Nat := if v = 0 then 1 else Nat.log2 v + 1

/-- The length of the Gamma code of `n` (R120). -/
def gammaLen (n : Nat) : Nat := 2 * Nat.log2 n + 1

end Sys2Proof.Machine
end

