-- ==== Sys2Proof/Config.lean ====
section
/-! DEFINITION. The parameters the spec leaves open (spec 93_implementation_defined.md P1 to P4).
The two capacities are also the constant registers CAP_N and CAP_PBUF of the state, so that a
statement about a state holds for every value of them; the values here are those the machine's own
reset state takes. -/

namespace Sys2Proof

/-- N_MAX of `State.reset`: the capacity in words of SEQ_IN, SEQ_OUT and SCRATCH (R10).
DESIGN CHOICE, unsafe for a claim about `State.reset` alone: notes/assumptions/3.md. The value is
that of the programs of 95_test_vectors.md L3. -/
def Config.nMax : Word := 16

/-- PBUF_MAX of `State.reset`: the capacity in words of PBUF (R10). DESIGN CHOICE, unsafe for a
claim about `State.reset` alone: notes/assumptions/3.md. -/
def Config.pbufMax : Word := 17

/-- The constraint R10 puts on the two capacities. -/
abbrev Config.Admissible (nMax pbufMax : Word) : Prop :=
  1 ≤ nMax.toNat ∧ nMax.toNat ≤ 2 ^ 31 - 1 ∧ nMax.toNat + 1 ≤ pbufMax.toNat

/-- The byte order of a host bus that maps the words into bytes (R51). -/
inductive Config.ByteOrder where
  | little
  | big
deriving DecidableEq, Repr, Inhabited

/-- HOST_BYTE_ORDER (R51, OPEN): no rule depends on it, and nothing here reads it. -/
opaque Config.hostByteOrder : Config.ByteOrder

/-- BLOCK_BASE (R58, OPEN): no rule depends on it, and nothing here reads it. -/
opaque Config.blockBase : Nat

end Sys2Proof
end

