-- ==== Sys2Proof/Machine/State.lean ====
section
/-! DEFINITION. The state of the block (spec 10_state.md), the two ways a step can stop, and the
state after reset (R38, 70_reset_and_hazards.md R240). -/

namespace Sys2Proof.Machine

open Sys2Proof

/-- A word memory: the words that hold a value, each with its index, indices strictly rising. An
index that is not listed is a word that holds no value (spec 10_state.md R37). -/
abbrev Memory := List (Nat × Word)

/-- The canonical form of a memory: indices strictly rising. (A listed word always holds a value,
so no entry equals what an unlisted index reads as.) -/
abbrev Memory.wf (m : Memory) : Prop := m.Pairwise (fun x y => x.1 < y.1)

/-- Every word that holds a value has an index below a capacity (R32 to R35). -/
abbrev Memory.below (cap : Nat) (m : Memory) : Prop := ∀ c ∈ m, c.1 < cap

/-- Everything the spec gives the block, and the host's side of its interface. -/
structure State where
  /-- STATUS.CODE (R24, R211). -/
  code : BitVec 4
  /-- STATUS.FAULTED, the fatal-error latch (R24, R214). -/
  faulted : Bool
  /-- A0, operand register (R25). -/
  a0 : Word
  /-- A1, operand register (R25). -/
  a1 : Word
  /-- A2, operand register (R25). -/
  a2 : Word
  /-- A3, operand register (R25). -/
  a3 : Word
  /-- A4, operand register (R25). -/
  a4 : Word
  /-- RES0, result register (R26). -/
  res0 : Word
  /-- RES1, result register (R26). -/
  res1 : Word
  /-- SEQ_IN_LEN (R27). -/
  seqInLen : Word
  /-- PBUF_LEN (R28). -/
  pbufLen : Word
  /-- SEQ_OUT_LEN (R29). -/
  seqOutLen : Word
  /-- CAP_N, the constant N_MAX (R30). -/
  capN : Word
  /-- CAP_PBUF, the constant PBUF_MAX (R30). -/
  capPbuf : Word
  /-- SEQ_IN (R32). -/
  seqIn : Memory
  /-- PBUF (R33). -/
  pbuf : Memory
  /-- SEQ_OUT (R34). -/
  seqOut : Memory
  /-- SCRATCH, private to the engine (R35). -/
  scratch : Memory
  /-- The registers that hold no value: unspecified at reset and not written since (R37). -/
  noValue : List Reg
  /-- MODEL's own: the run has read a register that holds no value; R37 gives such a run no
  meaning (notes/assumptions/5.md, 9.md). -/
  noValueRead : Bool
  /-- MODEL's own: what the host's last read returned (R39; notes/assumptions/13.md). -/
  readData : Option Word
  /-- MODEL's own: the host transactions and reset events still to come, first first
  (notes/assumptions/1.md). -/
  pending : List Event
deriving DecidableEq, Repr

/-- Why the machine stops with a fault. -/
inductive Fault where
  /-- Raised by a compress command whose buffer of `words` words would not fit PBUF. Safe: with the
  capacities R10 admits it is never raised (notes/assumptions/10.md). -/
  | pbufOverrun (words : Nat)
deriving DecidableEq, Repr

/-- Why a step is given no meaning: the spec's refused accesses (R31, R37, R39). -/
inductive Refusal where
  /-- Raised by an arm of `exec` whose command has no meaning yet (none is left). Safe. -/
  | notModelled (mnemonic : String)
  /-- Raised by a host read or write of a register index above 0x0D (R31). Safe. -/
  | noSuchRegister (index : Nat)
  /-- Raised by a host write of a register marked R only (R31). Safe. -/
  | readOnlyRegister (r : Reg)
  /-- Raised by a host access to a memory the host may not so reach: SCRATCH, or a write of SEQ_OUT
  (R34, R35, R39). Safe. -/
  | privateSpace (space : Space)
  /-- Raised by a host access to a memory index at or above the capacity (R39). Safe. -/
  | outsideSpace (space : Space) (index : Nat)
  /-- Raised by a host read, or a command's read, of a memory word that holds no value (R37).
  Safe. -/
  | noValue (space : Space) (index : Nat)
deriving DecidableEq, Repr

/-- The registers whose reset value is unspecified (R22, R38). -/
def unspecifiedAtReset : List Reg := [.a0, .a1, .a2, .a3, .a4, .res0, .res1]

/-- The state after reset of a block with the given capacities (R38, R240). A0 to A4, RES0 and RES1
are unspecified by the spec: they stand at zero and are listed in `noValue` (DESIGN CHOICE, unsafe:
notes/assumptions/5.md). -/
def State.resetWith (nMax pbufMax : Word) : State where
  code := 0
  faulted := false
  a0 := 0
  a1 := 0
  a2 := 0
  a3 := 0
  a4 := 0
  res0 := 0
  res1 := 0
  seqInLen := 0
  pbufLen := 0
  seqOutLen := 0
  capN := nMax
  capPbuf := pbufMax
  seqIn := []
  pbuf := []
  seqOut := []
  scratch := []
  noValue := unspecifiedAtReset
  noValueRead := false
  readData := none
  pending := []

/-- The machine right after reset, with the capacities of Config. -/
def State.reset : State := State.resetWith Config.nMax Config.pbufMax

end Sys2Proof.Machine
end

