-- ==== Sys2Proof/Machine/Flags.lean ====
section
/-! DEFINITION. The status codes, their classes and the STATUS word (spec 60_exceptions.md R211 to
R214, 10_state.md R24, R40). -/

namespace Sys2Proof.Machine

/-- The error codes (R211). -/
inductive ErrorCode where
  | invalidRange
  | indexOutOfRange
  | malformedBuffer
  | invalidArgument
  | unsupportedValue
  | capacityExceeded
  | illegalCommand
deriving DecidableEq, Repr

/-- STATUS.CODE = OK (R211). -/
def codeOk : BitVec 4 := 0

/-- The value of STATUS.CODE for an error (R211). -/
def codeOf : ErrorCode → BitVec 4
  | .invalidRange => 1
  | .indexOutOfRange => 2
  | .malformedBuffer => 3
  | .invalidArgument => 4
  | .unsupportedValue => 5
  | .capacityExceeded => 6
  | .illegalCommand => 7

/-- INVALID_RANGE and INVALID_ARGUMENT are fatal, every other error is recoverable (R213). -/
def isFatal : ErrorCode → Bool
  | .invalidRange | .invalidArgument => true
  | .indexOutOfRange | .malformedBuffer | .unsupportedValue | .capacityExceeded
  | .illegalCommand => false

/-- The STATUS register as the host reads it: CODE in bits 3:0, FAULTED in bit 4, the rest 0
(R24). -/
def statusWord (s : State) : Word :=
  BitVec.ofNat 32 (s.code.toNat + 2 ^ 4 * s.faulted.toNat)

end Sys2Proof.Machine
end

