-- ==== Sys2Proof/Machine/Ops.lean ====
section
/-! DEFINITION. The shared operations: memory access, register results, and how a command ends,
without error or by raising one (spec 10_state.md R26, R37; 60_exceptions.md R210 to R218). -/

namespace Sys2Proof.Machine

open Sys2Proof

/-- The value of word `i`, or nothing where the word holds no value (R37). -/
def Memory.read : Memory → Nat → Option Word
  | [], _ => none
  | (a, w) :: m, i => if i = a then some w else Memory.read m i

/-- Write word `i`, keeping the canonical form. -/
def Memory.write : Memory → Nat → Word → Memory
  | [], i, v => [(i, v)]
  | (a, w) :: m, i, v =>
    if i < a then (i, v) :: (a, w) :: m
    else if i = a then (i, v) :: m
    else (a, w) :: Memory.write m i v

/-- Write the words `vs` at `i`, `i+1`, ... -/
def Memory.store : Memory → Nat → List Word → Memory
  | m, _, [] => m
  | m, i, v :: vs => Memory.store (m.write i v) (i + 1) vs

/-- Word `i` holds a value (R37). -/
abbrev Memory.has (m : Memory) (i : Nat) : Prop := (m.read i).isSome = true

/-- Stream bit `p` of a memory (R53); false where the word holds no value. -/
def Memory.bit (m : Memory) (p : Nat) : Bool :=
  match m.read (p / 32) with
  | some w => w.getLsbD (p % 32)
  | none => false

/-- How a command ends without a next state of its own: an error (`raise E`, R15, R210), a refused
access (R37), or the model's fault. -/
inductive Stop where
  | raise (e : ErrorCode)
  | refuse (r : Refusal)
  | fault (f : Fault)
deriving DecidableEq, Repr

/-- What one step answers. -/
abbrev Result := Host.Outcome State Fault Refusal

/-- `if p then raise e` of the command rules. -/
def check (p : Prop) [Decidable p] (e : ErrorCode) : Except Stop Unit :=
  if p then .error (.raise e) else .ok ()

/-- A command's read of word `i` of a memory: refused where the word holds no value (R37). -/
def readWord (sp : Space) (m : Memory) (i : Nat) : Except Stop Word :=
  match m.read i with
  | some v => .ok v
  | none => .error (.refuse (.noValue sp i))

/-- `f i, f (i+1), ...`, `n` of them in order, stopping at the first that stops. -/
def collect {α : Type} (f : Nat → Except Stop α) : Nat → Nat → Except Stop (List α)
  | _, 0 => .ok []
  | i, n + 1 => do
    let v ← f i
    let vs ← collect f (i + 1) n
    pure (v :: vs)

/-- A write of A0, which then holds a value (R25, R37). -/
def State.setA0 (s : State) (v : Word) : State :=
  { s with a0 := v, noValue := s.noValue.filter (· ≠ .a0) }

/-- A write of A1 (R25, R37). -/
def State.setA1 (s : State) (v : Word) : State :=
  { s with a1 := v, noValue := s.noValue.filter (· ≠ .a1) }

/-- A write of A2 (R25, R37). -/
def State.setA2 (s : State) (v : Word) : State :=
  { s with a2 := v, noValue := s.noValue.filter (· ≠ .a2) }

/-- A write of A3 (R25, R37). -/
def State.setA3 (s : State) (v : Word) : State :=
  { s with a3 := v, noValue := s.noValue.filter (· ≠ .a3) }

/-- A write of A4 (R25, R37). -/
def State.setA4 (s : State) (v : Word) : State :=
  { s with a4 := v, noValue := s.noValue.filter (· ≠ .a4) }

/-- `RES0 <- v` (R26). -/
def State.setRes0 (s : State) (v : Word) : State :=
  { s with res0 := v, noValue := s.noValue.filter (· ≠ .res0) }

/-- `RES1 <- v` (R26). -/
def State.setRes1 (s : State) (v : Word) : State :=
  { s with res1 := v, noValue := s.noValue.filter (· ≠ .res1) }

/-- The effect of an error: STATUS.CODE takes its code and, for a fatal error, STATUS.FAULTED is
set; nothing else changes (R214, R216). -/
def State.raise (s : State) (e : ErrorCode) : State :=
  { s with code := codeOf e, faulted := s.faulted || isFatal e }

/-- STATUS.CODE <- OK (R218). -/
def State.succeed (s : State) : State := { s with code := codeOk }

/-- How a command ends (R210, R216, R218): it completes in the state its rule gives with
CODE = OK, or raises its error from the state it began in, all or nothing. -/
def settle (s : State) : Except Stop State → Result
  | .ok t => .next t.succeed
  | .error (.raise e) => .next (s.raise e)
  | .error (.refuse r) => .refused r
  | .error (.fault f) => .fault f

/-- The reset event (R240): every register and memory takes its reset state, CAP_N and CAP_PBUF
being constants. What belongs to the host's side stays (notes/assumptions/14.md). -/
def State.hardReset (s : State) : State :=
  { State.resetWith s.capN s.capPbuf with
    noValueRead := s.noValueRead, readData := s.readData, pending := s.pending }

end Sys2Proof.Machine
end

