-- ==== Sys2Proof/Machine/Operands.lean ====
section
/-! DEFINITION. The operands of the commands: register operands, the input Sequence, and fields of
the packed buffer (spec 30_encoding.md R71, 20_memory.md R53, R54, R68, 40_bitfield.md R102, R103,
70_reset_and_hazards.md R243). -/

namespace Sys2Proof.Machine

open Sys2Proof

/-- The signed reading of an operand register (R14, R25). -/
abbrev sint (x : Word) : Int := x.toInt

/-- The unsigned reading of an operand register (R14, R25). -/
abbrev uint (x : Word) : Nat := x.toNat

/-- The entry check of a command that reads SEQ_IN (R68). -/
def checkSeqIn (s : State) : Except Stop Unit :=
  check (uint s.seqInLen > uint s.capN) .capacityExceeded

/-- The entry check of a command that reads PBUF (R68). -/
def checkPbuf (s : State) : Except Stop Unit :=
  check (uint s.pbufLen > uint s.capPbuf) .capacityExceeded

/-- The input Sequence `A = [SEQ_IN[0], ..., SEQ_IN[n-1]]` of a compress or width-select command,
with its entry check and its value-domain check (R68, R12; the first lines of R135, R136, R145,
R165, R185). -/
def inputSequence (s : State) : Except Stop (List Word) := do
  checkSeqIn s
  let A ← collect (readWord .seqIn s.seqIn) 0 (uint s.seqInLen)
  check (A.any (fun a => a.getLsbD 31)) .unsupportedValue
  pure A

/-- `read_field(p, n)` of a buffer (R102): one word, or two where the field crosses a boundary. -/
def readField (m : Memory) (p n : Nat) : Except Stop Nat :=
  let i := p / 32
  let b := p % 32
  if b + n ≤ 32 then do
    let x ← readWord .pbuf m i
    pure (bitsOf x b n)
  else do
    let x ← readWord .pbuf m i
    let y ← readWord .pbuf m (i + 1)
    pure (bitsOf x b (32 - b) ||| bitsOf y 0 (b + n - 32) * 2 ^ (32 - b))

/-- `insert` into word `i` of a buffer: a read-modify-write (R62, R103). -/
def modifyWord (m : Memory) (i lo n v : Nat) : Except Stop Memory := do
  let x ← readWord .pbuf m i
  pure (m.write i (putBits x lo n v))

/-- `write_field(p, n, v)` into a buffer (R103): the low `n` bits of `v`, low part into the tail of
word `p div 32`, high part into the head of the next where the field crosses. -/
def writeField (m : Memory) (p n v : Nat) : Except Stop Memory :=
  let i := p / 32
  let b := p % 32
  if b + n ≤ 32 then modifyWord m i b n v
  else do
    let m ← modifyWord m i b (32 - b) v
    modifyWord m (i + 1) 0 (b + n - 32) (v / 2 ^ (32 - b))

/-- A field to be written: `width` bits at stream position `pos` (R54). -/
structure Field where
  pos : Nat
  width : Nat
  value : Nat
deriving DecidableEq, Repr

/-- `write_field` for each field of a list, in order. -/
def writeFields : Memory → List Field → Except Stop Memory
  | m, [] => .ok m
  | m, f :: fs => do
    let m ← writeField m f.pos f.width f.value
    writeFields m fs

/-- The fields of a run of values, the `i`-th at `pos i`, each `w` bits wide. -/
def elementFields (pos : Nat → Nat) (w : Nat) : Nat → List Word → List Field
  | _, [] => []
  | i, a :: as => ⟨pos i, w, a.toNat⟩ :: elementFields pos w (i + 1) as

/-- The Header (R11): the width in bits 4:0 of word 0, the padding counter in bits 9:5. -/
def headerFields (w pad : Nat) : List Field := [⟨0, 5, w⟩, ⟨5, 5, pad⟩]

/-- The PBUF a compress command leaves (R66): its `words` words zeroed, then the fields of its
layout written; the words above stay. A buffer larger than PBUF, which R10's capacities rule out,
is the model's fault (notes/assumptions/10.md). -/
def packBuffer (s : State) (words : Nat) (fields : List Field) : Except Stop Memory :=
  if uint s.capPbuf < words then .error (.fault (.pbufOverrun words))
  else writeFields (s.pbuf.store 0 (List.replicate words 0)) fields

/-- The results of a compress command: PBUF, PBUF_LEN = RES0 = the word count, RES1 = the width
(R145, R165, R185). -/
def State.compressed (s : State) (m : Memory) (words w : Nat) : State :=
  let t := { s with pbuf := m, pbufLen := BitVec.ofNat 32 words }
  (t.setRes0 (BitVec.ofNat 32 words)).setRes1 (BitVec.ofNat 32 w)

/-- The results of compressing the empty Sequence: PBUF_LEN = RES0 = RES1 = 0, no Header, PBUF
untouched (R145, R165, R185, R219). -/
def State.compressedEmpty (s : State) : State := s.compressed s.pbuf 0 0

/-- The results of a decompress command: SEQ_OUT[0 .. L-1], SEQ_OUT_LEN = RES0 = L (R67). -/
def State.decompressed (s : State) (vs : List Word) : State :=
  let t := { s with seqOut := s.seqOut.store 0 vs, seqOutLen := BitVec.ofNat 32 vs.length }
  t.setRes0 (BitVec.ofNat 32 vs.length)

/-- The operand registers that hold no value after reset and that the host must have written
before a command (R243). -/
def operandRegs : Instr → List Reg
  | .bfExtract => [.a0, .a1, .a2]
  | .bfInsert => [.a0, .a1, .a2, .a3, .a4]
  | .fieldRead => [.a0, .a1]
  | .fieldWrite => [.a0, .a1, .a2]
  | .gammaEnc => [.a0, .a1]
  | .gammaDec => [.a0]
  | .nsGet | .spGet | .ovGet => [.a0]
  | .wselUniform | .wselOverflow | .nsCompress | .nsDecompress | .spCompress | .spDecompress
  | .ovCompress | .ovDecompress => []

/-- Mark a run whose command reads an operand register that holds no value (R37, R243;
notes/assumptions/5.md, 9.md). -/
def State.noteOperands (s : State) (i : Instr) : State :=
  { s with noValueRead := s.noValueRead || (operandRegs i).any (fun r => decide (r ∈ s.noValue)) }

end Sys2Proof.Machine
end

