-- ==== Sys2Proof/Machine/BitField.lean ====
section
/-! DEFINITION. BF_EXTRACT, BF_INSERT, FIELD_READ and FIELD_WRITE (spec 40_bitfield.md R104 to
R107). -/

namespace Sys2Proof.Machine

open Sys2Proof

/-- A primitive's answer, or INVALID_RANGE. -/
def orInvalidRange : Option Word → Except Stop Word
  | some v => .ok v
  | none => .error (.raise .invalidRange)

/-- BF_EXTRACT: `RES0 <- extract(A0, A1, A2)` (R104). -/
def execBfExtract (s : State) : Result :=
  settle s do
    let v ← orInvalidRange (extractBits s.a0 (sint s.a1) (sint s.a2))
    pure (s.setRes0 v)

/-- BF_INSERT: `RES0 <- insert(A0, A1, A2, A3, A4)` (R105). -/
def execBfInsert (s : State) : Result :=
  settle s do
    let v ← orInvalidRange (insertBits s.a0 (sint s.a1) s.a2 (sint s.a3) (sint s.a4))
    pure (s.setRes0 v)

/-- The checks of FIELD_READ and FIELD_WRITE: the position and width are well formed, and the field
lies in the buffer (R106, R107). Answers `p` and `n`. -/
def fieldOperands (s : State) : Except Stop (Nat × Nat) := do
  checkPbuf s
  let p := sint s.a0
  let n := sint s.a1
  check (p < 0 ∨ n < 1 ∨ n > 32) .invalidRange
  check (p + n > 32 * uint s.pbufLen) .invalidArgument
  pure (p.toNat, n.toNat)

/-- FIELD_READ: `RES0 <- read_field(A0, A1)` (R106). -/
def execFieldRead (s : State) : Result :=
  settle s do
    let (p, n) ← fieldOperands s
    let v ← readField s.pbuf p n
    pure (s.setRes0 (BitVec.ofNat 32 v))

/-- FIELD_WRITE: `write_field(A0, A1, A2)` (R107). -/
def execFieldWrite (s : State) : Result :=
  settle s do
    let (p, n) ← fieldOperands s
    let m ← writeField s.pbuf p n (uint s.a2)
    pure { s with pbuf := m }

end Sys2Proof.Machine
end

