-- ==== Sys2Proof/Machine/Gamma.lean ====
section
/-! DEFINITION. The Gamma code, GAMMA_ENC and GAMMA_DEC (spec 41_gamma.md R120 to R124). -/

namespace Sys2Proof.Machine

open Sys2Proof

/-- The one-bit fields `gamma_write(p, n)` writes (R121): k zeros, then the k+1 binary digits of
`n`, most significant first. -/
def gammaFields (p n : Nat) : List Field :=
  let k := Nat.log2 n
  (List.range k).map (fun j => ⟨p + j, 1, 0⟩) ++
    (List.range (k + 1)).map (fun i => ⟨p + k + i, 1, n / 2 ^ (k - i) % 2⟩)

/-- What `gamma_read` answers (R122). -/
inductive GammaRead where
  | value (n next : Nat)
  | unterminated
  | tooLong
deriving DecidableEq, Repr

/-- The scan for the first 1 bit (R122): `fuel` is the count of positions left below the limit.
Answers the number of zeros before it, or nothing where the limit is reached. -/
def scanZeros (m : Memory) (p : Nat) : Nat → Nat → Except Stop (Option Nat)
  | 0, _ => .ok none
  | fuel + 1, k => do
    let b ← readField m (p + k) 1
    if b = 1 then pure (some k) else scanZeros m p fuel (k + 1)

/-- The number whose `count` binary digits stand at stream positions `p` up, most significant
first, after the digits of `acc`. -/
def readDigits (m : Memory) : Nat → Nat → Nat → Except Stop Nat
  | _, 0, acc => .ok acc
  | p, count + 1, acc => do
    let b ← readField m p 1
    readDigits m (p + 1) count (acc * 2 + b)

/-- `gamma_read(p, limit)` (R122). -/
def gammaRead (m : Memory) (p limit : Nat) : Except Stop GammaRead := do
  match ← scanZeros m p (limit - p) 0 with
  | none => pure .unterminated
  | some k =>
    if k > 31 then pure .tooLong
    else if p + 2 * k + 1 > limit then pure .unterminated
    else do
      let n ← readDigits m (p + k) (k + 1) 0
      pure (.value n (p + 2 * k + 1))

/-- GAMMA_ENC: write the Gamma code of A0 at stream position A1 (R123). -/
def execGammaEnc (s : State) : Result :=
  settle s do
    checkPbuf s
    let n := sint s.a0
    let p := sint s.a1
    check (n ≤ 0) .invalidArgument
    check (p < 0) .invalidRange
    let len := gammaLen n.toNat
    check (p + len > 32 * uint s.pbufLen) .invalidArgument
    let m ← writeFields s.pbuf (gammaFields p.toNat n.toNat)
    let t := { s with pbuf := m }
    pure ((t.setRes0 (BitVec.ofNat 32 (p.toNat + len))).setRes1 (BitVec.ofNat 32 len))

/-- A decoded Gamma code, or INVALID_ARGUMENT (R124). -/
def orInvalidArgument : GammaRead → Except Stop (Nat × Nat)
  | .value n q => .ok (n, q)
  | .unterminated | .tooLong => .error (.raise .invalidArgument)

/-- GAMMA_DEC: decode the Gamma code at stream position A0 (R124). -/
def execGammaDec (s : State) : Result :=
  settle s do
    checkPbuf s
    let p := sint s.a0
    check (p < 0) .invalidRange
    let r ← gammaRead s.pbuf p.toNat (32 * uint s.pbufLen)
    let (n, q) ← orInvalidArgument r
    pure ((s.setRes0 (BitVec.ofNat 32 n)).setRes1 (BitVec.ofNat 32 q))

end Sys2Proof.Machine
end

