-- ==== Sys2Proof/Machine/WidthSelector.lean ====
section
/-! DEFINITION. The uniform and the overflow width selectors, WSEL_UNIFORM and WSEL_OVERFLOW (spec
42_width_selector.md R130 to R136). -/

namespace Sys2Proof.Machine

open Sys2Proof

/-- `uniform_width(A)`: the greatest bit-width, 1 for the empty Sequence (R130). -/
def uniformWidth (A : List Word) : Nat := A.foldl (fun w a => max w (bitWidth a.toNat)) 1

/-- `hist[b]`: how many elements have bit-width `b` (R131). -/
def histogram (A : List Word) (b : Nat) : Nat := A.countP (fun a => bitWidth a.toNat == b)

/-- `oc(w) = sum of hist[b] for b in w+1 .. 32` (R131). -/
def overflowCount (A : List Word) (w : Nat) : Nat :=
  ((List.range' (w + 1) (32 - w)).map (histogram A)).sum

/-- The cost in bits of candidate `w` (R132). -/
def cost (A : List Word) (w : Nat) : Nat :=
  cdiv (A.length * (w + 1) + gammaLen (overflowCount A w + 1) + 32 * overflowCount A w + 10) 32 * 32

/-- One candidate of the scan (R133, R134): it replaces the best so far when it is eligible and
strictly cheaper. -/
def considerWidth (A : List Word) (best : Option Nat) (w : Nat) : Option Nat :=
  if overflowCount A w ≤ 2 ^ w then
    match best with
    | none => some w
    | some b => if cost A w < cost A b then some w else some b
  else best

/-- `overflow_select(A)`: the eligible candidate of least cost among 1 .. 31, the smallest on a
tie, and its overflow count (R134). Candidate 31 stands in where none is eligible, which no admitted
Sequence reaches (R137; notes/assumptions/12.md). -/
def overflowSelect (A : List Word) : Nat × Nat :=
  let w := ((List.range' 1 31).foldl (considerWidth A) none).getD 31
  (w, overflowCount A w)

/-- WSEL_UNIFORM: `RES0 <- uniform_width(A)`, `RES1 <- 0` (R135). -/
def execWselUniform (s : State) : Result :=
  settle s do
    let A ← inputSequence s
    pure ((s.setRes0 (BitVec.ofNat 32 (uniformWidth A))).setRes1 0)

/-- WSEL_OVERFLOW: `(RES0, RES1) <- overflow_select(A)` (R136). -/
def execWselOverflow (s : State) : Result :=
  settle s do
    let A ← inputSequence s
    let (w, oc) := overflowSelect A
    pure ((s.setRes0 (BitVec.ofNat 32 w)).setRes1 (BitVec.ofNat 32 oc))

end Sys2Proof.Machine
end

