-- ==== Sys2Proof/Machine/NonSpanning.lean ====
section
/-! DEFINITION. The non-spanning codec: NS_COMPRESS, NS_DECOMPRESS and NS_GET (spec
43_nonspanning.md R140 to R148). -/

namespace Sys2Proof.Machine

open Sys2Proof

/-- `cpw`, the chunk slots of one word (R140). -/
def nsCpw (w : Nat) : Nat := 32 / w

/-- `h`, the chunk slots charged to the Header (R140). -/
def nsHeaderSlots (w : Nat) : Nat := cdiv 10 w

/-- The stream position of chunk slot `t`: bit `(t mod cpw)*w` of word `t div cpw` (R140). -/
def nsSlotPos (w t : Nat) : Nat := 32 * (t / nsCpw w) + t % nsCpw w * w

/-- The stream position of element `i`, slot `h + i` (R141). -/
def nsElementPos (w i : Nat) : Nat := nsSlotPos w (nsHeaderSlots w + i)

/-- The words of a buffer of `n` elements (R142). -/
def nsWords (w n : Nat) : Nat := cdiv (n + nsHeaderSlots w) (nsCpw w)

/-- The padding counter (R143). -/
def nsPad (w n : Nat) : Nat := nsWords w n * nsCpw w - nsHeaderSlots w - n

/-- NS_COMPRESS (R145). -/
def execNsCompress (s : State) : Result :=
  settle s do
    let A ← inputSequence s
    if A = [] then pure s.compressedEmpty
    else do
      let w := uniformWidth A
      let words := nsWords w A.length
      let m ← packBuffer s words
        (headerFields w (nsPad w A.length) ++ elementFields (nsElementPos w) w 0 A)
      pure (s.compressed m words w)

/-- What a uniform codec's Header tells: the width and the element count. -/
structure UniformHeader where
  width : Nat
  len : Nat
deriving DecidableEq, Repr

/-- `ns_length()` (R146); the width of the empty buffer, which has no Header, is not used. -/
def nsHeader (s : State) : Except Stop UniformHeader :=
  if uint s.pbufLen = 0 then pure ⟨0, 0⟩
  else do
    let w ← readField s.pbuf 0 5
    let pad ← readField s.pbuf 5 5
    check (w = 0) .malformedBuffer
    check (uint s.pbufLen * nsCpw w < nsHeaderSlots w + pad) .malformedBuffer
    pure ⟨w, uint s.pbufLen * nsCpw w - nsHeaderSlots w - pad⟩

/-- Element `i` of a non-spanning buffer (R147, R148). -/
def nsElement (s : State) (w i : Nat) : Except Stop Word := do
  let v ← readField s.pbuf (nsElementPos w i) w
  pure (BitVec.ofNat 32 v)

/-- NS_DECOMPRESS (R147). -/
def execNsDecompress (s : State) : Result :=
  settle s do
    checkPbuf s
    let hd ← nsHeader s
    check (hd.len > uint s.capN) .capacityExceeded
    let vs ← collect (nsElement s hd.width) 0 hd.len
    pure (s.decompressed vs)

/-- NS_GET (R148). -/
def execNsGet (s : State) : Result :=
  settle s do
    checkPbuf s
    let hd ← nsHeader s
    let i := sint s.a0
    check (i < 0 ∨ i ≥ hd.len) .indexOutOfRange
    let v ← nsElement s hd.width i.toNat
    pure (s.setRes0 v)

end Sys2Proof.Machine
end

