-- ==== Sys2Proof/Machine/Overflow.lean ====
section
/-! DEFINITION. The overflow codec: OV_COMPRESS, OV_DECOMPRESS and OV_GET (spec 45_overflow.md R180
to R189). -/

namespace Sys2Proof.Machine

open Sys2Proof

/-- `E = 10 + g`, where the element stream begins (R180). -/
def ovStreamStart (oc : Nat) : Nat := 10 + gammaLen (oc + 1)

/-- The words of the main area of `n` elements (R183). -/
def ovMainWords (w oc n : Nat) : Nat := cdiv (ovStreamStart oc + n * (w + 1)) 32

/-- The padding counter (R183). -/
def ovUnused (w oc n : Nat) : Nat := 32 * ovMainWords w oc n - (ovStreamStart oc + n * (w + 1))

/-- SCRATCH after the loop of R185, from slot index `slot` on: an inline element stays, an
overflowed one is replaced by its slot index. It is also the run of payloads. -/
def ovScratch (w : Nat) : Nat → List Word → List Word
  | _, [] => []
  | slot, a :: as =>
    if bitWidth a.toNat ≤ w then a :: ovScratch w slot as
    else BitVec.ofNat 32 slot :: ovScratch w (slot + 1) as

/-- The markers: 0 inline, 1 overflow (R181). -/
def ovMarkers (w : Nat) (A : List Word) : List Word :=
  A.map (fun a => if bitWidth a.toNat ≤ w then 0 else 1)

/-- The overflowed values in first-seen order (R182). -/
def ovOutliers (w : Nat) (A : List Word) : List Word :=
  A.filter (fun a => ¬ bitWidth a.toNat ≤ w)

/-- The fields of an overflow-codec buffer of `L` words (R180 to R184): the Header, the
OverflowHeader, each element's marker and payload, and the OverflowArea, whose slot `j` is the whole
word `L - 1 - j`. -/
def ovFields (A : List Word) (w oc L : Nat) : List Field :=
  let E := ovStreamStart oc
  headerFields w (ovUnused w oc A.length) ++ gammaFields 10 (oc + 1) ++
    elementFields (fun i => E + i * (w + 1)) 1 0 (ovMarkers w A) ++
    elementFields (fun i => E + i * (w + 1) + 1) w 0 (ovScratch w 0 A) ++
    elementFields (fun j => 32 * (L - 1 - j)) 32 0 (ovOutliers w A)

/-- OV_COMPRESS (R185). -/
def execOvCompress (s : State) : Result :=
  settle s do
    let A ← inputSequence s
    if A = [] then pure s.compressedEmpty
    else do
      let (w, oc) := overflowSelect A
      let L := ovMainWords w oc A.length + oc
      let m ← packBuffer s L (ovFields A w oc L)
      let t := s.compressed m L w
      pure { t with scratch := s.scratch.store 0 (ovScratch w 0 A) }

/-- What `ov_header()` recovers (R186): width, overflow count, start of the element stream, element
count. -/
structure OverflowHeader where
  width : Nat
  oc : Nat
  start : Nat
  len : Nat
deriving DecidableEq, Repr

/-- A decoded OverflowHeader, or MALFORMED_BUFFER (R186). -/
def orMalformed : GammaRead → Except Stop (Nat × Nat)
  | .value n q => .ok (n, q)
  | .unterminated | .tooLong => .error (.raise .malformedBuffer)

/-- `ov_header()` (R186); the width and start of the empty buffer are not used. -/
def ovHeader (s : State) : Except Stop OverflowHeader :=
  if uint s.pbufLen = 0 then pure ⟨0, 0, 0, 0⟩
  else do
    let w ← readField s.pbuf 0 5
    let unused ← readField s.pbuf 5 5
    check (w = 0) .malformedBuffer
    let r ← gammaRead s.pbuf 10 (32 * uint s.pbufLen)
    let (m, E) ← orMalformed r
    let oc := m - 1
    check (oc ≥ uint s.pbufLen) .malformedBuffer
    let mainBits := 32 * (uint s.pbufLen - oc)
    check (mainBits < unused + E ∨ (mainBits - unused - E) % (w + 1) ≠ 0) .malformedBuffer
    pure ⟨w, oc, E, (mainBits - unused - E) / (w + 1)⟩

/-- `ov_element(i)` (R187). -/
def ovElement (s : State) (hd : OverflowHeader) (i : Nat) : Except Stop Word := do
  let p := hd.start + i * (hd.width + 1)
  let marker ← readField s.pbuf p 1
  let payload ← readField s.pbuf (p + 1) hd.width
  if marker = 0 then pure (BitVec.ofNat 32 payload)
  else do
    check (payload ≥ hd.oc) .malformedBuffer
    readWord .pbuf s.pbuf (uint s.pbufLen - 1 - payload)

/-- OV_DECOMPRESS (R188). -/
def execOvDecompress (s : State) : Result :=
  settle s do
    checkPbuf s
    let hd ← ovHeader s
    check (hd.len > uint s.capN) .capacityExceeded
    let vs ← collect (ovElement s hd) 0 hd.len
    pure (s.decompressed vs)

/-- OV_GET (R189). -/
def execOvGet (s : State) : Result :=
  settle s do
    checkPbuf s
    let hd ← ovHeader s
    let i := sint s.a0
    check (i < 0 ∨ i ≥ hd.len) .indexOutOfRange
    let v ← ovElement s hd i.toNat
    pure (s.setRes0 v)

end Sys2Proof.Machine
end

