-- ==== Sys2Proof/Machine/Spanning.lean ====
section
/-! DEFINITION. The spanning codec: SP_COMPRESS, SP_DECOMPRESS and SP_GET (spec 44_spanning.md R160
to R167). -/

namespace Sys2Proof.Machine

open Sys2Proof

/-- The stream position of element `i` (R160). -/
def spElementPos (w i : Nat) : Nat := 10 + w * i

/-- The words of a buffer of `n` elements (R161). -/
def spWords (w n : Nat) : Nat := cdiv (10 + n * w) 32

/-- The trailing unused bits of the last word (R162). -/
def spUnused (w n : Nat) : Nat := 32 * spWords w n - 10 - n * w

/-- SP_COMPRESS (R165). -/
def execSpCompress (s : State) : Result :=
  settle s do
    let A ← inputSequence s
    if A = [] then pure s.compressedEmpty
    else do
      let w := uniformWidth A
      let words := spWords w A.length
      let m ← packBuffer s words
        (headerFields w (spUnused w A.length) ++ elementFields (spElementPos w) w 0 A)
      pure (s.compressed m words w)

/-- `sp_length()` (R164); the width of the empty buffer, which has no Header, is not used. -/
def spHeader (s : State) : Except Stop UniformHeader :=
  if uint s.pbufLen = 0 then pure ⟨0, 0⟩
  else do
    let w ← readField s.pbuf 0 5
    let unused ← readField s.pbuf 5 5
    check (w = 0) .malformedBuffer
    check (32 * uint s.pbufLen < 10 + unused ∨ (32 * uint s.pbufLen - 10 - unused) % w ≠ 0)
      .malformedBuffer
    pure ⟨w, (32 * uint s.pbufLen - 10 - unused) / w⟩

/-- Element `i` of a spanning buffer (R166, R167). -/
def spElement (s : State) (w i : Nat) : Except Stop Word := do
  let v ← readField s.pbuf (spElementPos w i) w
  pure (BitVec.ofNat 32 v)

/-- SP_DECOMPRESS (R166). -/
def execSpDecompress (s : State) : Result :=
  settle s do
    checkPbuf s
    let hd ← spHeader s
    check (hd.len > uint s.capN) .capacityExceeded
    let vs ← collect (spElement s hd.width) 0 hd.len
    pure (s.decompressed vs)

/-- SP_GET (R167). -/
def execSpGet (s : State) : Result :=
  settle s do
    checkPbuf s
    let hd ← spHeader s
    let i := sint s.a0
    check (i < 0 ∨ i ≥ hd.len) .indexOutOfRange
    let v ← spElement s hd.width i.toNat
    pure (s.setRes0 v)

end Sys2Proof.Machine
end

