-- ==== Sys2Proof/Machine/Dispatch.lean ====
section
/-! DEFINITION. One arm per command: the engine's execution of a decoded command (spec
30_encoding.md R72). -/

namespace Sys2Proof.Machine

def exec (i : Instr) (s : State) : Host.Outcome State Fault Refusal :=
  match i with
  | .bfExtract => Sys2Proof.Machine.execBfExtract s
  | .bfInsert => Sys2Proof.Machine.execBfInsert s
  | .fieldRead => Sys2Proof.Machine.execFieldRead s
  | .fieldWrite => Sys2Proof.Machine.execFieldWrite s
  | .gammaEnc => Sys2Proof.Machine.execGammaEnc s
  | .gammaDec => Sys2Proof.Machine.execGammaDec s
  | .wselUniform => Sys2Proof.Machine.execWselUniform s
  | .wselOverflow => Sys2Proof.Machine.execWselOverflow s
  | .nsCompress => Sys2Proof.Machine.execNsCompress s
  | .nsDecompress => Sys2Proof.Machine.execNsDecompress s
  | .nsGet => Sys2Proof.Machine.execNsGet s
  | .spCompress => Sys2Proof.Machine.execSpCompress s
  | .spDecompress => Sys2Proof.Machine.execSpDecompress s
  | .spGet => Sys2Proof.Machine.execSpGet s
  | .ovCompress => Sys2Proof.Machine.execOvCompress s
  | .ovDecompress => Sys2Proof.Machine.execOvDecompress s
  | .ovGet => Sys2Proof.Machine.execOvGet s

end Sys2Proof.Machine
end

