-- ==== Sys2Proof/Machine/HostPort.lean ====
section
/-! DEFINITION. The host's side: its transactions and the reset event (spec 10_state.md R22 to R31,
R39, 60_exceptions.md R215, R217, 70_reset_and_hazards.md R240). -/

namespace Sys2Proof.Machine

open Sys2Proof

/-- A write of CMD (R23): ignored while FAULTED = 1 (R215), else an illegal word raises
ILLEGAL_COMMAND (R73), else the command is executed. This is the head of the priority order R217. -/
def issue (s : State) (c : Word) : Result :=
  if s.faulted then .next s
  else
    match decode c with
    | .error _ => .next (s.raise .illegalCommand)
    | .ok i => exec i (s.noteOperands i)

/-- What a host read of a register returns (R22, R23, R24, R30). -/
def readRegister (s : State) : Reg → Word
  | .cmd => 0
  | .status => statusWord s
  | .a0 => s.a0
  | .a1 => s.a1
  | .a2 => s.a2
  | .a3 => s.a3
  | .a4 => s.a4
  | .res0 => s.res0
  | .res1 => s.res1
  | .seqInLen => s.seqInLen
  | .pbufLen => s.pbufLen
  | .seqOutLen => s.seqOutLen
  | .capN => s.capN
  | .capPbuf => s.capPbuf

/-- A host read of a register: it returns the value and changes nothing else, but that a read of a
register holding no value marks the run (R37; notes/assumptions/5.md). -/
def hostReadReg (s : State) (r : Reg) : Result :=
  .next { s with
    readData := some (readRegister s r)
    noValueRead := s.noValueRead || decide (r ∈ s.noValue) }

/-- A host write of a register (R22, R31). -/
def hostWriteReg (s : State) (r : Reg) (v : Word) : Result :=
  match r with
  | .cmd => issue s v
  | .a0 => .next (s.setA0 v)
  | .a1 => .next (s.setA1 v)
  | .a2 => .next (s.setA2 v)
  | .a3 => .next (s.setA3 v)
  | .a4 => .next (s.setA4 v)
  | .seqInLen => .next { s with seqInLen := v }
  | .pbufLen => .next { s with pbufLen := v }
  | .status => .refused (.readOnlyRegister .status)
  | .res0 => .refused (.readOnlyRegister .res0)
  | .res1 => .refused (.readOnlyRegister .res1)
  | .seqOutLen => .refused (.readOnlyRegister .seqOutLen)
  | .capN => .refused (.readOnlyRegister .capN)
  | .capPbuf => .refused (.readOnlyRegister .capPbuf)

/-- The contents of a memory. -/
def memoryOf (s : State) : Space → Memory
  | .seqIn => s.seqIn
  | .pbuf => s.pbuf
  | .seqOut => s.seqOut
  | .scratch => s.scratch

/-- The capacity of a memory in words (R32 to R35). -/
def capacityOf (s : State) (sp : Space) : Nat := sp.capacity (uint s.capN) (uint s.capPbuf)

/-- A host read of a memory word (R37, R39). -/
def hostReadMem (s : State) (sp : Space) (i : Nat) : Result :=
  if sp.hostReadable then
    if i < capacityOf s sp then
      match (memoryOf s sp).read i with
      | some v => .next { s with readData := some v }
      | none => .refused (.noValue sp i)
    else .refused (.outsideSpace sp i)
  else .refused (.privateSpace sp)

/-- A host write of a memory word (R32 to R35, R39). -/
def hostWriteMem (s : State) (sp : Space) (i : Nat) (v : Word) : Result :=
  match sp with
  | .seqIn =>
    if i < capacityOf s .seqIn then .next { s with seqIn := s.seqIn.write i v }
    else .refused (.outsideSpace .seqIn i)
  | .pbuf =>
    if i < capacityOf s .pbuf then .next { s with pbuf := s.pbuf.write i v }
    else .refused (.outsideSpace .pbuf i)
  | .seqOut => .refused (.privateSpace .seqOut)
  | .scratch => .refused (.privateSpace .scratch)

/-- One event of the host's sequence. -/
def perform (s : State) : Event → Result
  | .readReg i =>
    match regOfIndex i with
    | some r => hostReadReg s r
    | none => .refused (.noSuchRegister i)
  | .writeReg i v =>
    match regOfIndex i with
    | some r => hostWriteReg s r v
    | none => .refused (.noSuchRegister i)
  | .readMem sp i => hostReadMem s sp i
  | .writeMem sp i v => hostWriteMem s sp i v
  | .reset => .next s.hardReset

/-- The next event of the host's sequence is performed; with none left the block is idle and holds
its state (R229, R251; notes/assumptions/2.md). -/
def advance (s : State) : Result :=
  match s.pending with
  | [] => .next s
  | e :: rest => perform { s with pending := rest } e

/-- The host's next transaction made the issue of the command word whose opcode-table bits are `w`
(notes/assumptions/1.md). -/
def placeCommand (s : State) (nbits w : Nat) : State :=
  { s with pending := .writeReg 0x00 (BitVec.ofNat 32 (w % 2 ^ nbits)) :: s.pending }

end Sys2Proof.Machine
end

