-- ==== Sys2Proof/Machine/Step.lean ====
section
/-! DEFINITION. One step of the machine: the next event of the host's sequence (spec 10_state.md
R20, R39). -/

namespace Sys2Proof.Machine

/-- One step (R20): the host's next transaction, with the command it issues, is one atomic step. -/
def step (s : State) : Host.Outcome State Fault Refusal := advance s

/-- The command word of an opcode-table row placed where the next step takes it: as the host's next
write of CMD (notes/assumptions/1.md). -/
def State.withFetchWord (s : State) (nbits w : Nat) : State := placeCommand s nbits w

end Sys2Proof.Machine
end

