-- ==== Sys2Proof/Machine/Assembler.lean ====
section
/-! DEFINITION. The assembler: the transactions a host program stands for (spec 30_encoding.md R77
to R79). It is notation only (92_eei_decisions.md D38). -/

namespace Sys2Proof.Machine

open Sys2Proof

/-- An immediate, taken mod 2^32 (R77). -/
def immediate (v : Int) : Word := BitVec.ofInt 32 v

/-- `WR reg, imm`: the transaction (W, index, value) of R79. -/
def writeTo (r : Reg) (v : Int) : Event := .writeReg (regIndex r) (immediate v)

/-- `CMD mnemonic`: the write of the command word to CMD (R77, R79). -/
def commandOf (i : Instr) : Event := .writeReg (regIndex .cmd) (encode i)

/-- The word index an immediate names, taken mod 2^32 as every immediate is (R77). -/
def memIndex (i : Int) : Nat := (immediate i).toNat

/-- `MW space[imm], imm`: the transaction (MW, space, index, value) of R79. -/
def writeWord (sp : Space) (i v : Int) : Event := .writeMem sp (memIndex i) (immediate v)

/-- `MW space[i], v0` / `MW space[i+1], v1` / ... -/
def writeRun (sp : Space) : Nat → List Int → List Event
  | _, [] => []
  | i, v :: vs => writeWord sp i v :: writeRun sp (i + 1) vs

/-- The expansions of the pseudo-instructions (R78). -/
def expand : Pseudo → List Event
  | .extract w lo hi => [writeTo .a0 w, writeTo .a1 lo, writeTo .a2 hi, commandOf .bfExtract]
  | .insert d dlo s slo shi =>
    [writeTo .a0 d, writeTo .a1 dlo, writeTo .a2 s, writeTo .a3 slo, writeTo .a4 shi,
      commandOf .bfInsert]
  | .fread p n => [writeTo .a0 p, writeTo .a1 n, commandOf .fieldRead]
  | .fwrite p n v => [writeTo .a0 p, writeTo .a1 n, writeTo .a2 v, commandOf .fieldWrite]
  | .genc n p => [writeTo .a0 n, writeTo .a1 p, commandOf .gammaEnc]
  | .gdec p => [writeTo .a0 p, commandOf .gammaDec]
  | .loadSeq vs => writeRun .seqIn 0 vs ++ [writeTo .seqInLen vs.length]
  | .loadBuf xs => writeRun .pbuf 0 xs ++ [writeTo .pbufLen xs.length]
  | .getNs i => [writeTo .a0 i, commandOf .nsGet]
  | .getSp i => [writeTo .a0 i, commandOf .spGet]
  | .getOv i => [writeTo .a0 i, commandOf .ovGet]

/-- The transactions of one statement (R77, R79); EXPECT performs nothing. -/
def assembleStmt : Stmt → List Event
  | .wr r v => [writeTo r v]
  | .rd r => [.readReg (regIndex r)]
  | .mw sp i v => [writeWord sp i v]
  | .mr sp i => [.readMem sp (memIndex i)]
  | .cmd i => [commandOf i]
  | .cmdw v => [.writeReg (regIndex .cmd) (immediate v)]
  | .expect _ _ => []
  | .pseudo p => expand p

/-- The transactions of one line; a label stands for the reader only. -/
def assembleLine (l : Line) : List Event :=
  match l.stmt with
  | some st => assembleStmt st
  | none => []

/-- The transactions of a host program, in order (R79). -/
def assemble (ls : List Line) : List Event := ls.flatMap assembleLine

end Sys2Proof.Machine
end

