-- ==== Sys2Proof/Safety.lean ====
section
/-! DEFINITION. The terms the statements use: what a memory's stream holds, what an input Sequence
is, which widths the selectors must choose, and the invariant of the machine. -/

namespace Sys2Proof.Machine

open Sys2Proof

/-- The field of `n` bits at stream position `p`, least significant bit first:
the sum of `Bit(p+j) * 2^j` (spec 20_memory.md R54). -/
def Memory.field (m : Memory) : Nat → Nat → Nat
  | _, 0 => 0
  | p, n + 1 => (m.bit p).toNat + 2 * Memory.field m (p + 1) n

/-- The Gamma code of `n`, with `k` leading zeros, stands at stream position `p`
(41_gamma.md R120). -/
def GammaCodeAt (m : Memory) (p k n : Nat) : Prop :=
  2 ^ k ≤ n ∧ n < 2 ^ (k + 1) ∧ (∀ j, j < k → m.bit (p + j) = false) ∧
    ∀ i, i ≤ k → m.bit (p + k + i) = n.testBit (k - i)

/-- The Sequence in SEQ_IN, of length SEQ_IN_LEN, is `A` (10_state.md R27). -/
def HoldsSequence (s : State) (A : List Word) : Prop :=
  A.length = s.seqInLen.toNat ∧ ∀ i, i < A.length → s.seqIn.read i = A[i]?

/-- Every element is in the value domain of 00_scope.md R12: bit 31 is clear. -/
def Admitted (A : List Word) : Prop := ∀ a ∈ A, a.getLsbD 31 = false

/-- A compress or width-select command has its input: an admitted Sequence within the capacity
(R12, R68). -/
def Input (s : State) (A : List Word) : Prop :=
  HoldsSequence s A ∧ Admitted A ∧ A.length ≤ s.capN.toNat

/-- Every word of the buffer in PBUF holds a value, and the buffer fits PBUF (R68, R243). -/
def BufferReady (s : State) : Prop :=
  s.pbufLen.toNat ≤ s.capPbuf.toNat ∧ ∀ i, i < s.pbufLen.toNat → s.pbuf.has i

/-- Word `k` of PBUF holds a stream position of the field of `n` bits at `p` (20_memory.md R53,
R54). -/
def FieldWord (p n k : Nat) : Prop := ∃ q, p ≤ q ∧ q < p + n ∧ k = q / 32

/-- `gamma_read(p, limit)` reads stream position `q` (41_gamma.md R122): the scan comes to it, every
position from `p` on being 0 before it, or it is one of the digits after the `z` zeros. -/
def GammaReads (m : Memory) (p limit q : Nat) : Prop :=
  p ≤ q ∧ q < limit ∧
    ((∀ r, p ≤ r → r < q → m.bit r = false) ∨
      ∃ z, z ≤ 31 ∧ p + (2 * z + 1) ≤ limit ∧ (∀ r, p ≤ r → r < p + z → m.bit r = false) ∧
        m.bit (p + z) = true ∧ q < p + (2 * z + 1))

/-- The Header of a non-empty non-spanning buffer is good, with width `w` and decoded length `L`
(43_nonspanning.md R146). -/
def NsGoodHeader (s : State) (w L : Nat) : Prop :=
  s.pbufLen ≠ 0 ∧ w = s.pbuf.field 0 5 ∧ w ≠ 0 ∧
    L + (10 + w - 1) / w + s.pbuf.field 5 5 = s.pbufLen.toNat * (32 / w)

/-- Word `k` holds element `i` of a non-spanning buffer of width `w` (R140, R141). -/
def NsElementWord (w i k : Nat) : Prop := k = ((10 + w - 1) / w + i) / (32 / w)

/-- The Header of a non-empty spanning buffer is good, with width `w` and decoded length `L`
(44_spanning.md R164). -/
def SpGoodHeader (s : State) (w L : Nat) : Prop :=
  s.pbufLen ≠ 0 ∧ w = s.pbuf.field 0 5 ∧ w ≠ 0 ∧
    10 + s.pbuf.field 5 5 + L * w = 32 * s.pbufLen.toNat

/-- Word `k` holds a bit of element `i` of a spanning buffer of width `w` (R160). -/
def SpElementWord (w i k : Nat) : Prop := FieldWord (10 + w * i) w k

/-- The Header and the OverflowHeader of a non-empty overflow buffer are good, with width `w`,
overflow count `oc`, element stream at `E` and `n` elements (45_overflow.md R186). -/
def OvGoodHeader (s : State) (w oc E n : Nat) : Prop :=
  s.pbufLen ≠ 0 ∧ w = s.pbuf.field 0 5 ∧ w ≠ 0 ∧
    (∃ k, k ≤ 31 ∧ E = 10 + (2 * k + 1) ∧ GammaCodeAt s.pbuf 10 k (oc + 1)) ∧
    E ≤ 32 * s.pbufLen.toNat ∧ oc < s.pbufLen.toNat ∧
    s.pbuf.field 5 5 + E + n * (w + 1) = 32 * (s.pbufLen.toNat - oc)

/-- Word `k` holds a bit of element `i`'s marker or payload, or is the slot of an element that is
relocated to a slot below `oc` (R181, R182, R187). -/
def OvElementWord (s : State) (w oc E i k : Nat) : Prop :=
  FieldWord (E + i * (w + 1)) (w + 1) k ∨
    (s.pbuf.bit (E + i * (w + 1)) = true ∧ s.pbuf.field (E + i * (w + 1) + 1) w < oc ∧
      k = s.pbufLen.toNat - 1 - s.pbuf.field (E + i * (w + 1) + 1) w)

/-- The commands that read SEQ_IN (R68). -/
def ReadsSeqIn (i : Instr) : Prop :=
  i ∈ [Instr.wselUniform, .wselOverflow, .nsCompress, .spCompress, .ovCompress]

/-- Which words of PBUF a command reads in a state (70_reset_and_hazards.md R243, column "must have
written", as each command's rule reads them): the words its field or code touches, the words its
scan reads, word 0 with the Header, the words of the OverflowHeader, and those of the elements it
answers, one for a get and all for a decompress. -/
def ReadsPbuf (s : State) (k : Nat) : Instr → Prop
  | .bfExtract | .bfInsert | .wselUniform | .wselOverflow | .nsCompress | .spCompress
  | .ovCompress => False
  | .fieldRead | .fieldWrite => FieldWord s.a0.toInt.toNat s.a1.toInt.toNat k
  | .gammaEnc => FieldWord s.a1.toInt.toNat (2 * Nat.log2 s.a0.toInt.toNat + 1) k
  | .gammaDec => ∃ q, GammaReads s.pbuf s.a0.toInt.toNat (32 * s.pbufLen.toNat) q ∧ k = q / 32
  | .nsDecompress => k = 0 ∨ ∃ w L j, NsGoodHeader s w L ∧ j < L ∧ NsElementWord w j k
  | .nsGet => k = 0 ∨ ∃ w L j, NsGoodHeader s w L ∧ j < L ∧ s.a0.toInt = (j : Nat) ∧
      NsElementWord w j k
  | .spDecompress => k = 0 ∨ ∃ w L j, SpGoodHeader s w L ∧ j < L ∧ SpElementWord w j k
  | .spGet => k = 0 ∨ ∃ w L j, SpGoodHeader s w L ∧ j < L ∧ s.a0.toInt = (j : Nat) ∧
      SpElementWord w j k
  | .ovDecompress => k = 0 ∨
      (∃ q, GammaReads s.pbuf 10 (32 * s.pbufLen.toNat) q ∧ k = q / 32) ∨
      ∃ w oc E n j, OvGoodHeader s w oc E n ∧ j < n ∧ OvElementWord s w oc E j k
  | .ovGet => k = 0 ∨
      (∃ q, GammaReads s.pbuf 10 (32 * s.pbufLen.toNat) q ∧ k = q / 32) ∨
      ∃ w oc E n j, OvGoodHeader s w oc E n ∧ j < n ∧ s.a0.toInt = (j : Nat) ∧
        OvElementWord s w oc E j k

/-- Two blocks alike in what a command that reads PBUF and writes no memory of the host's input may
look at: the operands, PBUF_LEN, the capacities, and the words of the buffer
(70_reset_and_hazards.md R249, 93_implementation_defined.md U7). -/
structure SameBuffer (s s' : State) : Prop where
  position : s'.a0 = s.a0
  width : s'.a1 = s.a1
  length : s'.pbufLen = s.pbufLen
  capacities : s'.capN = s.capN ∧ s'.capPbuf = s.capPbuf
  words : ∀ k, k < s.pbufLen.toNat → s'.pbuf.read k = s.pbuf.read k

/-- The least width in 1.. that holds every element: 1 for an empty or all-zero Sequence
(42_width_selector.md R130). -/
def IsUniformWidth (A : List Word) (w : Nat) : Prop :=
  1 ≤ w ∧ (∀ a ∈ A, a.toNat < 2 ^ w) ∧ (w = 1 ∨ ∃ a ∈ A, 2 ^ (w - 1) ≤ a.toNat)

/-- How many elements do not fit `w` bits (R131). -/
def outlierCount (A : List Word) (w : Nat) : Nat := A.countP (fun a => decide (2 ^ w ≤ a.toNat))

/-- The size in bits of an overflow-codec buffer at width `w`, the source's formula (R132). -/
def overflowSize (A : List Word) (w : Nat) : Nat :=
  (A.length * (w + 1) + (2 * Nat.log2 (outlierCount A w + 1) + 1) + 32 * outlierCount A w + 10 + 31)
    / 32 * 32

/-- `w` is the eligible candidate of least size, the smallest on a tie (R133, R134). -/
def IsOverflowWidth (A : List Word) (w : Nat) : Prop :=
  1 ≤ w ∧ w ≤ 31 ∧ outlierCount A w ≤ 2 ^ w ∧
    ∀ v, 1 ≤ v → v ≤ 31 → outlierCount A v ≤ 2 ^ v →
      overflowSize A w ≤ overflowSize A v ∧ (v < w → overflowSize A w < overflowSize A v)

/-- The machine's invariant. -/
structure Inv (s : State) : Prop where
  /-- The capacities are those R10 admits. -/
  capacities : Config.Admissible s.capN s.capPbuf
  /-- Every memory is in canonical form. -/
  canonical : s.seqIn.wf ∧ s.pbuf.wf ∧ s.seqOut.wf ∧ s.scratch.wf
  /-- No memory holds a word at or above its capacity (R32 to R35). -/
  bounded : s.seqIn.below s.capN.toNat ∧ s.pbuf.below s.capPbuf.toNat ∧
    s.seqOut.below s.capN.toNat ∧ s.scratch.below s.capN.toNat
  /-- Codes 8 to 15 are never written (R211). -/
  legalCode : s.code.toNat ≤ 7
  /-- FAULTED is set exactly when the code is a fatal one (R213, R214). -/
  latch : s.faulted = true ↔ s.code = 1 ∨ s.code = 4
  /-- SEQ_OUT holds a Sequence of length SEQ_OUT_LEN (R29, R34, R67). -/
  output : s.seqOutLen.toNat ≤ s.capN.toNat ∧ ∀ i, i < s.seqOutLen.toNat → s.seqOut.has i

/-- A run the spec gives a meaning: it has read no register that holds no value (R37), and no fatal
error has occurred (R215). -/
def GoodRun (s : State) : Prop := s.noValueRead = false ∧ s.faulted = false

/-- Two states that differ at most in what stands in registers that hold no value (R37). -/
def SameButNoValue (s t : State) : Prop :=
  t = { s with
    a0 := t.a0
    a1 := t.a1
    a2 := t.a2
    a3 := t.a3
    a4 := t.a4
    res0 := t.res0
    res1 := t.res1 } ∧
  ∀ r, r ∉ s.noValue → readRegister t r = readRegister s r

end Sys2Proof.Machine
end

