-- ==== Sys2Proof/Certificates/Slice0/Obligations.lean ====
section
/-! DEFINITION. The statements for the provers. Each says what the spec's rules say of the block, in
terms of the state before and after; Safety.lean holds the terms they use.

Where a statement gives the whole next state of a command, that SCRATCH is then as it was is the
model's choice, not a rule's: R216 and 93_implementation_defined.md U3 leave SCRATCH open, nothing
observes it (R35), and notes/assumptions/11.md says what the model does. -/

open Sys2Proof Sys2Proof.Machine

/-! ## Command words -/

/-- R70, R72, R75, R76: each command has exactly one word, and the decoder reads that word as it. -/
def Obligations.DecodeEncodeRoundTrip : Prop :=
  ∀ (i : Instr) (c : Word), decode c = .ok i ↔ c = encode i

/-- R70: a word is a command exactly when bits 31:8 are 0 and bits 7:0 are one of 0x01 to 0x11. -/
def Obligations.LegalWordsAreTheSeventeenOpcodes : Prop :=
  ∀ c : Word, (∃ i, decode c = .ok i) ↔
    (∀ j, 8 ≤ j → c.getLsbD j = false) ∧ 1 ≤ c.toNat % 256 ∧ c.toNat % 256 ≤ 0x11

/-- R72: the words of the opcode map, as the spec writes them, decode to their commands. -/
def Obligations.OpcodeMapWordsDecode : Prop :=
  decode 0x00000001 = .ok .bfExtract ∧ decode 0x00000002 = .ok .bfInsert ∧
  decode 0x00000003 = .ok .fieldRead ∧ decode 0x00000004 = .ok .fieldWrite ∧
  decode 0x00000005 = .ok .gammaEnc ∧ decode 0x00000006 = .ok .gammaDec ∧
  decode 0x00000007 = .ok .wselUniform ∧ decode 0x00000008 = .ok .wselOverflow ∧
  decode 0x00000009 = .ok .nsCompress ∧ decode 0x0000000A = .ok .nsDecompress ∧
  decode 0x0000000B = .ok .nsGet ∧ decode 0x0000000C = .ok .spCompress ∧
  decode 0x0000000D = .ok .spDecompress ∧ decode 0x0000000E = .ok .spGet ∧
  decode 0x0000000F = .ok .ovCompress ∧ decode 0x00000010 = .ok .ovDecompress ∧
  decode 0x00000011 = .ok .ovGet

/-! ## The step -/

/-- R23: a host write of a command's word to CMD, while the block is not faulted, runs that command
on the state, with the event taken and the run marked where an operand register that holds no value
is read (the model's mark: notes/assumptions/5.md, 9.md). -/
def Obligations.StepRunsTheDecodedCommand : Prop :=
  ∀ (s : State) (c : Word) (rest : List Event) (i : Instr),
    s.pending = .writeReg 0x00 c :: rest → s.faulted = false → decode c = .ok i →
    step s = exec i { s with
      pending := rest
      noValueRead := s.noValueRead || (operandRegs i).any (fun r => decide (r ∈ s.noValue)) }

/-- R73: a write to CMD of a word with a bit of 31:8 set, with OPC 0x00 or with OPC above 0x11, on a
block that is not faulted, sets CODE to ILLEGAL_COMMAND (7) and changes nothing else. -/
def Obligations.IllegalCommandSetsOnlyTheCode : Prop :=
  ∀ (s : State) (c : Word) (rest : List Event),
    s.pending = .writeReg 0x00 c :: rest → s.faulted = false →
    ((∃ j, 8 ≤ j ∧ c.getLsbD j = true) ∨ c.toNat % 256 = 0 ∨ 0x12 ≤ c.toNat % 256) →
    step s = .next { s with pending := rest, code := 7 }

/-- R215, first sentence: on a faulted block a write of CMD, of any word, changes nothing (the event
is taken from the host's sequence). -/
def Obligations.FaultedBlockIgnoresCommands : Prop :=
  ∀ (s : State) (c : Word) (rest : List Event),
    s.pending = .writeReg 0x00 c :: rest → s.faulted = true →
    step s = .next { s with pending := rest }

/-- R214: a fatal error sets FAULTED; FAULTED and the code stay until reset, whatever command or
host transaction comes. -/
def Obligations.FaultLatchHoldsUntilReset : Prop :=
  (∀ (i : Instr) (s t : State), exec i s = .next t → t.code = 1 ∨ t.code = 4 → t.faulted = true) ∧
  (∀ s t : State, s.faulted = true → (∀ rest, s.pending ≠ .reset :: rest) → step s = .next t →
    t.faulted = true ∧ t.code = s.code)

/-- R217: the order in which a write of CMD is judged: a faulted block ignores it; else an illegal
word is ILLEGAL_COMMAND; else a length register above its capacity is CAPACITY_EXCEEDED (6) for
every command that reads that memory, whatever its operands and memories hold. -/
def Obligations.ErrorPriority : Prop :=
  ∀ (s : State) (c : Word) (rest : List Event), s.pending = .writeReg 0x00 c :: rest →
    (s.faulted = true → step s = .next { s with pending := rest }) ∧
    (s.faulted = false → (∀ i, decode c ≠ .ok i) →
      step s = .next { s with pending := rest, code := 7 }) ∧
    (s.faulted = false → ∀ i, decode c = .ok i →
      (i ∈ [Instr.wselUniform, .wselOverflow, .nsCompress, .spCompress, .ovCompress] ∧
          s.capN.toNat < s.seqInLen.toNat ∨
        i ∈ [Instr.fieldRead, .fieldWrite, .gammaEnc, .gammaDec, .nsDecompress, .nsGet,
            .spDecompress, .spGet, .ovDecompress, .ovGet] ∧
          s.capPbuf.toNat < s.pbufLen.toNat) →
      ∃ b, step s = .next { s with pending := rest, noValueRead := b, code := 6 })

/-- R229, R251 and notes/assumptions/2.md (the model's reading): with no host event left the block
holds its state. -/
def Obligations.IdleBlockHoldsItsState : Prop :=
  ∀ s : State, s.pending = [] → step s = .next s

/-! ## Reset -/

/-- R38: the reset state, for every pair of capacities: STATUS, the length registers and the
capacity registers as stated, CMD reading 0, A0 to A4, RES0 and RES1 and every memory word holding
no value. -/
def Obligations.ResetStateValues : Prop :=
  ∀ nMax pbufMax : Word, ∀ s, s = State.resetWith nMax pbufMax →
    readRegister s .cmd = 0 ∧ statusWord s = 0 ∧ s.code = 0 ∧ s.faulted = false ∧
    s.seqInLen = 0 ∧ s.pbufLen = 0 ∧ s.seqOutLen = 0 ∧ s.capN = nMax ∧ s.capPbuf = pbufMax ∧
    (∀ r, r ∈ s.noValue ↔ r ∈ [Reg.a0, .a1, .a2, .a3, .a4, .res0, .res1]) ∧
    ∀ i, ¬ s.seqIn.has i ∧ ¬ s.pbuf.has i ∧ ¬ s.seqOut.has i ∧ ¬ s.scratch.has i

/-- R240: the reset event, from any state, faulted or not, gives every register and memory its reset
state; the capacities, being constants, stay. What is the host's own (its remaining events, what it
last read, the mark of its run) stays: notes/assumptions/14.md. -/
def Obligations.ResetEventRestoresTheResetState : Prop :=
  ∀ (s : State) (rest : List Event), s.pending = .reset :: rest →
    ∃ t, step s = .next t ∧ statusWord t = 0 ∧ t.faulted = false ∧
      t.seqInLen = 0 ∧ t.pbufLen = 0 ∧ t.seqOutLen = 0 ∧
      t.capN = s.capN ∧ t.capPbuf = s.capPbuf ∧
      (∀ r, r ∈ t.noValue ↔ r ∈ [Reg.a0, .a1, .a2, .a3, .a4, .res0, .res1]) ∧
      (∀ i, ¬ t.seqIn.has i ∧ ¬ t.pbuf.has i ∧ ¬ t.seqOut.has i ∧ ¬ t.scratch.has i) ∧
      t.pending = rest ∧ t.readData = s.readData ∧ t.noValueRead = s.noValueRead

/-- The invariant holds at reset, for every pair of capacities R10 admits, those of `State.reset`
among them. -/
def Obligations.InvariantHoldsAtReset : Prop :=
  (∀ nMax pbufMax : Word, Config.Admissible nMax pbufMax → Inv (State.resetWith nMax pbufMax)) ∧
  Inv State.reset

/-- The invariant: admissible capacities, canonical memories below their capacities, a legal code,
FAULTED exactly with a fatal code, and SEQ_OUT holding SEQ_OUT_LEN words. Every step keeps it. -/
def Obligations.StepKeepsTheInvariant : Prop :=
  ∀ s t : State, Inv s → step s = .next t → Inv t

/-- R10, last sentence: in a state of the invariant no step stops with the model's fault, so no
compress command exceeds PBUF's capacity. -/
def Obligations.NoStepFaults : Prop :=
  ∀ (s : State) (f : Fault), Inv s → step s ≠ .fault f

/-- R30: the capacity registers are constants: no step changes them. -/
def Obligations.CapacityRegistersAreConstant : Prop :=
  ∀ s t : State, step s = .next t → t.capN = s.capN ∧ t.capPbuf = s.capPbuf

/-! ## Host transactions -/

/-- R22 to R30, R39, R57: a host read of each register index returns that register, CMD reading 0,
and changes nothing else (a register that holds no value marks the run: notes/assumptions/5.md). -/
def Obligations.HostReadsEveryRegister : Prop :=
  ∀ (s : State) (rest : List Event),
    ∀ x ∈ [(0x00, Reg.cmd, (0 : Word)), (0x01, .status, statusWord s), (0x02, .a0, s.a0),
      (0x03, .a1, s.a1), (0x04, .a2, s.a2), (0x05, .a3, s.a3), (0x06, .a4, s.a4),
      (0x07, .res0, s.res0), (0x08, .res1, s.res1), (0x09, .seqInLen, s.seqInLen),
      (0x0A, .pbufLen, s.pbufLen), (0x0B, .seqOutLen, s.seqOutLen), (0x0C, .capN, s.capN),
      (0x0D, .capPbuf, s.capPbuf)],
    s.pending = .readReg x.1 :: rest →
    step s = .next { s with
      pending := rest
      readData := some x.2.2
      noValueRead := s.noValueRead || decide (x.2.1 ∈ s.noValue) }

/-- R24: CODE is STATUS[3:0], FAULTED is STATUS[4], and STATUS[31:5] reads as 0. -/
def Obligations.StatusWordLayout : Prop :=
  ∀ s : State, (∀ j, j < 4 → (statusWord s).getLsbD j = s.code.getLsbD j) ∧
    (statusWord s).getLsbD 4 = s.faulted ∧ ∀ j, 5 ≤ j → (statusWord s).getLsbD j = false

/-- R22, R25, R27, R28: a host write of A0 to A4, SEQ_IN_LEN or PBUF_LEN writes that register, which
then holds a value, and nothing else. -/
def Obligations.HostWritesRegisters : Prop :=
  ∀ (s : State) (v : Word) (rest : List Event),
    (s.pending = .writeReg 0x02 v :: rest → step s = .next
      { s with pending := rest, a0 := v, noValue := s.noValue.filter (· ≠ .a0) }) ∧
    (s.pending = .writeReg 0x03 v :: rest → step s = .next
      { s with pending := rest, a1 := v, noValue := s.noValue.filter (· ≠ .a1) }) ∧
    (s.pending = .writeReg 0x04 v :: rest → step s = .next
      { s with pending := rest, a2 := v, noValue := s.noValue.filter (· ≠ .a2) }) ∧
    (s.pending = .writeReg 0x05 v :: rest → step s = .next
      { s with pending := rest, a3 := v, noValue := s.noValue.filter (· ≠ .a3) }) ∧
    (s.pending = .writeReg 0x06 v :: rest → step s = .next
      { s with pending := rest, a4 := v, noValue := s.noValue.filter (· ≠ .a4) }) ∧
    (s.pending = .writeReg 0x09 v :: rest → step s = .next
      { s with pending := rest, seqInLen := v }) ∧
    (s.pending = .writeReg 0x0A v :: rest → step s = .next
      { s with pending := rest, pbufLen := v })

/-- R31: a host access to a register index above 0x0D, and a host write of a register marked R only
(STATUS, RES0, RES1, SEQ_OUT_LEN, CAP_N, CAP_PBUF), are refused; a host read of CMD is legal and
returns 0. -/
def Obligations.OutsideRegisterAccessesAreRefused : Prop :=
  ∀ (s : State) (v : Word) (rest : List Event),
    (∀ i, 0x0D < i → s.pending = .readReg i :: rest ∨ s.pending = .writeReg i v :: rest →
      step s = .refused (.noSuchRegister i)) ∧
    (∀ i ∈ [0x01, 0x07, 0x08, 0x0B, 0x0C, 0x0D], s.pending = .writeReg i v :: rest →
      ∃ r, regOfIndex i = some r ∧ step s = .refused (.readOnlyRegister r)) ∧
    (s.pending = .readReg 0x00 :: rest → ∃ t, step s = .next t ∧ t.readData = some 0)

/-- R32 to R34, R37, R39: a host read of word i of SEQ_IN, PBUF or SEQ_OUT below its capacity
returns the word and changes nothing else; a word that holds no value is refused. -/
def Obligations.HostReadsMemory : Prop :=
  ∀ (s : State) (i : Nat) (rest : List Event),
    ∀ x ∈ [(Space.seqIn, s.seqIn, s.capN), (.pbuf, s.pbuf, s.capPbuf), (.seqOut, s.seqOut, s.capN)],
    s.pending = .readMem x.1 i :: rest → i < x.2.2.toNat →
    (∀ v, x.2.1.read i = some v → step s = .next { s with pending := rest, readData := some v }) ∧
    (¬ x.2.1.has i → step s = .refused (.noValue x.1 i))

/-- R32, R33, R39: a host write of word i of SEQ_IN or PBUF below its capacity writes that word and
no other, and changes nothing else. -/
def Obligations.HostWritesMemory : Prop :=
  ∀ (s : State) (i : Nat) (v : Word) (rest : List Event),
    (s.pending = .writeMem .seqIn i v :: rest → i < s.capN.toNat → ∃ m : Memory,
      step s = .next { s with pending := rest, seqIn := m } ∧ m.read i = some v ∧
      ∀ j, j ≠ i → m.read j = s.seqIn.read j) ∧
    (s.pending = .writeMem .pbuf i v :: rest → i < s.capPbuf.toNat → ∃ m : Memory,
      step s = .next { s with pending := rest, pbuf := m } ∧ m.read i = some v ∧
      ∀ j, j ≠ i → m.read j = s.pbuf.read j)

/-- R34, R35, R39: a memory transaction at or above the capacity, one that names SCRATCH, and a write
of SEQ_OUT are refused. -/
def Obligations.OutsideMemoryAccessesAreRefused : Prop :=
  ∀ (s : State) (i : Nat) (v : Word) (rest : List Event),
    (s.pending = .readMem .scratch i :: rest ∨ s.pending = .writeMem .scratch i v :: rest →
      step s = .refused (.privateSpace .scratch)) ∧
    (s.pending = .writeMem .seqOut i v :: rest → step s = .refused (.privateSpace .seqOut)) ∧
    (s.capN.toNat ≤ i → ∀ sp ∈ [Space.seqIn, .seqOut],
      s.pending = .readMem sp i :: rest → step s = .refused (.outsideSpace sp i)) ∧
    (s.capPbuf.toNat ≤ i → s.pending = .readMem .pbuf i :: rest →
      step s = .refused (.outsideSpace .pbuf i)) ∧
    (s.capN.toNat ≤ i → s.pending = .writeMem .seqIn i v :: rest →
      step s = .refused (.outsideSpace .seqIn i)) ∧
    (s.capPbuf.toNat ≤ i → s.pending = .writeMem .pbuf i v :: rest →
      step s = .refused (.outsideSpace .pbuf i))

/-- R77 to R79: the transactions of LOADSEQ, performed in order on a block whose SEQ_IN is large
enough, leave SEQ_IN holding the values, mod 2^32, and SEQ_IN_LEN their number. -/
def Obligations.LoadSeqPlacesTheSequence : Prop :=
  ∀ (s : State) (vs : List Int), vs.length ≤ s.capN.toNat →
    s.pending = assemble [⟨none, some (.pseudo (.loadSeq vs))⟩] →
    ∃ t, Host.Core.run Sys2Proof.core (vs.length + 1) s = .next t ∧ t.pending = [] ∧
      HoldsSequence t (vs.map (BitVec.ofInt 32)) ∧ t.pbuf = s.pbuf ∧ t.pbufLen = s.pbufLen ∧
      t.seqOut = s.seqOut ∧ t.code = s.code ∧ t.faulted = s.faulted

/-! ## Every command -/

/-- R216: a command that raises an error changes nothing but STATUS: its code, and FAULTED for
INVALID_RANGE (1) and INVALID_ARGUMENT (4). (SCRATCH, of which the rule says nothing can be
observed, is left out.) -/
def Obligations.FailingCommandChangesOnlyStatus : Prop :=
  ∀ (i : Instr) (s t : State), exec i s = .next t → t.code ≠ 0 →
    { t with scratch := s.scratch } =
      { s with code := t.code, faulted := s.faulted || decide (t.code = 1 ∨ t.code = 4) }

/-- R212: which commands raise which code; R211: no code above 7 is written; R218: a command that
completes without error leaves FAULTED as it was. -/
def Obligations.CodesAndTheirRaisers : Prop :=
  ∀ (i : Instr) (s t : State), exec i s = .next t →
    t.code.toNat ≤ 6 ∧ (t.code = 0 → t.faulted = s.faulted) ∧
    (t.code = 1 → i ∈ [Instr.bfExtract, .bfInsert, .fieldRead, .fieldWrite, .gammaEnc, .gammaDec]) ∧
    (t.code = 2 → i ∈ [Instr.nsGet, .spGet, .ovGet]) ∧
    (t.code = 3 → i ∈ [Instr.nsDecompress, .nsGet, .spDecompress, .spGet, .ovDecompress, .ovGet]) ∧
    (t.code = 4 → i ∈ [Instr.fieldRead, .fieldWrite, .gammaEnc, .gammaDec]) ∧
    (t.code = 5 → i ∈ [Instr.wselUniform, .wselOverflow, .nsCompress, .spCompress, .ovCompress]) ∧
    (t.code = 6 → i ≠ .bfExtract ∧ i ≠ .bfInsert)

/-- R25, R27, R30, R65: no command writes an operand register, SEQ_IN, SEQ_IN_LEN or a capacity
register; nor does one touch the host's side. -/
def Obligations.CommandsKeepOperandsAndInput : Prop :=
  ∀ (i : Instr) (s t : State), exec i s = .next t →
    t.a0 = s.a0 ∧ t.a1 = s.a1 ∧ t.a2 = s.a2 ∧ t.a3 = s.a3 ∧ t.a4 = s.a4 ∧
    t.seqIn = s.seqIn ∧ t.seqInLen = s.seqInLen ∧ t.capN = s.capN ∧ t.capPbuf = s.capPbuf ∧
    t.pending = s.pending ∧ t.readData = s.readData ∧ t.noValueRead = s.noValueRead

/-- R26, R28, R29, R33, R34, R65, the "writes" column of R72: which commands may change PBUF,
PBUF_LEN, SEQ_OUT, SEQ_OUT_LEN, RES0 and RES1. The clause on SCRATCH is the model's choice
(notes/assumptions/11.md): R216 and 93_implementation_defined.md U3 leave SCRATCH open. -/
def Obligations.OnlyNamedCommandsWrite : Prop :=
  ∀ (i : Instr) (s t : State), exec i s = .next t →
    (i ∉ [Instr.fieldWrite, .gammaEnc, .nsCompress, .spCompress, .ovCompress] → t.pbuf = s.pbuf) ∧
    (i ∉ [Instr.nsCompress, .spCompress, .ovCompress] → t.pbufLen = s.pbufLen) ∧
    (i ∉ [Instr.nsDecompress, .spDecompress, .ovDecompress] →
      t.seqOut = s.seqOut ∧ t.seqOutLen = s.seqOutLen) ∧
    (i ≠ .ovCompress → t.scratch = s.scratch) ∧
    (i = .fieldWrite → t.res0 = s.res0) ∧
    (i ∉ [Instr.gammaEnc, .gammaDec, .wselUniform, .wselOverflow, .nsCompress, .spCompress,
      .ovCompress] → t.res1 = s.res1)

/-- In this model a command is refused for nothing but a memory word that holds no value, and that
word is one the command reads: an element of the Sequence, below SEQ_IN_LEN, or a word of the buffer
(`ReadsPbuf`), below PBUF_LEN (R243, decision D23). R37 refuses also a command that reads an operand
register that holds no value: that such a command is not stopped, but marks the run, is the model's
choice (notes/assumptions/5.md), and so is which words a command has read when it stops
(notes/assumptions/8.md). -/
def Obligations.OnlyUnwrittenWordsStopACommand : Prop :=
  ∀ (i : Instr) (s : State) (r : Refusal), exec i s = .refused r →
    (∃ k, r = .noValue .seqIn k ∧ ReadsSeqIn i ∧ k < s.seqInLen.toNat ∧ ¬ s.seqIn.has k) ∨
    (∃ k, r = .noValue .pbuf k ∧ ReadsPbuf s k i ∧ k < s.pbufLen.toNat ∧ ¬ s.pbuf.has k)

/-! ## The bit-range primitives and the cross-word field -/

/-- R104, with R100: BF_EXTRACT. -/
def Obligations.BfExtractReturnsTheRange : Prop :=
  encode .bfExtract = 0x00000001 ∧
  ∀ s : State,
    (0 ≤ s.a1.toInt → s.a1.toInt ≤ s.a2.toInt → s.a2.toInt ≤ 31 →
      ∃ v : Word, exec .bfExtract s = .next
          { s with res0 := v, noValue := s.noValue.filter (· ≠ .res0), code := 0 } ∧
        ∀ j : Nat, j < 32 → v.getLsbD j =
          (decide (s.a1.toInt + j ≤ s.a2.toInt) && s.a0.getLsbD (s.a1.toInt.toNat + j))) ∧
    (s.a1.toInt < 0 ∨ 31 < s.a2.toInt ∨ s.a2.toInt < s.a1.toInt →
      exec .bfExtract s = .next { s with code := 1, faulted := true })

/-- R105, with R101: BF_INSERT. -/
def Obligations.BfInsertReplacesTheRange : Prop :=
  encode .bfInsert = 0x00000002 ∧
  ∀ s : State, ∀ dl sl sh : Int, dl = s.a1.toInt → sl = s.a3.toInt → sh = s.a4.toInt →
    (0 ≤ sl → sl ≤ sh → sh ≤ 31 → 0 ≤ dl → dl + (sh - sl) ≤ 31 →
      ∃ v : Word, exec .bfInsert s = .next
          { s with res0 := v, noValue := s.noValue.filter (· ≠ .res0), code := 0 } ∧
        ∀ j : Nat, j < 32 → v.getLsbD j =
          if dl ≤ j ∧ j ≤ dl + (sh - sl) then s.a2.getLsbD (sl.toNat + (j - dl.toNat))
          else s.a0.getLsbD j) ∧
    (sl < 0 ∨ 31 < sh ∨ sh < sl ∨ dl < 0 ∨ 31 < dl + (sh - sl) →
      exec .bfInsert s = .next { s with code := 1, faulted := true })

/-- R108(a), (b), on the commands: the bits BF_INSERT puts in, BF_EXTRACT takes out, and outside them
the destination stays. -/
def Obligations.ExtractAfterInsert : Prop :=
  ∀ s : State, 0 ≤ s.a3.toInt → s.a3.toInt ≤ s.a4.toInt → s.a4.toInt ≤ 31 → 0 ≤ s.a1.toInt →
    s.a1.toInt + (s.a4.toInt - s.a3.toInt) ≤ 31 →
    ∃ t u v, exec .bfInsert s = .next t ∧
      exec .bfExtract { t with a0 := t.res0, a2 := s.a1 + (s.a4 - s.a3) } = .next u ∧
      exec .bfExtract { s with a0 := s.a2, a1 := s.a3, a2 := s.a4 } = .next v ∧
      u.code = 0 ∧ v.code = 0 ∧ u.res0 = v.res0 ∧
      ∀ j : Nat, (j : Int) < s.a1.toInt ∨ s.a1.toInt + (s.a4.toInt - s.a3.toInt) < j →
        t.res0.getLsbD j = s.a0.getLsbD j

/-- R106, with R102: FIELD_READ. The last clause is R37: a touched word that holds no value stops
it. -/
def Obligations.FieldReadReturnsTheField : Prop :=
  encode .fieldRead = 0x00000003 ∧
  ∀ s : State, ∀ p n : Int, p = s.a0.toInt → n = s.a1.toInt →
    (s.capPbuf.toNat < s.pbufLen.toNat → exec .fieldRead s = .next { s with code := 6 }) ∧
    (s.pbufLen.toNat ≤ s.capPbuf.toNat → p < 0 ∨ n < 1 ∨ 32 < n →
      exec .fieldRead s = .next { s with code := 1, faulted := true }) ∧
    (s.pbufLen.toNat ≤ s.capPbuf.toNat → 0 ≤ p → 1 ≤ n → n ≤ 32 → 32 * s.pbufLen.toNat < p + n →
      exec .fieldRead s = .next { s with code := 4, faulted := true }) ∧
    (s.pbufLen.toNat ≤ s.capPbuf.toNat → 0 ≤ p → 1 ≤ n → n ≤ 32 → p + n ≤ 32 * s.pbufLen.toNat →
      ((∀ q : Nat, p ≤ q → (q : Int) < p + n → s.pbuf.has (q / 32)) →
        exec .fieldRead s = .next { s with
          res0 := BitVec.ofNat 32 (s.pbuf.field p.toNat n.toNat)
          noValue := s.noValue.filter (· ≠ .res0)
          code := 0 }) ∧
      ((∃ q : Nat, p ≤ q ∧ (q : Int) < p + n ∧ ¬ s.pbuf.has (q / 32)) →
        ∃ k, exec .fieldRead s = .refused (.noValue .pbuf k)))

/-- R107, with R103: FIELD_WRITE. Only stream positions p .. p+n-1 change, so every word the field
does not touch reads as before. -/
def Obligations.FieldWriteChangesOnlyTheField : Prop :=
  encode .fieldWrite = 0x00000004 ∧
  ∀ s : State, ∀ p n : Int, p = s.a0.toInt → n = s.a1.toInt →
    (s.capPbuf.toNat < s.pbufLen.toNat → exec .fieldWrite s = .next { s with code := 6 }) ∧
    (s.pbufLen.toNat ≤ s.capPbuf.toNat → p < 0 ∨ n < 1 ∨ 32 < n →
      exec .fieldWrite s = .next { s with code := 1, faulted := true }) ∧
    (s.pbufLen.toNat ≤ s.capPbuf.toNat → 0 ≤ p → 1 ≤ n → n ≤ 32 → 32 * s.pbufLen.toNat < p + n →
      exec .fieldWrite s = .next { s with code := 4, faulted := true }) ∧
    (s.pbufLen.toNat ≤ s.capPbuf.toNat → 0 ≤ p → 1 ≤ n → n ≤ 32 → p + n ≤ 32 * s.pbufLen.toNat →
      ((∀ q : Nat, p ≤ q → (q : Int) < p + n → s.pbuf.has (q / 32)) →
        ∃ m : Memory, exec .fieldWrite s = .next { s with pbuf := m, code := 0 } ∧
          (∀ q : Nat, m.bit q =
            if p ≤ q ∧ (q : Int) < p + n then s.a2.getLsbD (q - p.toNat) else s.pbuf.bit q) ∧
          (∀ i, i ≠ p.toNat / 32 → i ≠ (p.toNat + n.toNat - 1) / 32 →
            m.read i = s.pbuf.read i) ∧
          ∀ i, m.has i ↔ s.pbuf.has i) ∧
      ((∃ q : Nat, p ≤ q ∧ (q : Int) < p + n ∧ ¬ s.pbuf.has (q / 32)) →
        ∃ k, exec .fieldWrite s = .refused (.noValue .pbuf k)))

/-- R108(c), (d), on the commands: after FIELD_WRITE, FIELD_READ of the same field gives the low n
bits of the value. -/
def Obligations.FieldReadAfterFieldWrite : Prop :=
  ∀ s : State, BufferReady s → 0 ≤ s.a0.toInt → 1 ≤ s.a1.toInt → s.a1.toInt ≤ 32 →
    s.a0.toInt + s.a1.toInt ≤ 32 * s.pbufLen.toNat →
    ∃ t u, exec .fieldWrite s = .next t ∧ exec .fieldRead t = .next u ∧ u.code = 0 ∧
      u.res0.toNat = s.a2.toNat % 2 ^ s.a1.toInt.toNat

/-! ## The Gamma coder -/

/-- R123, with R120 and R121: GAMMA_ENC. -/
def Obligations.GammaEncWritesTheCode : Prop :=
  encode .gammaEnc = 0x00000005 ∧
  ∀ s : State, ∀ n p : Int, n = s.a0.toInt → p = s.a1.toInt →
    (s.capPbuf.toNat < s.pbufLen.toNat → exec .gammaEnc s = .next { s with code := 6 }) ∧
    (s.pbufLen.toNat ≤ s.capPbuf.toNat → n ≤ 0 →
      exec .gammaEnc s = .next { s with code := 4, faulted := true }) ∧
    (s.pbufLen.toNat ≤ s.capPbuf.toNat → 0 < n → p < 0 →
      exec .gammaEnc s = .next { s with code := 1, faulted := true }) ∧
    ∀ k : Nat, 2 ^ k ≤ n.toNat → n.toNat < 2 ^ (k + 1) → s.pbufLen.toNat ≤ s.capPbuf.toNat →
      0 < n → 0 ≤ p →
      (32 * s.pbufLen.toNat < p + (2 * k + 1) →
        exec .gammaEnc s = .next { s with code := 4, faulted := true }) ∧
      (p + (2 * k + 1) ≤ 32 * s.pbufLen.toNat →
        ((∀ q : Nat, p ≤ q → (q : Int) < p + (2 * k + 1) → s.pbuf.has (q / 32)) →
          ∃ m : Memory, exec .gammaEnc s = .next { s with
              pbuf := m
              res0 := BitVec.ofNat 32 (p.toNat + (2 * k + 1))
              res1 := BitVec.ofNat 32 (2 * k + 1)
              noValue := (s.noValue.filter (· ≠ .res0)).filter (· ≠ .res1)
              code := 0 } ∧
            GammaCodeAt m p.toNat k n.toNat ∧
            (∀ q : Nat, (q : Int) < p ∨ p + (2 * k + 1) ≤ q → m.bit q = s.pbuf.bit q) ∧
            ∀ i, m.has i ↔ s.pbuf.has i) ∧
        ((∃ q : Nat, p ≤ q ∧ (q : Int) < p + (2 * k + 1) ∧ ¬ s.pbuf.has (q / 32)) →
          ∃ i, exec .gammaEnc s = .refused (.noValue .pbuf i)))

/-- R124, with R120 and R122, where a code stands: GAMMA_DEC returns its number and the next
position. The last clause is R37: a position it reads, in a word that holds no value, stops it. -/
def Obligations.GammaDecReturnsTheNumber : Prop :=
  encode .gammaDec = 0x00000006 ∧
  ∀ (s : State) (p : Nat), s.a0.toInt = p → s.pbufLen.toNat ≤ s.capPbuf.toNat →
    (∀ k n : Nat, k ≤ 31 → p + (2 * k + 1) ≤ 32 * s.pbufLen.toNat →
      (∀ q, p ≤ q → q < p + (2 * k + 1) → s.pbuf.has (q / 32)) → GammaCodeAt s.pbuf p k n →
      exec .gammaDec s = .next { s with
        res0 := BitVec.ofNat 32 n
        res1 := BitVec.ofNat 32 (p + (2 * k + 1))
        noValue := (s.noValue.filter (· ≠ .res0)).filter (· ≠ .res1)
        code := 0 }) ∧
    ((∃ q, GammaReads s.pbuf p (32 * s.pbufLen.toNat) q ∧ ¬ s.pbuf.has (q / 32)) →
      ∃ k, exec .gammaDec s = .refused (.noValue .pbuf k))

/-- R124, R122, where no code stands: a buffer above capacity, a negative position, no 1 bit before
the end, more than 31 zeros, or a code running past the end. -/
def Obligations.GammaDecErrors : Prop :=
  ∀ (s : State) (p : Int), p = s.a0.toInt →
    (s.capPbuf.toNat < s.pbufLen.toNat → exec .gammaDec s = .next { s with code := 6 }) ∧
    (s.pbufLen.toNat ≤ s.capPbuf.toNat → p < 0 →
      exec .gammaDec s = .next { s with code := 1, faulted := true }) ∧
    (s.pbufLen.toNat ≤ s.capPbuf.toNat → 0 ≤ p →
      ((∀ q : Nat, p ≤ q → q < 32 * s.pbufLen.toNat → s.pbuf.has (q / 32) ∧ s.pbuf.bit q = false) ∨
        ∃ k : Nat, p + k < 32 * s.pbufLen.toNat ∧
          (31 < k ∨ 32 * s.pbufLen.toNat < p + (2 * k + 1)) ∧
          (∀ q : Nat, p ≤ q → (q : Int) < p + k → s.pbuf.bit q = false) ∧
          s.pbuf.bit (p.toNat + k) = true ∧
          ∀ q : Nat, p ≤ q → (q : Int) ≤ p + k → s.pbuf.has (q / 32)) →
      exec .gammaDec s = .next { s with code := 4, faulted := true })

/-- R125, on the commands: what GAMMA_ENC writes, GAMMA_DEC reads back, with the same next
position. -/
def Obligations.GammaDecAfterGammaEnc : Prop :=
  ∀ (s : State) (k : Nat), BufferReady s → 0 < s.a0.toInt → 0 ≤ s.a1.toInt →
    2 ^ k ≤ s.a0.toNat → s.a0.toNat < 2 ^ (k + 1) →
    s.a1.toInt + (2 * k + 1) ≤ 32 * s.pbufLen.toNat →
    ∃ t u, exec .gammaEnc s = .next t ∧ exec .gammaDec { t with a0 := s.a1 } = .next u ∧
      u.code = 0 ∧ u.res0 = s.a0 ∧ u.res1 = t.res0

/-! ## The width selectors -/

/-- R135, with R130: WSEL_UNIFORM on an admitted Sequence. -/
def Obligations.WselUniformReturnsTheLeastWidth : Prop :=
  encode .wselUniform = 0x00000007 ∧
  ∀ (s : State) (A : List Word), Input s A →
    ∃ w : Nat, IsUniformWidth A w ∧ w ≤ 31 ∧
      exec .wselUniform s = .next { s with
        res0 := BitVec.ofNat 32 w
        res1 := 0
        noValue := (s.noValue.filter (· ≠ .res0)).filter (· ≠ .res1)
        code := 0 }

/-- R136, with R131 to R134: WSEL_OVERFLOW on an admitted Sequence. -/
def Obligations.WselOverflowReturnsTheCheapestWidth : Prop :=
  encode .wselOverflow = 0x00000008 ∧
  ∀ (s : State) (A : List Word), Input s A →
    ∃ w : Nat, IsOverflowWidth A w ∧
      exec .wselOverflow s = .next { s with
        res0 := BitVec.ofNat 32 w
        res1 := BitVec.ofNat 32 (outlierCount A w)
        noValue := (s.noValue.filter (· ≠ .res0)).filter (· ≠ .res1)
        code := 0 }

/-- R137(a) to (d), of the machine's selectors and of the commands that answer with them: the uniform
width is an eligible candidate with no overflow, the selected one is eligible and not above it, costs
no more, and comes with the number of elements whose bit-width exceeds it; the cost is at most n + 1
words. -/
def Obligations.OverflowChoiceIsBounded : Prop :=
  ∀ (A : List Word) (w oc W : Nat), Admitted A → overflowSelect A = (w, oc) → W = uniformWidth A →
    (1 ≤ W ∧ W ≤ 31 ∧ overflowCount A W = 0) ∧
    (1 ≤ w ∧ w ≤ W ∧ oc ≤ 2 ^ w) ∧
    (∀ v, W < v → v ≤ 31 → overflowCount A v = 0 ∧ cost A W ≤ cost A v) ∧
    (cost A w ≤ cost A W ∧ cost A W = (A.length * (W + 1) + 11 + 31) / 32 * 32 ∧
      cost A W ≤ 32 * (A.length + 1)) ∧
    oc = A.countP (fun a => decide (w < bitWidth a.toNat)) ∧
    ∀ s, Input s A → ∃ t u, exec .wselUniform s = .next t ∧ exec .wselOverflow s = .next u ∧
      t.res0.toNat = W ∧ u.res0.toNat = w ∧ u.res1.toNat = oc

/-- R12, R68, R135, R136, R145, R165, R185: the errors of the five commands that read SEQ_IN. A
length above N_MAX is CAPACITY_EXCEEDED (6); an element with bit 31 set is UNSUPPORTED_VALUE (5); an
element that holds no value stops the command (R37; that it does so before another element is found
out of the domain is the model's reading, notes/assumptions/8.md). -/
def Obligations.SequenceCommandErrors : Prop :=
  ∀ i ∈ [Instr.wselUniform, .wselOverflow, .nsCompress, .spCompress, .ovCompress], ∀ s : State,
    (s.capN.toNat < s.seqInLen.toNat → exec i s = .next { s with code := 6 }) ∧
    (s.seqInLen.toNat ≤ s.capN.toNat →
      (∀ A, HoldsSequence s A → ¬ Admitted A → exec i s = .next { s with code := 5 }) ∧
      ((∃ k, k < s.seqInLen.toNat ∧ ¬ s.seqIn.has k) →
        ∃ k, exec i s = .refused (.noValue .seqIn k)))

/-- R219, R145, R165, R185: compressing the empty Sequence gives an empty buffer and no Header: PBUF
is untouched. -/
def Obligations.EmptyInputCompressesToTheEmptyBuffer : Prop :=
  ∀ i ∈ [Instr.nsCompress, .spCompress, .ovCompress], ∀ s : State, s.seqInLen = 0 →
    exec i s = .next { s with
      pbufLen := 0
      res0 := 0
      res1 := 0
      noValue := (s.noValue.filter (· ≠ .res0)).filter (· ≠ .res1)
      code := 0 }

/-- R219, R147, R148, R166, R167, R188, R189: decoding the empty buffer gives the empty Sequence, and
every get of it is INDEX_OUT_OF_RANGE (2). -/
def Obligations.EmptyBufferDecodesToTheEmptySequence : Prop :=
  ∀ s : State, s.pbufLen = 0 →
    (∀ i ∈ [Instr.nsDecompress, .spDecompress, .ovDecompress], exec i s = .next { s with
      seqOutLen := 0
      res0 := 0
      noValue := s.noValue.filter (· ≠ .res0)
      code := 0 }) ∧
    ∀ i ∈ [Instr.nsGet, .spGet, .ovGet], exec i s = .next { s with code := 2 }

/-! ## The non-spanning codec -/

/-- R145, with R140 to R144 and R66: NS_COMPRESS of a non-empty admitted Sequence. -/
def Obligations.NsCompressLaysOutTheBuffer : Prop :=
  encode .nsCompress = 0x00000009 ∧
  ∀ (s : State) (A : List Word), Config.Admissible s.capN s.capPbuf → Input s A → A ≠ [] →
    ∃ (m : Memory) (w cpw h words : Nat), IsUniformWidth A w ∧ cpw = 32 / w ∧ h = (10 + w - 1) / w ∧
      words = (A.length + h + cpw - 1) / cpw ∧ words ≤ A.length + 1 ∧
      exec .nsCompress s = .next { s with
        pbuf := m
        pbufLen := BitVec.ofNat 32 words
        res0 := BitVec.ofNat 32 words
        res1 := BitVec.ofNat 32 w
        noValue := (s.noValue.filter (· ≠ .res0)).filter (· ≠ .res1)
        code := 0 } ∧
      m.field 0 5 = w ∧ m.field 5 5 + h + A.length = words * cpw ∧
      (∀ (i : Nat) (a : Word), A[i]? = some a →
        m.field (32 * ((h + i) / cpw) + (h + i) % cpw * w) w = a.toNat) ∧
      (∀ q, 10 ≤ q → q < 32 * words →
        (∀ i, i < A.length → ¬ (32 * ((h + i) / cpw) + (h + i) % cpw * w ≤ q ∧
          q < 32 * ((h + i) / cpw) + (h + i) % cpw * w + w)) → m.bit q = false) ∧
      (∀ i, i < words → m.has i) ∧ ∀ i, words ≤ i → m.read i = s.pbuf.read i

/-- R147, with R146: NS_DECOMPRESS of a buffer whose words all hold values, and R37: word 0, or a word
of an element, that holds no value stops it. -/
def Obligations.NsDecompressReadsEveryElement : Prop :=
  encode .nsDecompress = 0x0000000A ∧
  (∀ s : State, s.pbufLen ≠ 0 → s.pbufLen.toNat ≤ s.capPbuf.toNat →
    (¬ s.pbuf.has 0 → exec .nsDecompress s = .refused (.noValue .pbuf 0)) ∧
    ∀ w L j k, NsGoodHeader s w L → L ≤ s.capN.toNat → j < L → NsElementWord w j k →
      ¬ s.pbuf.has k → ∃ k, exec .nsDecompress s = .refused (.noValue .pbuf k)) ∧
  ∀ (s : State) (w pad cpw h : Nat), BufferReady s → s.pbufLen ≠ 0 → w = s.pbuf.field 0 5 →
    pad = s.pbuf.field 5 5 → cpw = 32 / w → h = (10 + w - 1) / w →
    (w = 0 ∨ s.pbufLen.toNat * cpw < h + pad →
      exec .nsDecompress s = .next { s with code := 3 }) ∧
    ∀ L : Nat, w ≠ 0 → L + h + pad = s.pbufLen.toNat * cpw →
      (s.capN.toNat < L → exec .nsDecompress s = .next { s with code := 6 }) ∧
      (L ≤ s.capN.toNat → ∃ m : Memory, exec .nsDecompress s = .next { s with
          seqOut := m
          seqOutLen := BitVec.ofNat 32 L
          res0 := BitVec.ofNat 32 L
          noValue := s.noValue.filter (· ≠ .res0)
          code := 0 } ∧
        (∀ i, i < L → m.read i = some (BitVec.ofNat 32
          (s.pbuf.field (32 * ((h + i) / cpw) + (h + i) % cpw * w) w))) ∧
        ∀ i, L ≤ i → m.read i = s.seqOut.read i)

/-- R148, with R146: NS_GET of a buffer whose words all hold values, and R37: word 0, or the word of
the element it answers, that holds no value stops it. -/
def Obligations.NsGetReadsOneElement : Prop :=
  encode .nsGet = 0x0000000B ∧
  (∀ s : State, s.pbufLen ≠ 0 → s.pbufLen.toNat ≤ s.capPbuf.toNat →
    (¬ s.pbuf.has 0 → exec .nsGet s = .refused (.noValue .pbuf 0)) ∧
    ∀ w L j k : Nat, NsGoodHeader s w L → j < L → s.a0.toInt = j → NsElementWord w j k →
      ¬ s.pbuf.has k → exec .nsGet s = .refused (.noValue .pbuf k)) ∧
  ∀ (s : State) (w pad cpw h : Nat), BufferReady s → s.pbufLen ≠ 0 → w = s.pbuf.field 0 5 →
    pad = s.pbuf.field 5 5 → cpw = 32 / w → h = (10 + w - 1) / w →
    (w = 0 ∨ s.pbufLen.toNat * cpw < h + pad → exec .nsGet s = .next { s with code := 3 }) ∧
    ∀ L : Nat, w ≠ 0 → L + h + pad = s.pbufLen.toNat * cpw →
      (s.a0.toInt < 0 ∨ (L : Int) ≤ s.a0.toInt → exec .nsGet s = .next { s with code := 2 }) ∧
      ∀ i : Nat, s.a0.toInt = i → i < L → exec .nsGet s = .next { s with
        res0 := BitVec.ofNat 32 (s.pbuf.field (32 * ((h + i) / cpw) + (h + i) % cpw * w) w)
        noValue := s.noValue.filter (· ≠ .res0)
        code := 0 }

/-- R149(a) to (d): NS_DECOMPRESS after NS_COMPRESS gives the Sequence back, NS_GET gives each
element, the width is the uniform width, and the buffer has room for the Header and the fields. -/
def Obligations.NonSpanningRoundTrip : Prop :=
  ∀ (s : State) (A : List Word), Config.Admissible s.capN s.capPbuf → Input s A →
    ∃ t u, exec .nsCompress s = .next t ∧ t.code = 0 ∧ exec .nsDecompress t = .next u ∧
      u.code = 0 ∧ u.seqOutLen = s.seqInLen ∧ (∀ i, i < A.length → u.seqOut.read i = A[i]?) ∧
      (∀ (i : Nat) (a : Word), A[i]? = some a → ∃ g,
        exec .nsGet { t with a0 := BitVec.ofNat 32 i } = .next g ∧ g.code = 0 ∧ g.res0 = a) ∧
      (A ≠ [] → IsUniformWidth A t.res1.toNat ∧
        A.length * t.res1.toNat + 10 ≤ 32 * t.pbufLen.toNat)

/-! ## The spanning codec -/

/-- R165, with R160 to R163 and R66: SP_COMPRESS of a non-empty admitted Sequence. -/
def Obligations.SpCompressLaysOutTheBuffer : Prop :=
  encode .spCompress = 0x0000000C ∧
  ∀ (s : State) (A : List Word), Config.Admissible s.capN s.capPbuf → Input s A → A ≠ [] →
    ∃ (m : Memory) (w words : Nat), IsUniformWidth A w ∧
      words = (10 + A.length * w + 31) / 32 ∧ words ≤ A.length + 1 ∧
      exec .spCompress s = .next { s with
        pbuf := m
        pbufLen := BitVec.ofNat 32 words
        res0 := BitVec.ofNat 32 words
        res1 := BitVec.ofNat 32 w
        noValue := (s.noValue.filter (· ≠ .res0)).filter (· ≠ .res1)
        code := 0 } ∧
      m.field 0 5 = w ∧ m.field 5 5 + 10 + A.length * w = 32 * words ∧
      (∀ (i : Nat) (a : Word), A[i]? = some a → m.field (10 + w * i) w = a.toNat) ∧
      (∀ q, 10 + A.length * w ≤ q → q < 32 * words → m.bit q = false) ∧
      (∀ i, i < words → m.has i) ∧ ∀ i, words ≤ i → m.read i = s.pbuf.read i

/-- R166, with R164: SP_DECOMPRESS of a buffer whose words all hold values, and R37: word 0, or a word
of an element, that holds no value stops it. -/
def Obligations.SpDecompressReadsEveryElement : Prop :=
  encode .spDecompress = 0x0000000D ∧
  (∀ s : State, s.pbufLen ≠ 0 → s.pbufLen.toNat ≤ s.capPbuf.toNat →
    (¬ s.pbuf.has 0 → exec .spDecompress s = .refused (.noValue .pbuf 0)) ∧
    ∀ w L j k, SpGoodHeader s w L → L ≤ s.capN.toNat → j < L → SpElementWord w j k →
      ¬ s.pbuf.has k → ∃ k, exec .spDecompress s = .refused (.noValue .pbuf k)) ∧
  ∀ (s : State) (w unused : Nat), BufferReady s → s.pbufLen ≠ 0 → w = s.pbuf.field 0 5 →
    unused = s.pbuf.field 5 5 →
    (w = 0 ∨ 32 * s.pbufLen.toNat < 10 + unused ∨
      (∀ L, 10 + unused + L * w ≠ 32 * s.pbufLen.toNat) →
      exec .spDecompress s = .next { s with code := 3 }) ∧
    ∀ L : Nat, w ≠ 0 → 10 + unused + L * w = 32 * s.pbufLen.toNat →
      (s.capN.toNat < L → exec .spDecompress s = .next { s with code := 6 }) ∧
      (L ≤ s.capN.toNat → ∃ m : Memory, exec .spDecompress s = .next { s with
          seqOut := m
          seqOutLen := BitVec.ofNat 32 L
          res0 := BitVec.ofNat 32 L
          noValue := s.noValue.filter (· ≠ .res0)
          code := 0 } ∧
        (∀ i, i < L → m.read i = some (BitVec.ofNat 32 (s.pbuf.field (10 + w * i) w))) ∧
        ∀ i, L ≤ i → m.read i = s.seqOut.read i)

/-- R167, with R164: SP_GET of a buffer whose words all hold values, and R37: word 0, or a word of the
element it answers, that holds no value stops it. -/
def Obligations.SpGetReadsOneElement : Prop :=
  encode .spGet = 0x0000000E ∧
  (∀ s : State, s.pbufLen ≠ 0 → s.pbufLen.toNat ≤ s.capPbuf.toNat →
    (¬ s.pbuf.has 0 → exec .spGet s = .refused (.noValue .pbuf 0)) ∧
    ∀ w L j k : Nat, SpGoodHeader s w L → j < L → s.a0.toInt = j → SpElementWord w j k →
      ¬ s.pbuf.has k → ∃ k, exec .spGet s = .refused (.noValue .pbuf k)) ∧
  ∀ (s : State) (w unused : Nat), BufferReady s → s.pbufLen ≠ 0 → w = s.pbuf.field 0 5 →
    unused = s.pbuf.field 5 5 →
    (w = 0 ∨ 32 * s.pbufLen.toNat < 10 + unused ∨
      (∀ L, 10 + unused + L * w ≠ 32 * s.pbufLen.toNat) →
      exec .spGet s = .next { s with code := 3 }) ∧
    ∀ L : Nat, w ≠ 0 → 10 + unused + L * w = 32 * s.pbufLen.toNat →
      (s.a0.toInt < 0 ∨ (L : Int) ≤ s.a0.toInt → exec .spGet s = .next { s with code := 2 }) ∧
      ∀ i : Nat, s.a0.toInt = i → i < L → exec .spGet s = .next { s with
        res0 := BitVec.ofNat 32 (s.pbuf.field (10 + w * i) w)
        noValue := s.noValue.filter (· ≠ .res0)
        code := 0 }

/-- R168(a) to (d): the round trip, the indexed access, the width, and the least word count of the
spanning codec. -/
def Obligations.SpanningRoundTrip : Prop :=
  ∀ (s : State) (A : List Word), Config.Admissible s.capN s.capPbuf → Input s A →
    ∃ t u, exec .spCompress s = .next t ∧ t.code = 0 ∧ exec .spDecompress t = .next u ∧
      u.code = 0 ∧ u.seqOutLen = s.seqInLen ∧ (∀ i, i < A.length → u.seqOut.read i = A[i]?) ∧
      (∀ (i : Nat) (a : Word), A[i]? = some a → ∃ g,
        exec .spGet { t with a0 := BitVec.ofNat 32 i } = .next g ∧ g.code = 0 ∧ g.res0 = a) ∧
      (A ≠ [] → IsUniformWidth A t.res1.toNat ∧
        A.length * t.res1.toNat + 10 ≤ 32 * t.pbufLen.toNat ∧
        ∀ k, A.length * t.res1.toNat + 10 ≤ 32 * k → t.pbufLen.toNat ≤ k)

/-! ## The overflow codec -/

/-- R185, with R180 to R184 and R66: OV_COMPRESS of a non-empty admitted Sequence. The slot index of
an outlier is the number of outliers before it; slot j is word L - 1 - j. What SCRATCH holds after is
not stated (R35). -/
def Obligations.OvCompressLaysOutTheBuffer : Prop :=
  encode .ovCompress = 0x0000000F ∧
  ∀ (s : State) (A : List Word), Config.Admissible s.capN s.capPbuf → Input s A → A ≠ [] →
    ∃ (m sc : Memory) (w oc k E mainWords L : Nat), IsOverflowWidth A w ∧ oc = outlierCount A w ∧
      2 ^ k ≤ oc + 1 ∧ oc + 1 < 2 ^ (k + 1) ∧ E = 10 + (2 * k + 1) ∧
      mainWords = (E + A.length * (w + 1) + 31) / 32 ∧ L = mainWords + oc ∧
      32 * L = overflowSize A w ∧ L ≤ A.length + 1 ∧
      exec .ovCompress s = .next { s with
        pbuf := m
        pbufLen := BitVec.ofNat 32 L
        res0 := BitVec.ofNat 32 L
        res1 := BitVec.ofNat 32 w
        noValue := (s.noValue.filter (· ≠ .res0)).filter (· ≠ .res1)
        scratch := sc
        code := 0 } ∧
      m.field 0 5 = w ∧ m.field 5 5 + E + A.length * (w + 1) = 32 * mainWords ∧
      GammaCodeAt m 10 k (oc + 1) ∧
      (∀ (i : Nat) (a : Word), A[i]? = some a →
        (a.toNat < 2 ^ w → m.bit (E + i * (w + 1)) = false ∧
          m.field (E + i * (w + 1) + 1) w = a.toNat) ∧
        (2 ^ w ≤ a.toNat → m.bit (E + i * (w + 1)) = true ∧
          m.field (E + i * (w + 1) + 1) w = outlierCount (A.take i) w ∧
          outlierCount (A.take i) w < oc ∧
          m.read (L - 1 - outlierCount (A.take i) w) = some a)) ∧
      (∀ q, E + A.length * (w + 1) ≤ q → q < 32 * mainWords → m.bit q = false) ∧
      (∀ i, i < L → m.has i) ∧ ∀ i, L ≤ i → m.read i = s.pbuf.read i

/-- R186: which buffers the overflow decoders find malformed at the header. -/
def Obligations.OvMalformedHeaders : Prop :=
  ∀ i ∈ [Instr.ovDecompress, .ovGet], ∀ s : State, BufferReady s → s.pbufLen ≠ 0 →
    (s.pbuf.field 0 5 = 0 ∨
      (∀ k n, k ≤ 31 → 10 + (2 * k + 1) ≤ 32 * s.pbufLen.toNat → ¬ GammaCodeAt s.pbuf 10 k n) ∨
      ∃ k oc, k ≤ 31 ∧ 10 + (2 * k + 1) ≤ 32 * s.pbufLen.toNat ∧ GammaCodeAt s.pbuf 10 k (oc + 1) ∧
        (s.pbufLen.toNat ≤ oc ∨ ∀ n, s.pbuf.field 5 5 + (10 + (2 * k + 1)) +
          n * (s.pbuf.field 0 5 + 1) ≠ 32 * (s.pbufLen.toNat - oc))) →
    exec i s = .next { s with code := 3 }

/-- R188, with R186 and R187: OV_DECOMPRESS of a buffer with a good header whose words all hold
values, and R37: word 0, a word of the OverflowHeader, or a word of an element before which none is
malformed, that holds no value stops it. -/
def Obligations.OvDecompressReadsEveryElement : Prop :=
  encode .ovDecompress = 0x00000010 ∧
  (∀ s : State, s.pbufLen ≠ 0 → s.pbufLen.toNat ≤ s.capPbuf.toNat →
    (¬ s.pbuf.has 0 → exec .ovDecompress s = .refused (.noValue .pbuf 0)) ∧
    (∀ q, s.pbuf.field 0 5 ≠ 0 → GammaReads s.pbuf 10 (32 * s.pbufLen.toNat) q →
      ¬ s.pbuf.has (q / 32) → ∃ k, exec .ovDecompress s = .refused (.noValue .pbuf k)) ∧
    ∀ w oc E n j k, OvGoodHeader s w oc E n → n ≤ s.capN.toNat → j < n →
      (∀ i, i < j → s.pbuf.bit (E + i * (w + 1)) = true →
        s.pbuf.field (E + i * (w + 1) + 1) w < oc) →
      OvElementWord s w oc E j k → ¬ s.pbuf.has k →
      ∃ k, exec .ovDecompress s = .refused (.noValue .pbuf k)) ∧
  ∀ (s : State) (w oc E n : Nat), BufferReady s → OvGoodHeader s w oc E n →
    (s.capN.toNat < n → exec .ovDecompress s = .next { s with code := 6 }) ∧
    (n ≤ s.capN.toNat →
      (∃ i, i < n ∧ s.pbuf.bit (E + i * (w + 1)) = true ∧
        oc ≤ s.pbuf.field (E + i * (w + 1) + 1) w) →
      exec .ovDecompress s = .next { s with code := 3 }) ∧
    (n ≤ s.capN.toNat →
      (∀ i, i < n → s.pbuf.bit (E + i * (w + 1)) = true →
        s.pbuf.field (E + i * (w + 1) + 1) w < oc) →
      ∃ m : Memory, exec .ovDecompress s = .next { s with
          seqOut := m
          seqOutLen := BitVec.ofNat 32 n
          res0 := BitVec.ofNat 32 n
          noValue := s.noValue.filter (· ≠ .res0)
          code := 0 } ∧
        (∀ i, i < n → m.read i =
          if s.pbuf.bit (E + i * (w + 1)) = true then
            s.pbuf.read (s.pbufLen.toNat - 1 - s.pbuf.field (E + i * (w + 1) + 1) w)
          else some (BitVec.ofNat 32 (s.pbuf.field (E + i * (w + 1) + 1) w))) ∧
        ∀ i, n ≤ i → m.read i = s.seqOut.read i)

/-- R189, with R186 and R187: OV_GET of a buffer with a good header whose words all hold values (a
malformed slot elsewhere does not matter), and R37: word 0, a word of the OverflowHeader, or a word
of the element it answers, that holds no value stops it. -/
def Obligations.OvGetReadsOneElement : Prop :=
  encode .ovGet = 0x00000011 ∧
  (∀ s : State, s.pbufLen ≠ 0 → s.pbufLen.toNat ≤ s.capPbuf.toNat →
    (¬ s.pbuf.has 0 → exec .ovGet s = .refused (.noValue .pbuf 0)) ∧
    (∀ q, s.pbuf.field 0 5 ≠ 0 → GammaReads s.pbuf 10 (32 * s.pbufLen.toNat) q →
      ¬ s.pbuf.has (q / 32) → ∃ k, exec .ovGet s = .refused (.noValue .pbuf k)) ∧
    ∀ w oc E n j k : Nat, OvGoodHeader s w oc E n → j < n → s.a0.toInt = j →
      OvElementWord s w oc E j k → ¬ s.pbuf.has k →
      ∃ k, exec .ovGet s = .refused (.noValue .pbuf k)) ∧
  ∀ (s : State) (w oc E n : Nat), BufferReady s → OvGoodHeader s w oc E n →
    (s.a0.toInt < 0 ∨ (n : Int) ≤ s.a0.toInt → exec .ovGet s = .next { s with code := 2 }) ∧
    ∀ i : Nat, s.a0.toInt = i → i < n →
      (s.pbuf.bit (E + i * (w + 1)) = false → exec .ovGet s = .next { s with
        res0 := BitVec.ofNat 32 (s.pbuf.field (E + i * (w + 1) + 1) w)
        noValue := s.noValue.filter (· ≠ .res0)
        code := 0 }) ∧
      (s.pbuf.bit (E + i * (w + 1)) = true → oc ≤ s.pbuf.field (E + i * (w + 1) + 1) w →
        exec .ovGet s = .next { s with code := 3 }) ∧
      ∀ v, s.pbuf.bit (E + i * (w + 1)) = true → s.pbuf.field (E + i * (w + 1) + 1) w < oc →
        s.pbuf.read (s.pbufLen.toNat - 1 - s.pbuf.field (E + i * (w + 1) + 1) w) = some v →
        exec .ovGet s = .next { s with
          res0 := v
          noValue := s.noValue.filter (· ≠ .res0)
          code := 0 }

/-- R190(a) to (f): the round trip, the indexed access, overflow correctness, the size, the input
left alone, and slot indices that fit. -/
def Obligations.OverflowRoundTrip : Prop :=
  ∀ (s : State) (A : List Word), Config.Admissible s.capN s.capPbuf → Input s A →
    ∃ t u, exec .ovCompress s = .next t ∧ t.code = 0 ∧ exec .ovDecompress t = .next u ∧
      u.code = 0 ∧ u.seqOutLen = s.seqInLen ∧ (∀ i, i < A.length → u.seqOut.read i = A[i]?) ∧
      t.seqIn = s.seqIn ∧ u.seqIn = s.seqIn ∧
      (∀ (i : Nat) (a : Word), A[i]? = some a → ∃ g,
        exec .ovGet { t with a0 := BitVec.ofNat 32 i } = .next g ∧ g.code = 0 ∧ g.res0 = a) ∧
      (A ≠ [] → IsOverflowWidth A t.res1.toNat ∧
        32 * t.pbufLen.toNat = overflowSize A t.res1.toNat ∧
        outlierCount A t.res1.toNat ≤ 2 ^ t.res1.toNat ∧
        ∃ k, GammaCodeAt t.pbuf 10 k (outlierCount A t.res1.toNat + 1))

/-- R249, with 93_implementation_defined.md U7: the block keeps no record beyond the words, and words
at and above PBUF_LEN are not read. Two blocks alike in the operands, PBUF_LEN, the capacities and
the words of the buffer, whatever else they hold, decode alike: the same code, the same results, the
same decoded Sequence, and they are refused at the same word. -/
def Obligations.DecodersSeeOnlyTheWords : Prop :=
  ∀ i ∈ [Instr.fieldRead, .gammaDec, .nsGet, .spGet, .ovGet, .nsDecompress, .spDecompress,
    .ovDecompress], ∀ s s' : State, SameBuffer s s' →
    (∀ t, exec i s = .next t → ∃ t', exec i s' = .next t' ∧ t'.code = t.code ∧
      (s'.faulted = s.faulted → statusWord t' = statusWord t) ∧
      (t.code = 0 → t'.res0 = t.res0 ∧ (i = .gammaDec → t'.res1 = t.res1) ∧
        (i ∈ [Instr.nsDecompress, .spDecompress, .ovDecompress] →
          t'.seqOutLen = t.seqOutLen ∧
          ∀ k, k < t.seqOutLen.toNat → t'.seqOut.read k = t.seqOut.read k))) ∧
    ∀ r, exec i s = .refused r → exec i s' = .refused r

/-! ## What a run may rely on -/

/-- R215, last sentences: only reset clears FAULTED. The run's mark is the model's own
(notes/assumptions/5.md), and nothing clears it, reset included (notes/assumptions/14.md). So, short
of a reset, a step that ends in a good run began in one. -/
def Obligations.GoodRunsWereGoodBefore : Prop :=
  ∀ s t : State, step s = .next t →
    ((∀ rest, s.pending ≠ .reset :: rest) → t.faulted = false → s.faulted = false) ∧
    (t.noValueRead = false → s.noValueRead = false) ∧
    ((∀ rest, s.pending ≠ .reset :: rest) → GoodRun t → GoodRun s)

/-- R37 and notes/assumptions/5.md: the values the model lets A0 to A4, RES0 and RES1 stand at after
reset do not matter. Of two states that differ only in registers that hold no value, if the one's
step leaves the run unmarked, the other's step goes the same way, to a state that again differs
only so. -/
def Obligations.UnwrittenRegistersDoNotMatter : Prop :=
  ∀ s s' t : State, SameButNoValue s s' → step s = .next t → t.noValueRead = false →
    ∃ t', step s' = .next t' ∧ SameButNoValue t t'
end

