-- ==== Sys2Proof/Laws/Bits.lean ====
section
/-! SUPPORT. The bit ranges of a word, bit by bit, and the bit-width. -/

namespace Sys2Proof.Machine

open Sys2Proof

theorem bitsOf_testBit (x : Word) (lo n j : Nat) :
    (bitsOf x lo n).testBit j = (decide (j < n) && x.getLsbD (lo + j)) := by
  unfold bitsOf
  rw [Nat.testBit_mod_two_pow, Nat.testBit_div_two_pow, BitVec.getLsbD, Nat.add_comm]

theorem bitsOf_lt (x : Word) (lo n : Nat) : bitsOf x lo n < 2 ^ n :=
  Nat.mod_lt _ (by positivity)

/-- A number below `2^n`, from its bits. -/
theorem lt_two_pow_of_bits {v n : Nat} (h : ∀ j, n ≤ j → v.testBit j = false) : v < 2 ^ n :=
  Nat.lt_pow_two_of_testBit v h

theorem testBit_false_of_lt {v n j : Nat} (h : v < 2 ^ n) (hj : n ≤ j) : v.testBit j = false :=
  Nat.testBit_lt_two_pow (lt_of_lt_of_le h (Nat.pow_le_pow_right (by norm_num) hj))

theorem maskAt_getLsbD (lo n j : Nat) (hj : j < 32) :
    (maskAt lo n).getLsbD j = decide (lo ≤ j ∧ j < lo + n) := by
  unfold maskAt
  simp only [BitVec.getLsbD_ofNat, hj, decide_true, Bool.true_and, Nat.testBit_mul_two_pow]
  rw [Nat.testBit_two_pow_sub_one]
  by_cases h1 : lo ≤ j <;> by_cases h2 : j < lo + n <;> simp [h1, h2] <;> omega

/-- Which bit of a word a bit of `putBits` is: the target range takes the value's low bits, every
other bit stays. -/
theorem putBits_getLsbD (dest : Word) (lo n v j : Nat) (hj : j < 32) :
    (putBits dest lo n v).getLsbD j =
      if lo ≤ j ∧ j < lo + n then v.testBit (j - lo) else dest.getLsbD j := by
  unfold putBits
  simp only [BitVec.getLsbD_or, BitVec.getLsbD_and, BitVec.getLsbD_not, hj, decide_true,
    Bool.true_and, maskAt_getLsbD, BitVec.getLsbD_ofNat, Nat.testBit_mul_two_pow,
    Nat.testBit_mod_two_pow]
  by_cases h1 : lo ≤ j <;> by_cases h2 : j < lo + n <;> simp [h1, h2] <;>
    (try (intro hc; omega))

theorem ofNat_getLsbD (v j : Nat) (hj : j < 32) : (BitVec.ofNat 32 v).getLsbD j = v.testBit j := by
  rw [BitVec.getLsbD_ofNat]; simp [hj]

/-- The bit-width is at most `w` exactly when the value is below `2^w`. -/
theorem bitWidth_le_iff {v w : Nat} (hw : 1 ≤ w) : bitWidth v ≤ w ↔ v < 2 ^ w := by
  unfold bitWidth
  split
  · rename_i h; subst h; simp [hw]
  · rename_i h
    rw [Nat.succ_le_iff, Nat.log2_lt h]

theorem one_le_bitWidth (v : Nat) : 1 ≤ bitWidth v := by
  unfold bitWidth; split <;> omega

/-- A word has bit-width at most 31 exactly when bit 31 is clear. -/
theorem bitWidth_le_31_iff (a : Word) : bitWidth a.toNat ≤ 31 ↔ a.getLsbD 31 = false := by
  rw [bitWidth_le_iff (by norm_num)]
  constructor
  · intro h; exact Nat.testBit_lt_two_pow h
  · intro h
    refine lt_two_pow_of_bits fun j hj => ?_
    rcases Nat.eq_or_lt_of_le hj with rfl | hj
    · exact h
    · exact Nat.testBit_lt_two_pow (lt_of_lt_of_le a.isLt (Nat.pow_le_pow_right (by norm_num) hj))

theorem bitWidth_le_32 (a : Word) : bitWidth a.toNat ≤ 32 := by
  rw [bitWidth_le_iff (by norm_num)]; exact a.isLt

theorem log2_bounds {n : Nat} (h : n ≠ 0) : 2 ^ Nat.log2 n ≤ n ∧ n < 2 ^ (Nat.log2 n + 1) :=
  ⟨Nat.log2_self_le h, Nat.lt_log2_self⟩

end Sys2Proof.Machine
end

