-- ==== Sys2Proof/Laws/State.lean ====
section
/-! SUPPORT. The projections of every state update, one lemma a field, so that no later proof unfolds
a record update. -/

namespace Sys2Proof.Machine

open Sys2Proof

/-! s.setA0 v -/

@[simp] theorem State.setA0_code (s : State) (v : Word) :
    (s.setA0 v).code = s.code := rfl
@[simp] theorem State.setA0_faulted (s : State) (v : Word) :
    (s.setA0 v).faulted = s.faulted := rfl
@[simp] theorem State.setA0_a0 (s : State) (v : Word) :
    (s.setA0 v).a0 = v := rfl
@[simp] theorem State.setA0_a1 (s : State) (v : Word) :
    (s.setA0 v).a1 = s.a1 := rfl
@[simp] theorem State.setA0_a2 (s : State) (v : Word) :
    (s.setA0 v).a2 = s.a2 := rfl
@[simp] theorem State.setA0_a3 (s : State) (v : Word) :
    (s.setA0 v).a3 = s.a3 := rfl
@[simp] theorem State.setA0_a4 (s : State) (v : Word) :
    (s.setA0 v).a4 = s.a4 := rfl
@[simp] theorem State.setA0_res0 (s : State) (v : Word) :
    (s.setA0 v).res0 = s.res0 := rfl
@[simp] theorem State.setA0_res1 (s : State) (v : Word) :
    (s.setA0 v).res1 = s.res1 := rfl
@[simp] theorem State.setA0_seqInLen (s : State) (v : Word) :
    (s.setA0 v).seqInLen = s.seqInLen := rfl
@[simp] theorem State.setA0_pbufLen (s : State) (v : Word) :
    (s.setA0 v).pbufLen = s.pbufLen := rfl
@[simp] theorem State.setA0_seqOutLen (s : State) (v : Word) :
    (s.setA0 v).seqOutLen = s.seqOutLen := rfl
@[simp] theorem State.setA0_capN (s : State) (v : Word) :
    (s.setA0 v).capN = s.capN := rfl
@[simp] theorem State.setA0_capPbuf (s : State) (v : Word) :
    (s.setA0 v).capPbuf = s.capPbuf := rfl
@[simp] theorem State.setA0_seqIn (s : State) (v : Word) :
    (s.setA0 v).seqIn = s.seqIn := rfl
@[simp] theorem State.setA0_pbuf (s : State) (v : Word) :
    (s.setA0 v).pbuf = s.pbuf := rfl
@[simp] theorem State.setA0_seqOut (s : State) (v : Word) :
    (s.setA0 v).seqOut = s.seqOut := rfl
@[simp] theorem State.setA0_scratch (s : State) (v : Word) :
    (s.setA0 v).scratch = s.scratch := rfl
@[simp] theorem State.setA0_noValue (s : State) (v : Word) :
    (s.setA0 v).noValue = s.noValue.filter (· ≠ .a0) := rfl
@[simp] theorem State.setA0_noValueRead (s : State) (v : Word) :
    (s.setA0 v).noValueRead = s.noValueRead := rfl
@[simp] theorem State.setA0_readData (s : State) (v : Word) :
    (s.setA0 v).readData = s.readData := rfl
@[simp] theorem State.setA0_pending (s : State) (v : Word) :
    (s.setA0 v).pending = s.pending := rfl

/-! s.setA1 v -/

@[simp] theorem State.setA1_code (s : State) (v : Word) :
    (s.setA1 v).code = s.code := rfl
@[simp] theorem State.setA1_faulted (s : State) (v : Word) :
    (s.setA1 v).faulted = s.faulted := rfl
@[simp] theorem State.setA1_a0 (s : State) (v : Word) :
    (s.setA1 v).a0 = s.a0 := rfl
@[simp] theorem State.setA1_a1 (s : State) (v : Word) :
    (s.setA1 v).a1 = v := rfl
@[simp] theorem State.setA1_a2 (s : State) (v : Word) :
    (s.setA1 v).a2 = s.a2 := rfl
@[simp] theorem State.setA1_a3 (s : State) (v : Word) :
    (s.setA1 v).a3 = s.a3 := rfl
@[simp] theorem State.setA1_a4 (s : State) (v : Word) :
    (s.setA1 v).a4 = s.a4 := rfl
@[simp] theorem State.setA1_res0 (s : State) (v : Word) :
    (s.setA1 v).res0 = s.res0 := rfl
@[simp] theorem State.setA1_res1 (s : State) (v : Word) :
    (s.setA1 v).res1 = s.res1 := rfl
@[simp] theorem State.setA1_seqInLen (s : State) (v : Word) :
    (s.setA1 v).seqInLen = s.seqInLen := rfl
@[simp] theorem State.setA1_pbufLen (s : State) (v : Word) :
    (s.setA1 v).pbufLen = s.pbufLen := rfl
@[simp] theorem State.setA1_seqOutLen (s : State) (v : Word) :
    (s.setA1 v).seqOutLen = s.seqOutLen := rfl
@[simp] theorem State.setA1_capN (s : State) (v : Word) :
    (s.setA1 v).capN = s.capN := rfl
@[simp] theorem State.setA1_capPbuf (s : State) (v : Word) :
    (s.setA1 v).capPbuf = s.capPbuf := rfl
@[simp] theorem State.setA1_seqIn (s : State) (v : Word) :
    (s.setA1 v).seqIn = s.seqIn := rfl
@[simp] theorem State.setA1_pbuf (s : State) (v : Word) :
    (s.setA1 v).pbuf = s.pbuf := rfl
@[simp] theorem State.setA1_seqOut (s : State) (v : Word) :
    (s.setA1 v).seqOut = s.seqOut := rfl
@[simp] theorem State.setA1_scratch (s : State) (v : Word) :
    (s.setA1 v).scratch = s.scratch := rfl
@[simp] theorem State.setA1_noValue (s : State) (v : Word) :
    (s.setA1 v).noValue = s.noValue.filter (· ≠ .a1) := rfl
@[simp] theorem State.setA1_noValueRead (s : State) (v : Word) :
    (s.setA1 v).noValueRead = s.noValueRead := rfl
@[simp] theorem State.setA1_readData (s : State) (v : Word) :
    (s.setA1 v).readData = s.readData := rfl
@[simp] theorem State.setA1_pending (s : State) (v : Word) :
    (s.setA1 v).pending = s.pending := rfl

/-! s.setA2 v -/

@[simp] theorem State.setA2_code (s : State) (v : Word) :
    (s.setA2 v).code = s.code := rfl
@[simp] theorem State.setA2_faulted (s : State) (v : Word) :
    (s.setA2 v).faulted = s.faulted := rfl
@[simp] theorem State.setA2_a0 (s : State) (v : Word) :
    (s.setA2 v).a0 = s.a0 := rfl
@[simp] theorem State.setA2_a1 (s : State) (v : Word) :
    (s.setA2 v).a1 = s.a1 := rfl
@[simp] theorem State.setA2_a2 (s : State) (v : Word) :
    (s.setA2 v).a2 = v := rfl
@[simp] theorem State.setA2_a3 (s : State) (v : Word) :
    (s.setA2 v).a3 = s.a3 := rfl
@[simp] theorem State.setA2_a4 (s : State) (v : Word) :
    (s.setA2 v).a4 = s.a4 := rfl
@[simp] theorem State.setA2_res0 (s : State) (v : Word) :
    (s.setA2 v).res0 = s.res0 := rfl
@[simp] theorem State.setA2_res1 (s : State) (v : Word) :
    (s.setA2 v).res1 = s.res1 := rfl
@[simp] theorem State.setA2_seqInLen (s : State) (v : Word) :
    (s.setA2 v).seqInLen = s.seqInLen := rfl
@[simp] theorem State.setA2_pbufLen (s : State) (v : Word) :
    (s.setA2 v).pbufLen = s.pbufLen := rfl
@[simp] theorem State.setA2_seqOutLen (s : State) (v : Word) :
    (s.setA2 v).seqOutLen = s.seqOutLen := rfl
@[simp] theorem State.setA2_capN (s : State) (v : Word) :
    (s.setA2 v).capN = s.capN := rfl
@[simp] theorem State.setA2_capPbuf (s : State) (v : Word) :
    (s.setA2 v).capPbuf = s.capPbuf := rfl
@[simp] theorem State.setA2_seqIn (s : State) (v : Word) :
    (s.setA2 v).seqIn = s.seqIn := rfl
@[simp] theorem State.setA2_pbuf (s : State) (v : Word) :
    (s.setA2 v).pbuf = s.pbuf := rfl
@[simp] theorem State.setA2_seqOut (s : State) (v : Word) :
    (s.setA2 v).seqOut = s.seqOut := rfl
@[simp] theorem State.setA2_scratch (s : State) (v : Word) :
    (s.setA2 v).scratch = s.scratch := rfl
@[simp] theorem State.setA2_noValue (s : State) (v : Word) :
    (s.setA2 v).noValue = s.noValue.filter (· ≠ .a2) := rfl
@[simp] theorem State.setA2_noValueRead (s : State) (v : Word) :
    (s.setA2 v).noValueRead = s.noValueRead := rfl
@[simp] theorem State.setA2_readData (s : State) (v : Word) :
    (s.setA2 v).readData = s.readData := rfl
@[simp] theorem State.setA2_pending (s : State) (v : Word) :
    (s.setA2 v).pending = s.pending := rfl

/-! s.setA3 v -/

@[simp] theorem State.setA3_code (s : State) (v : Word) :
    (s.setA3 v).code = s.code := rfl
@[simp] theorem State.setA3_faulted (s : State) (v : Word) :
    (s.setA3 v).faulted = s.faulted := rfl
@[simp] theorem State.setA3_a0 (s : State) (v : Word) :
    (s.setA3 v).a0 = s.a0 := rfl
@[simp] theorem State.setA3_a1 (s : State) (v : Word) :
    (s.setA3 v).a1 = s.a1 := rfl
@[simp] theorem State.setA3_a2 (s : State) (v : Word) :
    (s.setA3 v).a2 = s.a2 := rfl
@[simp] theorem State.setA3_a3 (s : State) (v : Word) :
    (s.setA3 v).a3 = v := rfl
@[simp] theorem State.setA3_a4 (s : State) (v : Word) :
    (s.setA3 v).a4 = s.a4 := rfl
@[simp] theorem State.setA3_res0 (s : State) (v : Word) :
    (s.setA3 v).res0 = s.res0 := rfl
@[simp] theorem State.setA3_res1 (s : State) (v : Word) :
    (s.setA3 v).res1 = s.res1 := rfl
@[simp] theorem State.setA3_seqInLen (s : State) (v : Word) :
    (s.setA3 v).seqInLen = s.seqInLen := rfl
@[simp] theorem State.setA3_pbufLen (s : State) (v : Word) :
    (s.setA3 v).pbufLen = s.pbufLen := rfl
@[simp] theorem State.setA3_seqOutLen (s : State) (v : Word) :
    (s.setA3 v).seqOutLen = s.seqOutLen := rfl
@[simp] theorem State.setA3_capN (s : State) (v : Word) :
    (s.setA3 v).capN = s.capN := rfl
@[simp] theorem State.setA3_capPbuf (s : State) (v : Word) :
    (s.setA3 v).capPbuf = s.capPbuf := rfl
@[simp] theorem State.setA3_seqIn (s : State) (v : Word) :
    (s.setA3 v).seqIn = s.seqIn := rfl
@[simp] theorem State.setA3_pbuf (s : State) (v : Word) :
    (s.setA3 v).pbuf = s.pbuf := rfl
@[simp] theorem State.setA3_seqOut (s : State) (v : Word) :
    (s.setA3 v).seqOut = s.seqOut := rfl
@[simp] theorem State.setA3_scratch (s : State) (v : Word) :
    (s.setA3 v).scratch = s.scratch := rfl
@[simp] theorem State.setA3_noValue (s : State) (v : Word) :
    (s.setA3 v).noValue = s.noValue.filter (· ≠ .a3) := rfl
@[simp] theorem State.setA3_noValueRead (s : State) (v : Word) :
    (s.setA3 v).noValueRead = s.noValueRead := rfl
@[simp] theorem State.setA3_readData (s : State) (v : Word) :
    (s.setA3 v).readData = s.readData := rfl
@[simp] theorem State.setA3_pending (s : State) (v : Word) :
    (s.setA3 v).pending = s.pending := rfl

/-! s.setA4 v -/

@[simp] theorem State.setA4_code (s : State) (v : Word) :
    (s.setA4 v).code = s.code := rfl
@[simp] theorem State.setA4_faulted (s : State) (v : Word) :
    (s.setA4 v).faulted = s.faulted := rfl
@[simp] theorem State.setA4_a0 (s : State) (v : Word) :
    (s.setA4 v).a0 = s.a0 := rfl
@[simp] theorem State.setA4_a1 (s : State) (v : Word) :
    (s.setA4 v).a1 = s.a1 := rfl
@[simp] theorem State.setA4_a2 (s : State) (v : Word) :
    (s.setA4 v).a2 = s.a2 := rfl
@[simp] theorem State.setA4_a3 (s : State) (v : Word) :
    (s.setA4 v).a3 = s.a3 := rfl
@[simp] theorem State.setA4_a4 (s : State) (v : Word) :
    (s.setA4 v).a4 = v := rfl
@[simp] theorem State.setA4_res0 (s : State) (v : Word) :
    (s.setA4 v).res0 = s.res0 := rfl
@[simp] theorem State.setA4_res1 (s : State) (v : Word) :
    (s.setA4 v).res1 = s.res1 := rfl
@[simp] theorem State.setA4_seqInLen (s : State) (v : Word) :
    (s.setA4 v).seqInLen = s.seqInLen := rfl
@[simp] theorem State.setA4_pbufLen (s : State) (v : Word) :
    (s.setA4 v).pbufLen = s.pbufLen := rfl
@[simp] theorem State.setA4_seqOutLen (s : State) (v : Word) :
    (s.setA4 v).seqOutLen = s.seqOutLen := rfl
@[simp] theorem State.setA4_capN (s : State) (v : Word) :
    (s.setA4 v).capN = s.capN := rfl
@[simp] theorem State.setA4_capPbuf (s : State) (v : Word) :
    (s.setA4 v).capPbuf = s.capPbuf := rfl
@[simp] theorem State.setA4_seqIn (s : State) (v : Word) :
    (s.setA4 v).seqIn = s.seqIn := rfl
@[simp] theorem State.setA4_pbuf (s : State) (v : Word) :
    (s.setA4 v).pbuf = s.pbuf := rfl
@[simp] theorem State.setA4_seqOut (s : State) (v : Word) :
    (s.setA4 v).seqOut = s.seqOut := rfl
@[simp] theorem State.setA4_scratch (s : State) (v : Word) :
    (s.setA4 v).scratch = s.scratch := rfl
@[simp] theorem State.setA4_noValue (s : State) (v : Word) :
    (s.setA4 v).noValue = s.noValue.filter (· ≠ .a4) := rfl
@[simp] theorem State.setA4_noValueRead (s : State) (v : Word) :
    (s.setA4 v).noValueRead = s.noValueRead := rfl
@[simp] theorem State.setA4_readData (s : State) (v : Word) :
    (s.setA4 v).readData = s.readData := rfl
@[simp] theorem State.setA4_pending (s : State) (v : Word) :
    (s.setA4 v).pending = s.pending := rfl

/-! s.setRes0 v -/

@[simp] theorem State.setRes0_code (s : State) (v : Word) :
    (s.setRes0 v).code = s.code := rfl
@[simp] theorem State.setRes0_faulted (s : State) (v : Word) :
    (s.setRes0 v).faulted = s.faulted := rfl
@[simp] theorem State.setRes0_a0 (s : State) (v : Word) :
    (s.setRes0 v).a0 = s.a0 := rfl
@[simp] theorem State.setRes0_a1 (s : State) (v : Word) :
    (s.setRes0 v).a1 = s.a1 := rfl
@[simp] theorem State.setRes0_a2 (s : State) (v : Word) :
    (s.setRes0 v).a2 = s.a2 := rfl
@[simp] theorem State.setRes0_a3 (s : State) (v : Word) :
    (s.setRes0 v).a3 = s.a3 := rfl
@[simp] theorem State.setRes0_a4 (s : State) (v : Word) :
    (s.setRes0 v).a4 = s.a4 := rfl
@[simp] theorem State.setRes0_res0 (s : State) (v : Word) :
    (s.setRes0 v).res0 = v := rfl
@[simp] theorem State.setRes0_res1 (s : State) (v : Word) :
    (s.setRes0 v).res1 = s.res1 := rfl
@[simp] theorem State.setRes0_seqInLen (s : State) (v : Word) :
    (s.setRes0 v).seqInLen = s.seqInLen := rfl
@[simp] theorem State.setRes0_pbufLen (s : State) (v : Word) :
    (s.setRes0 v).pbufLen = s.pbufLen := rfl
@[simp] theorem State.setRes0_seqOutLen (s : State) (v : Word) :
    (s.setRes0 v).seqOutLen = s.seqOutLen := rfl
@[simp] theorem State.setRes0_capN (s : State) (v : Word) :
    (s.setRes0 v).capN = s.capN := rfl
@[simp] theorem State.setRes0_capPbuf (s : State) (v : Word) :
    (s.setRes0 v).capPbuf = s.capPbuf := rfl
@[simp] theorem State.setRes0_seqIn (s : State) (v : Word) :
    (s.setRes0 v).seqIn = s.seqIn := rfl
@[simp] theorem State.setRes0_pbuf (s : State) (v : Word) :
    (s.setRes0 v).pbuf = s.pbuf := rfl
@[simp] theorem State.setRes0_seqOut (s : State) (v : Word) :
    (s.setRes0 v).seqOut = s.seqOut := rfl
@[simp] theorem State.setRes0_scratch (s : State) (v : Word) :
    (s.setRes0 v).scratch = s.scratch := rfl
@[simp] theorem State.setRes0_noValue (s : State) (v : Word) :
    (s.setRes0 v).noValue = s.noValue.filter (· ≠ .res0) := rfl
@[simp] theorem State.setRes0_noValueRead (s : State) (v : Word) :
    (s.setRes0 v).noValueRead = s.noValueRead := rfl
@[simp] theorem State.setRes0_readData (s : State) (v : Word) :
    (s.setRes0 v).readData = s.readData := rfl
@[simp] theorem State.setRes0_pending (s : State) (v : Word) :
    (s.setRes0 v).pending = s.pending := rfl

/-! s.setRes1 v -/

@[simp] theorem State.setRes1_code (s : State) (v : Word) :
    (s.setRes1 v).code = s.code := rfl
@[simp] theorem State.setRes1_faulted (s : State) (v : Word) :
    (s.setRes1 v).faulted = s.faulted := rfl
@[simp] theorem State.setRes1_a0 (s : State) (v : Word) :
    (s.setRes1 v).a0 = s.a0 := rfl
@[simp] theorem State.setRes1_a1 (s : State) (v : Word) :
    (s.setRes1 v).a1 = s.a1 := rfl
@[simp] theorem State.setRes1_a2 (s : State) (v : Word) :
    (s.setRes1 v).a2 = s.a2 := rfl
@[simp] theorem State.setRes1_a3 (s : State) (v : Word) :
    (s.setRes1 v).a3 = s.a3 := rfl
@[simp] theorem State.setRes1_a4 (s : State) (v : Word) :
    (s.setRes1 v).a4 = s.a4 := rfl
@[simp] theorem State.setRes1_res0 (s : State) (v : Word) :
    (s.setRes1 v).res0 = s.res0 := rfl
@[simp] theorem State.setRes1_res1 (s : State) (v : Word) :
    (s.setRes1 v).res1 = v := rfl
@[simp] theorem State.setRes1_seqInLen (s : State) (v : Word) :
    (s.setRes1 v).seqInLen = s.seqInLen := rfl
@[simp] theorem State.setRes1_pbufLen (s : State) (v : Word) :
    (s.setRes1 v).pbufLen = s.pbufLen := rfl
@[simp] theorem State.setRes1_seqOutLen (s : State) (v : Word) :
    (s.setRes1 v).seqOutLen = s.seqOutLen := rfl
@[simp] theorem State.setRes1_capN (s : State) (v : Word) :
    (s.setRes1 v).capN = s.capN := rfl
@[simp] theorem State.setRes1_capPbuf (s : State) (v : Word) :
    (s.setRes1 v).capPbuf = s.capPbuf := rfl
@[simp] theorem State.setRes1_seqIn (s : State) (v : Word) :
    (s.setRes1 v).seqIn = s.seqIn := rfl
@[simp] theorem State.setRes1_pbuf (s : State) (v : Word) :
    (s.setRes1 v).pbuf = s.pbuf := rfl
@[simp] theorem State.setRes1_seqOut (s : State) (v : Word) :
    (s.setRes1 v).seqOut = s.seqOut := rfl
@[simp] theorem State.setRes1_scratch (s : State) (v : Word) :
    (s.setRes1 v).scratch = s.scratch := rfl
@[simp] theorem State.setRes1_noValue (s : State) (v : Word) :
    (s.setRes1 v).noValue = s.noValue.filter (· ≠ .res1) := rfl
@[simp] theorem State.setRes1_noValueRead (s : State) (v : Word) :
    (s.setRes1 v).noValueRead = s.noValueRead := rfl
@[simp] theorem State.setRes1_readData (s : State) (v : Word) :
    (s.setRes1 v).readData = s.readData := rfl
@[simp] theorem State.setRes1_pending (s : State) (v : Word) :
    (s.setRes1 v).pending = s.pending := rfl

/-! s.raise e -/

@[simp] theorem State.raise_code (s : State) (e : ErrorCode) :
    (s.raise e).code = codeOf e := rfl
@[simp] theorem State.raise_faulted (s : State) (e : ErrorCode) :
    (s.raise e).faulted = (s.faulted || isFatal e) := rfl
@[simp] theorem State.raise_a0 (s : State) (e : ErrorCode) :
    (s.raise e).a0 = s.a0 := rfl
@[simp] theorem State.raise_a1 (s : State) (e : ErrorCode) :
    (s.raise e).a1 = s.a1 := rfl
@[simp] theorem State.raise_a2 (s : State) (e : ErrorCode) :
    (s.raise e).a2 = s.a2 := rfl
@[simp] theorem State.raise_a3 (s : State) (e : ErrorCode) :
    (s.raise e).a3 = s.a3 := rfl
@[simp] theorem State.raise_a4 (s : State) (e : ErrorCode) :
    (s.raise e).a4 = s.a4 := rfl
@[simp] theorem State.raise_res0 (s : State) (e : ErrorCode) :
    (s.raise e).res0 = s.res0 := rfl
@[simp] theorem State.raise_res1 (s : State) (e : ErrorCode) :
    (s.raise e).res1 = s.res1 := rfl
@[simp] theorem State.raise_seqInLen (s : State) (e : ErrorCode) :
    (s.raise e).seqInLen = s.seqInLen := rfl
@[simp] theorem State.raise_pbufLen (s : State) (e : ErrorCode) :
    (s.raise e).pbufLen = s.pbufLen := rfl
@[simp] theorem State.raise_seqOutLen (s : State) (e : ErrorCode) :
    (s.raise e).seqOutLen = s.seqOutLen := rfl
@[simp] theorem State.raise_capN (s : State) (e : ErrorCode) :
    (s.raise e).capN = s.capN := rfl
@[simp] theorem State.raise_capPbuf (s : State) (e : ErrorCode) :
    (s.raise e).capPbuf = s.capPbuf := rfl
@[simp] theorem State.raise_seqIn (s : State) (e : ErrorCode) :
    (s.raise e).seqIn = s.seqIn := rfl
@[simp] theorem State.raise_pbuf (s : State) (e : ErrorCode) :
    (s.raise e).pbuf = s.pbuf := rfl
@[simp] theorem State.raise_seqOut (s : State) (e : ErrorCode) :
    (s.raise e).seqOut = s.seqOut := rfl
@[simp] theorem State.raise_scratch (s : State) (e : ErrorCode) :
    (s.raise e).scratch = s.scratch := rfl
@[simp] theorem State.raise_noValue (s : State) (e : ErrorCode) :
    (s.raise e).noValue = s.noValue := rfl
@[simp] theorem State.raise_noValueRead (s : State) (e : ErrorCode) :
    (s.raise e).noValueRead = s.noValueRead := rfl
@[simp] theorem State.raise_readData (s : State) (e : ErrorCode) :
    (s.raise e).readData = s.readData := rfl
@[simp] theorem State.raise_pending (s : State) (e : ErrorCode) :
    (s.raise e).pending = s.pending := rfl

/-! s.succeed -/

@[simp] theorem State.succeed_code (s : State) :
    (s.succeed).code = codeOk := rfl
@[simp] theorem State.succeed_faulted (s : State) :
    (s.succeed).faulted = s.faulted := rfl
@[simp] theorem State.succeed_a0 (s : State) :
    (s.succeed).a0 = s.a0 := rfl
@[simp] theorem State.succeed_a1 (s : State) :
    (s.succeed).a1 = s.a1 := rfl
@[simp] theorem State.succeed_a2 (s : State) :
    (s.succeed).a2 = s.a2 := rfl
@[simp] theorem State.succeed_a3 (s : State) :
    (s.succeed).a3 = s.a3 := rfl
@[simp] theorem State.succeed_a4 (s : State) :
    (s.succeed).a4 = s.a4 := rfl
@[simp] theorem State.succeed_res0 (s : State) :
    (s.succeed).res0 = s.res0 := rfl
@[simp] theorem State.succeed_res1 (s : State) :
    (s.succeed).res1 = s.res1 := rfl
@[simp] theorem State.succeed_seqInLen (s : State) :
    (s.succeed).seqInLen = s.seqInLen := rfl
@[simp] theorem State.succeed_pbufLen (s : State) :
    (s.succeed).pbufLen = s.pbufLen := rfl
@[simp] theorem State.succeed_seqOutLen (s : State) :
    (s.succeed).seqOutLen = s.seqOutLen := rfl
@[simp] theorem State.succeed_capN (s : State) :
    (s.succeed).capN = s.capN := rfl
@[simp] theorem State.succeed_capPbuf (s : State) :
    (s.succeed).capPbuf = s.capPbuf := rfl
@[simp] theorem State.succeed_seqIn (s : State) :
    (s.succeed).seqIn = s.seqIn := rfl
@[simp] theorem State.succeed_pbuf (s : State) :
    (s.succeed).pbuf = s.pbuf := rfl
@[simp] theorem State.succeed_seqOut (s : State) :
    (s.succeed).seqOut = s.seqOut := rfl
@[simp] theorem State.succeed_scratch (s : State) :
    (s.succeed).scratch = s.scratch := rfl
@[simp] theorem State.succeed_noValue (s : State) :
    (s.succeed).noValue = s.noValue := rfl
@[simp] theorem State.succeed_noValueRead (s : State) :
    (s.succeed).noValueRead = s.noValueRead := rfl
@[simp] theorem State.succeed_readData (s : State) :
    (s.succeed).readData = s.readData := rfl
@[simp] theorem State.succeed_pending (s : State) :
    (s.succeed).pending = s.pending := rfl

/-! s.compressed m words w -/

@[simp] theorem State.compressed_code (s : State) (m : Memory) (words w : Nat) :
    (s.compressed m words w).code = s.code := rfl
@[simp] theorem State.compressed_faulted (s : State) (m : Memory) (words w : Nat) :
    (s.compressed m words w).faulted = s.faulted := rfl
@[simp] theorem State.compressed_a0 (s : State) (m : Memory) (words w : Nat) :
    (s.compressed m words w).a0 = s.a0 := rfl
@[simp] theorem State.compressed_a1 (s : State) (m : Memory) (words w : Nat) :
    (s.compressed m words w).a1 = s.a1 := rfl
@[simp] theorem State.compressed_a2 (s : State) (m : Memory) (words w : Nat) :
    (s.compressed m words w).a2 = s.a2 := rfl
@[simp] theorem State.compressed_a3 (s : State) (m : Memory) (words w : Nat) :
    (s.compressed m words w).a3 = s.a3 := rfl
@[simp] theorem State.compressed_a4 (s : State) (m : Memory) (words w : Nat) :
    (s.compressed m words w).a4 = s.a4 := rfl
@[simp] theorem State.compressed_res0 (s : State) (m : Memory) (words w : Nat) :
    (s.compressed m words w).res0 = BitVec.ofNat 32 words := rfl
@[simp] theorem State.compressed_res1 (s : State) (m : Memory) (words w : Nat) :
    (s.compressed m words w).res1 = BitVec.ofNat 32 w := rfl
@[simp] theorem State.compressed_seqInLen (s : State) (m : Memory) (words w : Nat) :
    (s.compressed m words w).seqInLen = s.seqInLen := rfl
@[simp] theorem State.compressed_pbufLen (s : State) (m : Memory) (words w : Nat) :
    (s.compressed m words w).pbufLen = BitVec.ofNat 32 words := rfl
@[simp] theorem State.compressed_seqOutLen (s : State) (m : Memory) (words w : Nat) :
    (s.compressed m words w).seqOutLen = s.seqOutLen := rfl
@[simp] theorem State.compressed_capN (s : State) (m : Memory) (words w : Nat) :
    (s.compressed m words w).capN = s.capN := rfl
@[simp] theorem State.compressed_capPbuf (s : State) (m : Memory) (words w : Nat) :
    (s.compressed m words w).capPbuf = s.capPbuf := rfl
@[simp] theorem State.compressed_seqIn (s : State) (m : Memory) (words w : Nat) :
    (s.compressed m words w).seqIn = s.seqIn := rfl
@[simp] theorem State.compressed_pbuf (s : State) (m : Memory) (words w : Nat) :
    (s.compressed m words w).pbuf = m := rfl
@[simp] theorem State.compressed_seqOut (s : State) (m : Memory) (words w : Nat) :
    (s.compressed m words w).seqOut = s.seqOut := rfl
@[simp] theorem State.compressed_scratch (s : State) (m : Memory) (words w : Nat) :
    (s.compressed m words w).scratch = s.scratch := rfl
@[simp] theorem State.compressed_noValue (s : State) (m : Memory) (words w : Nat) :
    (s.compressed m words w).noValue = (s.noValue.filter (· ≠ .res0)).filter (· ≠ .res1) := rfl
@[simp] theorem State.compressed_noValueRead (s : State) (m : Memory) (words w : Nat) :
    (s.compressed m words w).noValueRead = s.noValueRead := rfl
@[simp] theorem State.compressed_readData (s : State) (m : Memory) (words w : Nat) :
    (s.compressed m words w).readData = s.readData := rfl
@[simp] theorem State.compressed_pending (s : State) (m : Memory) (words w : Nat) :
    (s.compressed m words w).pending = s.pending := rfl

/-! s.compressedEmpty -/

@[simp] theorem State.compressedEmpty_code (s : State) :
    (s.compressedEmpty).code = s.code := rfl
@[simp] theorem State.compressedEmpty_faulted (s : State) :
    (s.compressedEmpty).faulted = s.faulted := rfl
@[simp] theorem State.compressedEmpty_a0 (s : State) :
    (s.compressedEmpty).a0 = s.a0 := rfl
@[simp] theorem State.compressedEmpty_a1 (s : State) :
    (s.compressedEmpty).a1 = s.a1 := rfl
@[simp] theorem State.compressedEmpty_a2 (s : State) :
    (s.compressedEmpty).a2 = s.a2 := rfl
@[simp] theorem State.compressedEmpty_a3 (s : State) :
    (s.compressedEmpty).a3 = s.a3 := rfl
@[simp] theorem State.compressedEmpty_a4 (s : State) :
    (s.compressedEmpty).a4 = s.a4 := rfl
@[simp] theorem State.compressedEmpty_res0 (s : State) :
    (s.compressedEmpty).res0 = 0 := rfl
@[simp] theorem State.compressedEmpty_res1 (s : State) :
    (s.compressedEmpty).res1 = 0 := rfl
@[simp] theorem State.compressedEmpty_seqInLen (s : State) :
    (s.compressedEmpty).seqInLen = s.seqInLen := rfl
@[simp] theorem State.compressedEmpty_pbufLen (s : State) :
    (s.compressedEmpty).pbufLen = 0 := rfl
@[simp] theorem State.compressedEmpty_seqOutLen (s : State) :
    (s.compressedEmpty).seqOutLen = s.seqOutLen := rfl
@[simp] theorem State.compressedEmpty_capN (s : State) :
    (s.compressedEmpty).capN = s.capN := rfl
@[simp] theorem State.compressedEmpty_capPbuf (s : State) :
    (s.compressedEmpty).capPbuf = s.capPbuf := rfl
@[simp] theorem State.compressedEmpty_seqIn (s : State) :
    (s.compressedEmpty).seqIn = s.seqIn := rfl
@[simp] theorem State.compressedEmpty_pbuf (s : State) :
    (s.compressedEmpty).pbuf = s.pbuf := rfl
@[simp] theorem State.compressedEmpty_seqOut (s : State) :
    (s.compressedEmpty).seqOut = s.seqOut := rfl
@[simp] theorem State.compressedEmpty_scratch (s : State) :
    (s.compressedEmpty).scratch = s.scratch := rfl
@[simp] theorem State.compressedEmpty_noValue (s : State) :
    (s.compressedEmpty).noValue = (s.noValue.filter (· ≠ .res0)).filter (· ≠ .res1) := rfl
@[simp] theorem State.compressedEmpty_noValueRead (s : State) :
    (s.compressedEmpty).noValueRead = s.noValueRead := rfl
@[simp] theorem State.compressedEmpty_readData (s : State) :
    (s.compressedEmpty).readData = s.readData := rfl
@[simp] theorem State.compressedEmpty_pending (s : State) :
    (s.compressedEmpty).pending = s.pending := rfl

/-! s.decompressed vs -/

@[simp] theorem State.decompressed_code (s : State) (vs : List Word) :
    (s.decompressed vs).code = s.code := rfl
@[simp] theorem State.decompressed_faulted (s : State) (vs : List Word) :
    (s.decompressed vs).faulted = s.faulted := rfl
@[simp] theorem State.decompressed_a0 (s : State) (vs : List Word) :
    (s.decompressed vs).a0 = s.a0 := rfl
@[simp] theorem State.decompressed_a1 (s : State) (vs : List Word) :
    (s.decompressed vs).a1 = s.a1 := rfl
@[simp] theorem State.decompressed_a2 (s : State) (vs : List Word) :
    (s.decompressed vs).a2 = s.a2 := rfl
@[simp] theorem State.decompressed_a3 (s : State) (vs : List Word) :
    (s.decompressed vs).a3 = s.a3 := rfl
@[simp] theorem State.decompressed_a4 (s : State) (vs : List Word) :
    (s.decompressed vs).a4 = s.a4 := rfl
@[simp] theorem State.decompressed_res0 (s : State) (vs : List Word) :
    (s.decompressed vs).res0 = BitVec.ofNat 32 vs.length := rfl
@[simp] theorem State.decompressed_res1 (s : State) (vs : List Word) :
    (s.decompressed vs).res1 = s.res1 := rfl
@[simp] theorem State.decompressed_seqInLen (s : State) (vs : List Word) :
    (s.decompressed vs).seqInLen = s.seqInLen := rfl
@[simp] theorem State.decompressed_pbufLen (s : State) (vs : List Word) :
    (s.decompressed vs).pbufLen = s.pbufLen := rfl
@[simp] theorem State.decompressed_seqOutLen (s : State) (vs : List Word) :
    (s.decompressed vs).seqOutLen = BitVec.ofNat 32 vs.length := rfl
@[simp] theorem State.decompressed_capN (s : State) (vs : List Word) :
    (s.decompressed vs).capN = s.capN := rfl
@[simp] theorem State.decompressed_capPbuf (s : State) (vs : List Word) :
    (s.decompressed vs).capPbuf = s.capPbuf := rfl
@[simp] theorem State.decompressed_seqIn (s : State) (vs : List Word) :
    (s.decompressed vs).seqIn = s.seqIn := rfl
@[simp] theorem State.decompressed_pbuf (s : State) (vs : List Word) :
    (s.decompressed vs).pbuf = s.pbuf := rfl
@[simp] theorem State.decompressed_seqOut (s : State) (vs : List Word) :
    (s.decompressed vs).seqOut = s.seqOut.store 0 vs := rfl
@[simp] theorem State.decompressed_scratch (s : State) (vs : List Word) :
    (s.decompressed vs).scratch = s.scratch := rfl
@[simp] theorem State.decompressed_noValue (s : State) (vs : List Word) :
    (s.decompressed vs).noValue = s.noValue.filter (· ≠ .res0) := rfl
@[simp] theorem State.decompressed_noValueRead (s : State) (vs : List Word) :
    (s.decompressed vs).noValueRead = s.noValueRead := rfl
@[simp] theorem State.decompressed_readData (s : State) (vs : List Word) :
    (s.decompressed vs).readData = s.readData := rfl
@[simp] theorem State.decompressed_pending (s : State) (vs : List Word) :
    (s.decompressed vs).pending = s.pending := rfl

/-! s.noteOperands i -/

@[simp] theorem State.noteOperands_code (s : State) (i : Instr) :
    (s.noteOperands i).code = s.code := rfl
@[simp] theorem State.noteOperands_faulted (s : State) (i : Instr) :
    (s.noteOperands i).faulted = s.faulted := rfl
@[simp] theorem State.noteOperands_a0 (s : State) (i : Instr) :
    (s.noteOperands i).a0 = s.a0 := rfl
@[simp] theorem State.noteOperands_a1 (s : State) (i : Instr) :
    (s.noteOperands i).a1 = s.a1 := rfl
@[simp] theorem State.noteOperands_a2 (s : State) (i : Instr) :
    (s.noteOperands i).a2 = s.a2 := rfl
@[simp] theorem State.noteOperands_a3 (s : State) (i : Instr) :
    (s.noteOperands i).a3 = s.a3 := rfl
@[simp] theorem State.noteOperands_a4 (s : State) (i : Instr) :
    (s.noteOperands i).a4 = s.a4 := rfl
@[simp] theorem State.noteOperands_res0 (s : State) (i : Instr) :
    (s.noteOperands i).res0 = s.res0 := rfl
@[simp] theorem State.noteOperands_res1 (s : State) (i : Instr) :
    (s.noteOperands i).res1 = s.res1 := rfl
@[simp] theorem State.noteOperands_seqInLen (s : State) (i : Instr) :
    (s.noteOperands i).seqInLen = s.seqInLen := rfl
@[simp] theorem State.noteOperands_pbufLen (s : State) (i : Instr) :
    (s.noteOperands i).pbufLen = s.pbufLen := rfl
@[simp] theorem State.noteOperands_seqOutLen (s : State) (i : Instr) :
    (s.noteOperands i).seqOutLen = s.seqOutLen := rfl
@[simp] theorem State.noteOperands_capN (s : State) (i : Instr) :
    (s.noteOperands i).capN = s.capN := rfl
@[simp] theorem State.noteOperands_capPbuf (s : State) (i : Instr) :
    (s.noteOperands i).capPbuf = s.capPbuf := rfl
@[simp] theorem State.noteOperands_seqIn (s : State) (i : Instr) :
    (s.noteOperands i).seqIn = s.seqIn := rfl
@[simp] theorem State.noteOperands_pbuf (s : State) (i : Instr) :
    (s.noteOperands i).pbuf = s.pbuf := rfl
@[simp] theorem State.noteOperands_seqOut (s : State) (i : Instr) :
    (s.noteOperands i).seqOut = s.seqOut := rfl
@[simp] theorem State.noteOperands_scratch (s : State) (i : Instr) :
    (s.noteOperands i).scratch = s.scratch := rfl
@[simp] theorem State.noteOperands_noValue (s : State) (i : Instr) :
    (s.noteOperands i).noValue = s.noValue := rfl
@[simp] theorem State.noteOperands_noValueRead (s : State) (i : Instr) :
    (s.noteOperands i).noValueRead = (s.noValueRead || (operandRegs i).any (fun r => decide (r ∈ s.noValue))) := rfl
@[simp] theorem State.noteOperands_readData (s : State) (i : Instr) :
    (s.noteOperands i).readData = s.readData := rfl
@[simp] theorem State.noteOperands_pending (s : State) (i : Instr) :
    (s.noteOperands i).pending = s.pending := rfl

/-! s.hardReset -/

@[simp] theorem State.hardReset_code (s : State) :
    (s.hardReset).code = 0 := rfl
@[simp] theorem State.hardReset_faulted (s : State) :
    (s.hardReset).faulted = false := rfl
@[simp] theorem State.hardReset_a0 (s : State) :
    (s.hardReset).a0 = 0 := rfl
@[simp] theorem State.hardReset_a1 (s : State) :
    (s.hardReset).a1 = 0 := rfl
@[simp] theorem State.hardReset_a2 (s : State) :
    (s.hardReset).a2 = 0 := rfl
@[simp] theorem State.hardReset_a3 (s : State) :
    (s.hardReset).a3 = 0 := rfl
@[simp] theorem State.hardReset_a4 (s : State) :
    (s.hardReset).a4 = 0 := rfl
@[simp] theorem State.hardReset_res0 (s : State) :
    (s.hardReset).res0 = 0 := rfl
@[simp] theorem State.hardReset_res1 (s : State) :
    (s.hardReset).res1 = 0 := rfl
@[simp] theorem State.hardReset_seqInLen (s : State) :
    (s.hardReset).seqInLen = 0 := rfl
@[simp] theorem State.hardReset_pbufLen (s : State) :
    (s.hardReset).pbufLen = 0 := rfl
@[simp] theorem State.hardReset_seqOutLen (s : State) :
    (s.hardReset).seqOutLen = 0 := rfl
@[simp] theorem State.hardReset_capN (s : State) :
    (s.hardReset).capN = s.capN := rfl
@[simp] theorem State.hardReset_capPbuf (s : State) :
    (s.hardReset).capPbuf = s.capPbuf := rfl
@[simp] theorem State.hardReset_seqIn (s : State) :
    (s.hardReset).seqIn = [] := rfl
@[simp] theorem State.hardReset_pbuf (s : State) :
    (s.hardReset).pbuf = [] := rfl
@[simp] theorem State.hardReset_seqOut (s : State) :
    (s.hardReset).seqOut = [] := rfl
@[simp] theorem State.hardReset_scratch (s : State) :
    (s.hardReset).scratch = [] := rfl
@[simp] theorem State.hardReset_noValue (s : State) :
    (s.hardReset).noValue = unspecifiedAtReset := rfl
@[simp] theorem State.hardReset_noValueRead (s : State) :
    (s.hardReset).noValueRead = s.noValueRead := rfl
@[simp] theorem State.hardReset_readData (s : State) :
    (s.hardReset).readData = s.readData := rfl
@[simp] theorem State.hardReset_pending (s : State) :
    (s.hardReset).pending = s.pending := rfl

/-! State.resetWith -/

@[simp] theorem State.resetWith_code (nMax pbufMax : Word) :
    (State.resetWith nMax pbufMax).code = 0 := rfl
@[simp] theorem State.resetWith_faulted (nMax pbufMax : Word) :
    (State.resetWith nMax pbufMax).faulted = false := rfl
@[simp] theorem State.resetWith_a0 (nMax pbufMax : Word) :
    (State.resetWith nMax pbufMax).a0 = 0 := rfl
@[simp] theorem State.resetWith_a1 (nMax pbufMax : Word) :
    (State.resetWith nMax pbufMax).a1 = 0 := rfl
@[simp] theorem State.resetWith_a2 (nMax pbufMax : Word) :
    (State.resetWith nMax pbufMax).a2 = 0 := rfl
@[simp] theorem State.resetWith_a3 (nMax pbufMax : Word) :
    (State.resetWith nMax pbufMax).a3 = 0 := rfl
@[simp] theorem State.resetWith_a4 (nMax pbufMax : Word) :
    (State.resetWith nMax pbufMax).a4 = 0 := rfl
@[simp] theorem State.resetWith_res0 (nMax pbufMax : Word) :
    (State.resetWith nMax pbufMax).res0 = 0 := rfl
@[simp] theorem State.resetWith_res1 (nMax pbufMax : Word) :
    (State.resetWith nMax pbufMax).res1 = 0 := rfl
@[simp] theorem State.resetWith_seqInLen (nMax pbufMax : Word) :
    (State.resetWith nMax pbufMax).seqInLen = 0 := rfl
@[simp] theorem State.resetWith_pbufLen (nMax pbufMax : Word) :
    (State.resetWith nMax pbufMax).pbufLen = 0 := rfl
@[simp] theorem State.resetWith_seqOutLen (nMax pbufMax : Word) :
    (State.resetWith nMax pbufMax).seqOutLen = 0 := rfl
@[simp] theorem State.resetWith_capN (nMax pbufMax : Word) :
    (State.resetWith nMax pbufMax).capN = nMax := rfl
@[simp] theorem State.resetWith_capPbuf (nMax pbufMax : Word) :
    (State.resetWith nMax pbufMax).capPbuf = pbufMax := rfl
@[simp] theorem State.resetWith_seqIn (nMax pbufMax : Word) :
    (State.resetWith nMax pbufMax).seqIn = [] := rfl
@[simp] theorem State.resetWith_pbuf (nMax pbufMax : Word) :
    (State.resetWith nMax pbufMax).pbuf = [] := rfl
@[simp] theorem State.resetWith_seqOut (nMax pbufMax : Word) :
    (State.resetWith nMax pbufMax).seqOut = [] := rfl
@[simp] theorem State.resetWith_scratch (nMax pbufMax : Word) :
    (State.resetWith nMax pbufMax).scratch = [] := rfl
@[simp] theorem State.resetWith_noValue (nMax pbufMax : Word) :
    (State.resetWith nMax pbufMax).noValue = unspecifiedAtReset := rfl
@[simp] theorem State.resetWith_noValueRead (nMax pbufMax : Word) :
    (State.resetWith nMax pbufMax).noValueRead = false := rfl
@[simp] theorem State.resetWith_readData (nMax pbufMax : Word) :
    (State.resetWith nMax pbufMax).readData = none := rfl
@[simp] theorem State.resetWith_pending (nMax pbufMax : Word) :
    (State.resetWith nMax pbufMax).pending = [] := rfl

end Sys2Proof.Machine
end

