-- ==== Sys2Proof/Laws/Ops.lean ====
section
/-! SUPPORT. What the shared operations can do, once each: binding, checks, word reads, runs of
reads, and how a command ends. -/

namespace Sys2Proof.Machine

open Sys2Proof

section Bind

variable {α β : Type}

@[simp] theorem ok_bind (a : α) (f : α → Except Stop β) : (Except.ok a >>= f) = f a := rfl

@[simp] theorem error_bind (e : Stop) (f : α → Except Stop β) :
    ((Except.error e : Except Stop α) >>= f) = .error e := rfl

@[simp] theorem pure_ok (a : α) : (pure a : Except Stop α) = .ok a := rfl

theorem bind_ok_iff {x : Except Stop α} {f : α → Except Stop β} {b : β} :
    (x >>= f) = .ok b ↔ ∃ a, x = .ok a ∧ f a = .ok b := by
  cases x <;> simp

theorem bind_error_iff {x : Except Stop α} {f : α → Except Stop β} {e : Stop} :
    (x >>= f) = .error e ↔ x = .error e ∨ ∃ a, x = .ok a ∧ f a = .error e := by
  cases x <;> simp

end Bind

@[simp] theorem check_ok_iff {p : Prop} [Decidable p] {e : ErrorCode} {u : Unit} :
    check p e = .ok u ↔ ¬ p := by
  unfold check; split <;> simp_all

@[simp] theorem check_error_iff {p : Prop} [Decidable p] {e : ErrorCode} {x : Stop} :
    check p e = .error x ↔ p ∧ x = .raise e := by
  unfold check; split <;> simp_all [eq_comm]

theorem check_pos {p : Prop} [Decidable p] (h : p) (e : ErrorCode) :
    check p e = .error (.raise e) := by simp [check, h]

theorem check_neg {p : Prop} [Decidable p] (h : ¬ p) (e : ErrorCode) : check p e = .ok () := by
  simp [check, h]

theorem readWord_ok_iff {sp : Space} {m : Memory} {i : Nat} {v : Word} :
    readWord sp m i = .ok v ↔ m.read i = some v := by
  unfold readWord; split <;> simp_all

theorem readWord_error_iff {sp : Space} {m : Memory} {i : Nat} {e : Stop} :
    readWord sp m i = .error e ↔ m.read i = none ∧ e = .refuse (.noValue sp i) := by
  unfold readWord
  cases h : m.read i <;> simp [eq_comm]

/-- A run of reads succeeds exactly when each read does. -/
theorem collect_ok_iff {α : Type} {f : Nat → Except Stop α} {i n : Nat} {vs : List α} :
    collect f i n = .ok vs ↔ vs.length = n ∧ ∀ (j : Nat) (h : j < vs.length), f (i + j) = .ok vs[j] := by
  induction n generalizing i vs with
  | zero =>
    constructor
    · intro h; simp [collect] at h; subst h; simp
    · rintro ⟨h, -⟩; simp [collect, List.length_eq_zero_iff.mp h]
  | succ n ih =>
    simp only [collect, bind_ok_iff, pure_ok]
    constructor
    · rintro ⟨v, hv, ws, hws, h⟩
      cases h
      obtain ⟨hl, hf⟩ := ih.mp hws
      refine ⟨by simp [hl], fun j hj => ?_⟩
      cases j with
      | zero => simpa using hv
      | succ j =>
        have := hf j (by simpa using hj)
        simpa [Nat.add_assoc, Nat.add_comm 1 j] using this
    · rintro ⟨hl, hf⟩
      cases vs with
      | nil => simp at hl
      | cons v ws =>
        have h0 : f i = .ok v := hf 0 (by simp)
        refine ⟨v, h0, ws, ih.mpr ⟨by simpa using hl, fun j hj => ?_⟩, rfl⟩
        have := hf (j + 1) (by simpa using hj)
        simpa [Nat.add_assoc, Nat.add_comm 1 j] using this

/-- A run of reads stops where one of its reads does. -/
theorem collect_error {α : Type} {f : Nat → Except Stop α} {i n : Nat} {e : Stop}
    (h : collect f i n = .error e) : ∃ j, j < n ∧ f (i + j) = .error e := by
  induction n generalizing i with
  | zero => simp [collect] at h
  | succ n ih =>
    simp only [collect, bind_error_iff, pure_ok] at h
    rcases h with h | ⟨v, -, h | ⟨ws, -, h⟩⟩
    · exact ⟨0, by omega, by simpa using h⟩
    · obtain ⟨j, hj, hf⟩ := ih h
      exact ⟨j + 1, by omega, by rw [← hf]; congr 1; omega⟩
    · simp at h

/-- A run of reads of which each answers with a value answers with all of them. -/
theorem collect_exists {α : Type} {f : Nat → Except Stop α} {i n : Nat}
    (h : ∀ j, j < n → ∃ v, f (i + j) = .ok v) :
    ∃ vs, collect f i n = .ok vs ∧ vs.length = n ∧
      ∀ (j : Nat) (hj : j < vs.length), f (i + j) = .ok vs[j] := by
  rcases hc : collect f i n with e | vs
  · obtain ⟨j, hj, hf⟩ := collect_error hc
    obtain ⟨v, hv⟩ := h j hj
    simp [hv] at hf
  · exact ⟨vs, rfl, collect_ok_iff.mp hc⟩

/-- How a command ends: completed, or an error raised from the state it began in. -/
theorem settle_next_iff {s t : State} {c : Except Stop State} :
    settle s c = .next t ↔
      (∃ u, c = .ok u ∧ t = u.succeed) ∨ (∃ e, c = .error (.raise e) ∧ t = s.raise e) := by
  rcases c with (e | r | f) | u <;> simp [settle, eq_comm]

theorem settle_refused_iff {s : State} {c : Except Stop State} {r : Refusal} :
    settle s c = .refused r ↔ c = .error (.refuse r) := by
  rcases c with (e | r | f) | u <;> simp [settle]

theorem settle_fault_iff {s : State} {c : Except Stop State} {f : Fault} :
    settle s c = .fault f ↔ c = .error (.fault f) := by
  rcases c with (e | r | f) | u <;> simp [settle]

@[simp] theorem settle_ok (s t : State) : settle s (.ok t) = .next t.succeed := rfl

@[simp] theorem settle_raise (s : State) (e : ErrorCode) :
    settle s (.error (.raise e)) = .next (s.raise e) := rfl

end Sys2Proof.Machine
end

