-- ==== Sys2Proof/Laws/Memory.lean ====
section
/-! SUPPORT. The laws of memory: a word read after a write, the canonical form, and bounds. -/

namespace Sys2Proof.Machine

open Sys2Proof

@[simp] theorem Memory.read_nil (i : Nat) : Memory.read [] i = none := rfl

theorem Memory.read_write (m : Memory) (i j : Nat) (v : Word) :
    (m.write i v).read j = if j = i then some v else m.read j := by
  induction m with
  | nil => simp [Memory.write, Memory.read]
  | cons c m ih =>
    obtain ⟨a, w⟩ := c
    simp only [Memory.write]
    split
    · simp [Memory.read]
    · split
      · rename_i h; subst h; simp only [Memory.read]; split <;> simp_all
      · simp only [Memory.read, ih]; split <;> split <;> simp_all

@[simp] theorem Memory.read_write_same (m : Memory) (i : Nat) (v : Word) :
    (m.write i v).read i = some v := by simp [Memory.read_write]

theorem Memory.read_write_ne (m : Memory) {i j : Nat} (v : Word) (h : j ≠ i) :
    (m.write i v).read j = m.read j := by simp [Memory.read_write, h]

theorem Memory.mem_write {m : Memory} {i : Nat} {v : Word} {c : Nat × Word} (h : c ∈ m.write i v) :
    c = (i, v) ∨ c ∈ m := by
  induction m with
  | nil => simpa [Memory.write] using h
  | cons d m ih =>
    obtain ⟨a, w⟩ := d
    simp only [Memory.write] at h
    split at h
    · simpa using h
    · split at h
      · simp only [List.mem_cons] at h ⊢; tauto
      · simp only [List.mem_cons] at h ⊢; tauto

/-- A write keeps the canonical form. -/
theorem Memory.wf_write {m : Memory} (h : m.wf) (i : Nat) (v : Word) : (m.write i v).wf := by
  induction m with
  | nil => simp [Memory.write, Memory.wf]
  | cons c m ih =>
    obtain ⟨a, w⟩ := c
    have h' := List.pairwise_cons.mp h
    simp only [Memory.write]
    split
    · refine List.pairwise_cons.mpr ⟨?_, h⟩
      intro d hd
      rcases List.mem_cons.mp hd with rfl | hd
      · assumption
      · have := h'.1 d hd; simp only at *; omega
    · split
      · rename_i _ hia; subst hia
        exact List.pairwise_cons.mpr ⟨h'.1, h'.2⟩
      · refine List.pairwise_cons.mpr ⟨?_, ih h'.2⟩
        intro d hd
        rcases Memory.mem_write hd with rfl | hd
        · simp only; omega
        · exact h'.1 d hd

/-- A run of words written reads back; everything else is as before. -/
theorem Memory.read_store (m : Memory) (i j : Nat) (vs : List Word) :
    (m.store i vs).read j = if i ≤ j ∧ j < i + vs.length then vs[j - i]? else m.read j := by
  induction vs generalizing m i with
  | nil => simp only [Memory.store, List.length_nil]; split <;> first | omega | rfl
  | cons v vs ih =>
    simp only [Memory.store, ih, Memory.read_write, List.length_cons]
    by_cases h : j = i
    · subst h; simp
    · by_cases h2 : i + 1 ≤ j ∧ j < i + 1 + vs.length
      · rw [if_pos h2, if_pos (by omega), show j - i = (j - (i + 1)) + 1 by omega]; simp
      · rw [if_neg h2, if_neg h, if_neg (by omega)]

theorem Memory.wf_store {m : Memory} (h : m.wf) (i : Nat) (vs : List Word) : (m.store i vs).wf := by
  induction vs generalizing m i with
  | nil => exact h
  | cons v vs ih => exact ih (Memory.wf_write h i v) (i + 1)

theorem Memory.below_write {m : Memory} {cap : Nat} (h : Memory.below cap m) {i : Nat} (hi : i < cap) (v : Word) :
    Memory.below cap (m.write i v) := by
  intro c hc
  rcases Memory.mem_write hc with rfl | hc
  · exact hi
  · exact h c hc

theorem Memory.below_store {m : Memory} {cap : Nat} (h : Memory.below cap m) {i : Nat} {vs : List Word}
    (hi : i + vs.length ≤ cap) : Memory.below cap (m.store i vs) := by
  induction vs generalizing m i with
  | nil => exact h
  | cons v vs ih =>
    simp only [List.length_cons] at hi
    exact ih (Memory.below_write h (by omega) v) (by omega)

theorem Memory.read_some_mem {m : Memory} {i : Nat} {v : Word} (h : m.read i = some v) : (i, v) ∈ m := by
  induction m with
  | nil => simp at h
  | cons c m ih =>
    obtain ⟨a, w⟩ := c
    simp only [Memory.read] at h
    split at h
    · simp_all
    · exact List.mem_cons_of_mem _ (ih h)

theorem Memory.read_below {m : Memory} {cap i : Nat} (h : Memory.below cap m) (hi : cap ≤ i) : m.read i = none := by
  rcases hr : m.read i with _ | v
  · rfl
  · have := h _ (Memory.read_some_mem hr); simp only at this; omega

/-- Two memories in canonical form that read alike are equal. -/
theorem Memory.ext_of_wf {m m' : Memory} (h : m.wf) (h' : m'.wf) (hr : ∀ i, m.read i = m'.read i) :
    m = m' := by
  induction m generalizing m' with
  | nil =>
    cases m' with
    | nil => rfl
    | cons c m' => have := hr c.1; simp [Memory.read] at this
  | cons c m ih =>
    cases m' with
    | nil => have := hr c.1; simp [Memory.read] at this
    | cons d m' =>
      have hc := List.pairwise_cons.mp h
      have hd := List.pairwise_cons.mp h'
      have key : c.1 = d.1 := by
        by_contra hne
        rcases Nat.lt_or_gt_of_ne hne with hlt | hlt
        · have := hr c.1
          simp only [Memory.read, if_true] at this
          rw [if_neg hne] at this
          have := hd.1 _ (Memory.read_some_mem this.symm)
          simp only at this; omega
        · have := hr d.1
          simp only [Memory.read, if_true] at this
          rw [if_neg (Ne.symm hne)] at this
          have := hc.1 _ (Memory.read_some_mem this)
          simp only at this; omega
      obtain ⟨a, v⟩ := c
      obtain ⟨b, w⟩ := d
      simp only at key; subst key
      have hv := hr a
      simp only [Memory.read, if_true, Option.some.injEq] at hv
      subst hv
      rw [ih hc.2 hd.2]
      intro i
      have hi := hr i
      simp only [Memory.read] at hi
      split at hi
      · rename_i hia; subst hia
        have e1 : Memory.read m i = none := by
          rcases hx : Memory.read m i with _ | x
          · rfl
          · have := hc.1 _ (Memory.read_some_mem hx); simp at this
        have e2 : Memory.read m' i = none := by
          rcases hx : Memory.read m' i with _ | x
          · rfl
          · have := hd.1 _ (Memory.read_some_mem hx); simp at this
        rw [e1, e2]
      · exact hi

end Sys2Proof.Machine
end

