-- ==== Sys2Proof/Laws/Fields.lean ====
section
/-! SUPPORT. The field getter and setter, bit by bit: what `readField`, `writeField` and a list of
field writes can do, once each. -/

namespace Sys2Proof.Machine

open Sys2Proof

theorem Memory.has_write {m : Memory} {i j : Nat} {v : Word} :
    (m.write i v).has j ↔ j = i ∨ m.has j := by
  unfold Memory.has; rw [Memory.read_write]; split <;> simp_all

theorem Memory.has_iff {m : Memory} {i : Nat} : m.has i ↔ ∃ v, m.read i = some v := by
  unfold Memory.has; rw [Option.isSome_iff_exists]

theorem Memory.bit_of_read {m : Memory} {p : Nat} {v : Word} (h : m.read (p / 32) = some v) :
    m.bit p = v.getLsbD (p % 32) := by
  unfold Memory.bit; rw [h]

theorem Memory.bit_write (m : Memory) (i p : Nat) (v : Word) :
    (m.write i v).bit p = if p / 32 = i then v.getLsbD (p % 32) else m.bit p := by
  unfold Memory.bit
  rw [Memory.read_write]
  by_cases h : p / 32 = i <;> simp [h]

/-- A word is determined by its stream bits. -/
theorem Memory.read_congr {m m' : Memory} {i : Nat} (hh : m'.has i ↔ m.has i)
    (hb : ∀ j, j < 32 → m'.bit (32 * i + j) = m.bit (32 * i + j)) : m'.read i = m.read i := by
  rcases h : m.read i with _ | v
  · rcases h' : m'.read i with _ | v'
    · rfl
    · exact absurd (hh.mp (Memory.has_iff.mpr ⟨v', h'⟩)) (by simp [Memory.has, h])
  · obtain ⟨v', h'⟩ := Memory.has_iff.mp (hh.mpr (Memory.has_iff.mpr ⟨v, h⟩))
    rw [h']
    congr 1
    apply BitVec.eq_of_getLsbD_eq
    intro j hj
    have hd : (32 * i + j) / 32 = i := by omega
    have hm : (32 * i + j) % 32 = j := by omega
    have := hb j hj
    rwa [Memory.bit_of_read (v := v') (by rw [hd]; exact h'),
      Memory.bit_of_read (v := v) (by rw [hd]; exact h), hm] at this

/-- What a successful field read answers: the field's bits, least significant first (R54, R102). -/
theorem readField_ok {m : Memory} {p n v : Nat} (h : readField m p n = .ok v) (hn : n ≤ 32) :
    v < 2 ^ n ∧ ∀ j, j < n → v.testBit j = m.bit (p + j) := by
  unfold readField at h
  simp only at h
  have hb : p % 32 < 32 := Nat.mod_lt _ (by norm_num)
  split at h
  · rename_i hfit
    simp only [bind_ok_iff, readWord_ok_iff, pure_ok] at h
    obtain ⟨x, hx, h⟩ := h
    cases h
    refine ⟨bitsOf_lt _ _ _, fun j hj => ?_⟩
    rw [bitsOf_testBit, Memory.bit_of_read (v := x) (by rw [← hx]; congr 1; omega)]
    simp only [hj, decide_true, Bool.true_and]
    congr 1; omega
  · rename_i hfit
    simp only [bind_ok_iff, readWord_ok_iff, pure_ok] at h
    obtain ⟨x, hx, y, hy, h⟩ := h
    cases h
    have key : ∀ j, (bitsOf x (p % 32) (32 - p % 32) |||
        bitsOf y 0 (p % 32 + n - 32) * 2 ^ (32 - p % 32)).testBit j =
        (decide (j < n) && m.bit (p + j)) := by
      intro j
      rw [Nat.testBit_or, Nat.testBit_mul_two_pow, bitsOf_testBit, bitsOf_testBit]
      by_cases h1 : j < 32 - p % 32
      · rw [Memory.bit_of_read (v := x) (by rw [← hx]; congr 1; omega)]
        have : ¬ (32 - p % 32 ≤ j) := by omega
        simp only [h1, this, decide_true, decide_false, Bool.true_and, Bool.false_and,
          Bool.or_false]
        rw [show decide (j < n) = true by simp; omega, Bool.true_and]
        congr 1; omega
      · have h2 : 32 - p % 32 ≤ j := by omega
        by_cases h3 : j < n
        · rw [Memory.bit_of_read (v := y) (by rw [← hy]; congr 1; omega)]
          simp only [h1, h2, h3, decide_true, decide_false, Bool.true_and, Bool.false_and,
            Bool.false_or]
          rw [show decide (j - (32 - p % 32) < p % 32 + n - 32) = true by simp; omega,
            Bool.true_and]
          congr 1; omega
        · simp only [h1, h2, h3, decide_true, decide_false, Bool.true_and, Bool.false_and,
            Bool.false_or]
          rw [show decide (j - (32 - p % 32) < p % 32 + n - 32) = false by simp; omega,
            Bool.false_and]
    refine ⟨lt_two_pow_of_bits fun j hj => ?_, fun j hj => ?_⟩
    · rw [key j]; simp; omega
    · rw [key j]; simp [hj]

/-- A field read stops only where a word it reads holds no value. -/
theorem readField_error {m : Memory} {p n : Nat} {e : Stop} (h : readField m p n = .error e) :
    ∃ i, e = .refuse (.noValue .pbuf i) ∧ ¬ m.has i ∧
      (i = p / 32 ∨ (i = p / 32 + 1 ∧ 32 < p % 32 + n)) := by
  unfold readField at h
  simp only at h
  split at h
  · simp only [bind_error_iff, readWord_error_iff, pure_ok, reduceCtorEq, and_false, exists_false,
      or_false] at h
    exact ⟨_, h.2, by simp [Memory.has, h.1], .inl rfl⟩
  · simp only [bind_error_iff, readWord_error_iff, readWord_ok_iff, pure_ok, reduceCtorEq,
      and_false, exists_false, or_false] at h
    rcases h with ⟨h1, h2⟩ | ⟨x, -, h1, h2⟩
    · exact ⟨_, h2, by simp [Memory.has, h1], .inl rfl⟩
    · exact ⟨_, h2, by simp [Memory.has, h1], .inr ⟨rfl, by omega⟩⟩

/-- A field read of words that hold values answers with the field. -/
theorem readField_exists {m : Memory} {p n : Nat} (h1 : 1 ≤ n) (hn : n ≤ 32)
    (ha : m.has (p / 32)) (hb : m.has ((p + n - 1) / 32)) :
    ∃ v, readField m p n = .ok v ∧ v < 2 ^ n ∧ ∀ j, j < n → v.testBit j = m.bit (p + j) := by
  rcases h : readField m p n with e | v
  · obtain ⟨i, -, hi, rfl | ⟨rfl, hc⟩⟩ := readField_error h
    · exact absurd ha hi
    · rw [show (p + n - 1) / 32 = p / 32 + 1 by omega] at hb; exact absurd hb hi
  · exact ⟨v, rfl, readField_ok h hn⟩

/-- A field read depends on the field's words alone. -/
theorem readField_eq_of_bits {m : Memory} {p n v : Nat} (h1 : 1 ≤ n) (hn : n ≤ 32)
    (ha : m.has (p / 32)) (hb : m.has ((p + n - 1) / 32)) (hv : v < 2 ^ n)
    (hbits : ∀ j, j < n → m.bit (p + j) = v.testBit j) : readField m p n = .ok v := by
  obtain ⟨w, hw, hlt, hbw⟩ := readField_exists h1 hn ha hb
  rw [hw]
  congr 1
  apply Nat.eq_of_testBit_eq
  intro j
  by_cases hj : j < n
  · rw [hbw j hj, hbits j hj]
  · rw [testBit_false_of_lt hlt (by omega), testBit_false_of_lt hv (by omega)]

theorem modifyWord_ok_iff {m m' : Memory} {i lo n v : Nat} :
    modifyWord m i lo n v = .ok m' ↔ ∃ x, m.read i = some x ∧ m' = m.write i (putBits x lo n v) := by
  simp only [modifyWord, bind_ok_iff, readWord_ok_iff, pure_ok, Except.ok.injEq]
  exact exists_congr fun x => and_congr_right fun _ => eq_comm

/-- What a read-modify-write of one word leaves. -/
theorem modifyWord_spec {m m' : Memory} {i lo n v : Nat} (h : modifyWord m i lo n v = .ok m') :
    m.has i ∧ (∀ j, m'.has j ↔ m.has j) ∧ (m.wf → m'.wf) ∧
      ∀ q, m'.bit q = if q / 32 = i ∧ lo ≤ q % 32 ∧ q % 32 < lo + n then v.testBit (q % 32 - lo)
        else m.bit q := by
  obtain ⟨x, hx, rfl⟩ := modifyWord_ok_iff.mp h
  have hi : m.has i := Memory.has_iff.mpr ⟨x, hx⟩
  refine ⟨hi, fun j => ?_, fun hwf => Memory.wf_write hwf _ _, fun q => ?_⟩
  · rw [Memory.has_write]
    constructor
    · rintro (rfl | h) <;> assumption
    · exact .inr
  · rw [Memory.bit_write]
    by_cases hq : q / 32 = i
    · rw [if_pos hq, putBits_getLsbD _ _ _ _ _ (Nat.mod_lt _ (by norm_num)),
        Memory.bit_of_read (v := x) (by rw [hq]; exact hx)]
      simp only [hq, true_and]
    · simp [hq]

/-- What a successful field write leaves (R103): the same words hold values, and only the field's
stream bits change. -/
theorem writeField_spec {m m' : Memory} {p n v : Nat} (h : writeField m p n v = .ok m')
    (hn : n ≤ 32) :
    (∀ j, m'.has j ↔ m.has j) ∧ (m.wf → m'.wf) ∧
      ∀ q, m'.bit q = if p ≤ q ∧ q < p + n then v.testBit (q - p) else m.bit q := by
  unfold writeField at h
  simp only at h
  have hb : p % 32 < 32 := Nat.mod_lt _ (by norm_num)
  split at h
  · rename_i hfit
    obtain ⟨-, hh, hw, hbits⟩ := modifyWord_spec h
    refine ⟨hh, hw, fun q => ?_⟩
    rw [hbits q]
    have : (q / 32 = p / 32 ∧ p % 32 ≤ q % 32 ∧ q % 32 < p % 32 + n) ↔ (p ≤ q ∧ q < p + n) := by
      omega
    simp only [this]
    split
    · congr 1; omega
    · rfl
  · rename_i hfit
    obtain ⟨m1, h1, h2⟩ := bind_ok_iff.mp h
    obtain ⟨-, hh1, hw1, hbits1⟩ := modifyWord_spec h1
    obtain ⟨-, hh2, hw2, hbits2⟩ := modifyWord_spec h2
    refine ⟨fun j => (hh2 j).trans (hh1 j), fun hwf => hw2 (hw1 hwf), fun q => ?_⟩
    rw [hbits2 q, hbits1 q]
    by_cases c2 : q / 32 = p / 32 + 1 ∧ 0 ≤ q % 32 ∧ q % 32 < 0 + (p % 32 + n - 32)
    · rw [if_pos c2, if_pos (by omega), Nat.testBit_div_two_pow]
      congr 1; omega
    · rw [if_neg c2]
      by_cases c1 : q / 32 = p / 32 ∧ p % 32 ≤ q % 32 ∧ q % 32 < p % 32 + (32 - p % 32)
      · rw [if_pos c1, if_pos (by omega)]
        congr 1; omega
      · rw [if_neg c1, if_neg (by omega)]

/-- A field write stops only where a word it touches holds no value. -/
theorem writeField_error {m : Memory} {p n v : Nat} {e : Stop} (h : writeField m p n v = .error e) :
    ∃ i, e = .refuse (.noValue .pbuf i) ∧ ¬ m.has i ∧
      (i = p / 32 ∨ (i = p / 32 + 1 ∧ 32 < p % 32 + n)) := by
  have key : ∀ {m : Memory} {i lo k u : Nat} {e : Stop}, modifyWord m i lo k u = .error e →
      e = .refuse (.noValue .pbuf i) ∧ ¬ m.has i := by
    intro m i lo k u e h
    simp only [modifyWord, bind_error_iff, readWord_error_iff, pure_ok, reduceCtorEq, and_false,
      exists_false, or_false] at h
    exact ⟨h.2, by simp [Memory.has, h.1]⟩
  unfold writeField at h
  simp only at h
  split at h
  · exact ⟨_, (key h).1, (key h).2, .inl rfl⟩
  · rcases bind_error_iff.mp h with h | ⟨m1, h1, h⟩
    · exact ⟨_, (key h).1, (key h).2, .inl rfl⟩
    · refine ⟨_, (key h).1, fun hc => (key h).2 (((modifyWord_spec h1).2.1 _).mpr hc),
        .inr ⟨rfl, by omega⟩⟩

/-- A field that is answered touches only words that hold values. -/
theorem readField_ok_has {m : Memory} {p n v q : Nat} (h : readField m p n = .ok v) (hn : n ≤ 32)
    (h1 : p ≤ q) (h2 : q < p + n) : m.has (q / 32) := by
  unfold readField at h
  simp only at h
  split at h
  · obtain ⟨x, hx, -⟩ := bind_ok_iff.mp h
    exact Memory.has_iff.mpr ⟨x, by rw [← readWord_ok_iff.mp hx]; congr 1; omega⟩
  · obtain ⟨x, hx, h⟩ := bind_ok_iff.mp h
    obtain ⟨y, hy, -⟩ := bind_ok_iff.mp h
    rcases Nat.lt_or_ge (q / 32) (p / 32 + 1) with hq | hq
    · exact Memory.has_iff.mpr ⟨x, by rw [← readWord_ok_iff.mp hx]; congr 1; omega⟩
    · exact Memory.has_iff.mpr ⟨y, by rw [← readWord_ok_iff.mp hy]; congr 1; omega⟩

/-- A field that is written touches only words that hold values. -/
theorem writeField_ok_has {m m' : Memory} {p n v q : Nat} (h : writeField m p n v = .ok m')
    (hn : n ≤ 32) (h1 : p ≤ q) (h2 : q < p + n) : m.has (q / 32) := by
  unfold writeField at h
  simp only at h
  split at h
  · have := (modifyWord_spec h).1
    rwa [show q / 32 = p / 32 by omega]
  · obtain ⟨m1, hm, h⟩ := bind_ok_iff.mp h
    obtain ⟨a1, a2, -⟩ := modifyWord_spec hm
    rcases Nat.lt_or_ge (q / 32) (p / 32 + 1) with hq | hq
    · rwa [show q / 32 = p / 32 by omega]
    · rw [show q / 32 = p / 32 + 1 by omega]
      exact (a2 _).mp (modifyWord_spec h).1

/-- A field write into words that hold values answers. -/
theorem writeField_exists {m : Memory} {p n : Nat} (v : Nat) (h1 : 1 ≤ n) (hn : n ≤ 32)
    (ha : m.has (p / 32)) (hb : m.has ((p + n - 1) / 32)) : ∃ m', writeField m p n v = .ok m' := by
  rcases h : writeField m p n v with e | m'
  · obtain ⟨i, -, hi, rfl | ⟨rfl, hc⟩⟩ := writeField_error h
    · exact absurd ha hi
    · rw [show (p + n - 1) / 32 = p / 32 + 1 by omega] at hb; exact absurd hb hi
  · exact ⟨m', rfl⟩

/-- The stream positions of a field. -/
abbrev Field.covers (f : Field) (q : Nat) : Prop := f.pos ≤ q ∧ q < f.pos + f.width

/-- Two fields that share no stream position. -/
abbrev Field.disjoint (f g : Field) : Prop := ∀ q, f.covers q → ¬ g.covers q

/-- What a list of field writes leaves: the same words hold values, a position no field covers
stays, and where the fields are pairwise disjoint every field holds its value. -/
theorem writeFields_spec {fs : List Field} {m m' : Memory} (h : writeFields m fs = .ok m')
    (hn : ∀ f ∈ fs, f.width ≤ 32) :
    (∀ j, m'.has j ↔ m.has j) ∧ (m.wf → m'.wf) ∧
      (∀ q, (∀ f ∈ fs, ¬ f.covers q) → m'.bit q = m.bit q) ∧
      (fs.Pairwise Field.disjoint →
        ∀ f ∈ fs, ∀ q, f.covers q → m'.bit q = f.value.testBit (q - f.pos)) := by
  induction fs generalizing m with
  | nil => cases h; simp
  | cons f fs ih =>
    obtain ⟨m1, h1, h2⟩ := bind_ok_iff.mp h
    obtain ⟨hh1, hw1, hb1⟩ := writeField_spec h1 (hn f (by simp))
    obtain ⟨hh2, hw2, hb2, hf2⟩ := ih h2 (fun g hg => hn g (by simp [hg]))
    refine ⟨fun j => (hh2 j).trans (hh1 j), fun hwf => hw2 (hw1 hwf), fun q hq => ?_,
      fun hd g hg q hq => ?_⟩
    · rw [hb2 q (fun g hg => hq g (by simp [hg])), hb1 q]
      exact if_neg (hq f (by simp))
    · have hd' := List.pairwise_cons.mp hd
      rcases List.mem_cons.mp hg with rfl | hg
      · rw [hb2 q (fun g' hg' => hd'.1 g' hg' q hq), hb1 q]
        exact if_pos hq
      · exact hf2 hd'.2 g hg q hq

/-- A list of field writes into words that hold values answers. -/
theorem writeFields_exists {fs : List Field} {m : Memory} (hn : ∀ f ∈ fs, 1 ≤ f.width ∧ f.width ≤ 32)
    (hh : ∀ f ∈ fs, ∀ q, f.covers q → m.has (q / 32)) : ∃ m', writeFields m fs = .ok m' := by
  induction fs generalizing m with
  | nil => exact ⟨m, rfl⟩
  | cons f fs ih =>
    have hf := hn f (by simp)
    obtain ⟨m1, h1⟩ := writeField_exists (m := m) (p := f.pos) (n := f.width) f.value hf.1 hf.2
      (hh f (by simp) f.pos ⟨le_rfl, by omega⟩)
      (hh f (by simp) (f.pos + f.width - 1) ⟨by omega, by omega⟩)
    obtain ⟨m2, h2⟩ := ih (m := m1) (fun g hg => hn g (by simp [hg])) (fun g hg q hq =>
      ((writeField_spec h1 hf.2).1 _).mpr (hh g (by simp [hg]) q hq))
    exact ⟨m2, bind_ok_iff.mpr ⟨m1, h1, h2⟩⟩

/-- A list of field writes stops only where a word a field touches holds no value. -/
theorem writeFields_error {fs : List Field} {m : Memory} {e : Stop}
    (h : writeFields m fs = .error e) (hn : ∀ f ∈ fs, f.width ≤ 32) :
    ∃ i, e = .refuse (.noValue .pbuf i) ∧ ¬ m.has i := by
  induction fs generalizing m with
  | nil => cases h
  | cons f fs ih =>
    rcases bind_error_iff.mp h with h | ⟨m1, h1, h⟩
    · obtain ⟨i, h1, h2, -⟩ := writeField_error h; exact ⟨i, h1, h2⟩
    · obtain ⟨i, h2, h3⟩ := ih h (fun g hg => hn g (by simp [hg]))
      exact ⟨i, h2, fun hc => h3 (((writeField_spec h1 (hn f (by simp))).1 i).mpr hc)⟩

/-- Fields that are written touch only words that hold values. -/
theorem writeFields_ok_has {fs : List Field} {m m' : Memory} (h : writeFields m fs = .ok m')
    (hn : ∀ f ∈ fs, f.width ≤ 32) {f : Field} (hf : f ∈ fs) {q : Nat} (hq : f.covers q) :
    m.has (q / 32) := by
  induction fs generalizing m with
  | nil => simp at hf
  | cons g fs ih =>
    obtain ⟨m1, h1, h2⟩ := bind_ok_iff.mp h
    rcases List.mem_cons.mp hf with rfl | hf
    · exact writeField_ok_has h1 (hn f (by simp)) hq.1 hq.2
    · have := ih h2 (fun f hf => hn f (by simp [hf])) hf
      rwa [(writeField_spec h1 (hn g (by simp))).1] at this

theorem mem_elementFields {pos : Nat → Nat} {w i : Nat} {A : List Word} {f : Field} :
    f ∈ elementFields pos w i A ↔
      ∃ (j : Nat) (hj : j < A.length), f = ⟨pos (i + j), w, A[j].toNat⟩ := by
  induction A generalizing i with
  | nil => simp [elementFields]
  | cons a A ih =>
    simp only [elementFields, List.mem_cons, ih]
    constructor
    · rintro (rfl | ⟨j, hj, rfl⟩)
      · exact ⟨0, by simp, by simp⟩
      · exact ⟨j + 1, by simpa using hj, by simp [Nat.add_assoc, Nat.add_comm 1 j]⟩
    · rintro ⟨j, hj, rfl⟩
      cases j with
      | zero => exact .inl (by simp)
      | succ j => exact .inr ⟨j, by simpa using hj, by simp [Nat.add_assoc, Nat.add_comm 1 j]⟩

/-- Element fields placed at rising positions are pairwise disjoint. -/
theorem elementFields_pairwise {pos : Nat → Nat} {w i : Nat} {A : List Word}
    (h : ∀ j k, i ≤ j → j < k → k < i + A.length → pos j + w ≤ pos k ∨ pos k + w ≤ pos j) :
    (elementFields pos w i A).Pairwise Field.disjoint := by
  induction A generalizing i with
  | nil => simp [elementFields]
  | cons a A ih =>
    refine List.pairwise_cons.mpr ⟨fun f hf q hq hq' => ?_, ih fun j k hj hk hl => ?_⟩
    · obtain ⟨j, hj, rfl⟩ := mem_elementFields.mp hf
      have := h i (i + 1 + j) le_rfl (by omega) (by simp only [List.length_cons]; omega)
      simp only [Field.covers] at hq hq'
      omega
    · exact h j k (by omega) hk (by simp only [List.length_cons]; omega)

end Sys2Proof.Machine
end

