-- ==== Sys2Proof/Laws/Codec.lean ====
section
/-! SUPPORT. Fields as numbers, and the input Sequence: one lemma for what each
shared operation can do. -/

namespace Sys2Proof.Machine

open Sys2Proof

/-- The word a field read stops at is one that the field touches. -/
theorem readField_error_word {m : Memory} {p n : Nat} {e : Stop} (h1 : 1 ≤ n)
    (h : readField m p n = .error e) :
    ∃ k, FieldWord p n k ∧ e = .refuse (.noValue .pbuf k) ∧ ¬ m.has k := by
  obtain ⟨k, he, hk, hc⟩ := readField_error h
  rcases hc with rfl | ⟨rfl, hc⟩
  · exact ⟨_, ⟨p, le_rfl, by omega, rfl⟩, he, hk⟩
  · exact ⟨_, ⟨32 * (p / 32 + 1), by omega, by omega, by omega⟩, he, hk⟩

/-! Fields as numbers (R54). -/

theorem Memory.field_testBit (m : Memory) (p n j : Nat) :
    (m.field p n).testBit j = (decide (j < n) && m.bit (p + j)) := by
  induction n generalizing p j with
  | zero => simp [Memory.field]
  | succ n ih =>
    simp only [Memory.field]
    cases j with
    | zero =>
      rw [Nat.testBit_zero]
      cases m.bit p
      · simp
      · simp
    | succ j =>
      rw [Nat.testBit_succ]
      have : ((m.bit p).toNat + 2 * m.field (p + 1) n) / 2 = m.field (p + 1) n := by
        cases m.bit p
        · simp
        · simp; omega
      rw [this, ih]
      simp [Nat.add_assoc, Nat.add_comm 1 j]

theorem Memory.field_lt (m : Memory) (p n : Nat) : m.field p n < 2 ^ n :=
  lt_two_pow_of_bits fun j hj => by rw [Memory.field_testBit]; simp; omega

/-- A field read is the field's number (R102), where the words it touches hold values. -/
theorem readField_eq {m : Memory} {p n : Nat} (h1 : 1 ≤ n) (hn : n ≤ 32)
    (hh : ∀ q, p ≤ q → q < p + n → m.has (q / 32)) : readField m p n = .ok (m.field p n) := by
  apply readField_eq_of_bits h1 hn (hh p le_rfl (by omega)) (hh (p + n - 1) (by omega) (by omega))
    (Memory.field_lt m p n)
  intro j hj
  simp [Memory.field_testBit, hj]

theorem readField_ok_field {m : Memory} {p n v : Nat} (hn : n ≤ 32) (h : readField m p n = .ok v) :
    v = m.field p n := by
  obtain ⟨hlt, hb⟩ := readField_ok h hn
  apply Nat.eq_of_testBit_eq
  intro j
  rw [Memory.field_testBit]
  by_cases hj : j < n
  · simp [hj, hb j hj]
  · rw [testBit_false_of_lt hlt (Nat.le_of_not_lt hj)]; simp [hj]

theorem Memory.field_congr {m m' : Memory} {p n : Nat} (h : ∀ j, j < n → m'.bit (p + j) = m.bit (p + j)) :
    m'.field p n = m.field p n := by
  apply Nat.eq_of_testBit_eq
  intro j
  simp only [Memory.field_testBit]
  by_cases hj : j < n
  · simp [h j hj]
  · simp [hj]

theorem Memory.field_of_bits {m : Memory} {p n v : Nat} (hv : v < 2 ^ n)
    (h : ∀ j, j < n → m.bit (p + j) = v.testBit j) : m.field p n = v := by
  apply Nat.eq_of_testBit_eq
  intro j
  rw [Memory.field_testBit]
  by_cases hj : j < n
  · simp [hj, h j hj]
  · rw [testBit_false_of_lt hv (Nat.le_of_not_lt hj)]; simp [hj]

/-! The input Sequence. -/

/-- An input Sequence is answered (R12, R68). -/
theorem inputSequence_eq {s : State} {A : List Word} (h : Input s A) : inputSequence s = .ok A := by
  obtain ⟨⟨hl, hr⟩, ha, hc⟩ := h
  have h1 : checkSeqIn s = .ok () := check_neg (by simp only [uint]; omega) _
  have h2 : collect (readWord .seqIn s.seqIn) 0 (uint s.seqInLen) = .ok A := by
    rw [collect_ok_iff]
    refine ⟨hl, fun j hj => ?_⟩
    rw [readWord_ok_iff, Nat.zero_add, hr j hj]
    simp [hj]
  have h3 : check (A.any (fun a => a.getLsbD 31)) .unsupportedValue = .ok () := by
    apply check_neg
    simp only [List.any_eq_true, not_exists, not_and]
    intro a haA; simp only [ha a haA]; simp
  simp only [inputSequence, h1, h2, h3, ok_bind, pure_ok]

/-- What an answered Sequence is. -/
theorem inputSequence_ok {s : State} {A : List Word} (h : inputSequence s = .ok A) : Input s A := by
  simp only [inputSequence, bind_ok_iff, pure_ok] at h
  obtain ⟨_, h1, B, h2, _, h3, h4⟩ := h
  cases h4
  have h1 : ¬ _ := check_ok_iff.mp h1
  have h3 : ¬ _ := check_ok_iff.mp h3
  obtain ⟨hl, hr⟩ := collect_ok_iff.mp h2
  simp only [uint] at h1 hl
  refine ⟨⟨hl, fun i hi => ?_⟩, fun a ha => ?_, by omega⟩
  · have := readWord_ok_iff.mp (hr i hi)
    rw [Nat.zero_add] at this
    rw [this]; simp [hi]
  · by_contra hc
    exact h3 (List.any_eq_true.mpr ⟨a, ha, by simpa using hc⟩)

/-- The ways reading the input Sequence can stop. -/
theorem inputSequence_error {s : State} {e : Stop} (h : inputSequence s = .error e) :
    (e = .raise .capacityExceeded ∧ s.capN.toNat < s.seqInLen.toNat) ∨
    (∃ i, i < s.seqInLen.toNat ∧ e = .refuse (.noValue .seqIn i) ∧ ¬ s.seqIn.has i) ∨
    (e = .raise .unsupportedValue ∧ ∃ A, HoldsSequence s A ∧ ¬ Admitted A) := by
  simp only [inputSequence, bind_error_iff, pure_ok] at h
  rcases h with h | ⟨_, h1, h | ⟨A, h2, h | ⟨_, _, h⟩⟩⟩
  · obtain ⟨hp, rfl⟩ := check_error_iff.mp h
    exact .inl ⟨rfl, hp⟩
  · obtain ⟨j, hj, hf⟩ := collect_error h
    obtain ⟨hn, rfl⟩ := readWord_error_iff.mp hf
    refine .inr (.inl ⟨0 + j, by simpa [uint] using hj, rfl, ?_⟩)
    simp only [Memory.has, hn]; simp
  · obtain ⟨hp, rfl⟩ := check_error_iff.mp h
    obtain ⟨hl, hr⟩ := collect_ok_iff.mp h2
    refine .inr (.inr ⟨rfl, A, ⟨hl, fun i hi => ?_⟩, fun ha => ?_⟩)
    · have := readWord_ok_iff.mp (hr i hi)
      rw [Nat.zero_add] at this
      rw [this]; simp [hi]
    · obtain ⟨a, hm, hb⟩ := List.any_eq_true.mp hp
      rw [ha a hm] at hb; exact absurd hb (by simp)
  · simp at h

end Sys2Proof.Machine
end

