-- ==== Sys2Proof/Laws/Gamma.lean ====
section
/-! SUPPORT. What the Gamma coder writes and reads (spec 41_gamma.md R120 to R122). -/

namespace Sys2Proof.Machine

open Sys2Proof

/-! The scan. -/

theorem bitField_eq {m : Memory} {q : Nat} (h : m.has (q / 32)) :
    readField m q 1 = .ok (m.bit q).toNat := by
  rw [readField_eq le_rfl (by norm_num) (fun r h1 h2 => by rwa [show r = q by omega])]
  simp [Memory.field]

theorem bitField_ok {m : Memory} {q v : Nat} (h : readField m q 1 = .ok v) :
    m.has (q / 32) ∧ v = (m.bit q).toNat := by
  have hv := readField_ok_field (by norm_num) h
  refine ⟨?_, by rw [hv]; simp [Memory.field]⟩
  by_contra hc
  simp only [readField] at h
  rw [if_pos (by omega)] at h
  obtain ⟨x, hx, -⟩ := bind_ok_iff.mp h
  exact hc (Memory.has_iff.mpr ⟨x, readWord_ok_iff.mp hx⟩)

/-- What a scan answers: the zeros before the first 1, or that there is none. -/
theorem scanZeros_ok {m : Memory} {p fuel k : Nat} {r : Option Nat}
    (h : scanZeros m p fuel k = .ok r) :
    (r = none ∧ ∀ j, k ≤ j → j < k + fuel → m.has ((p + j) / 32) ∧ m.bit (p + j) = false) ∨
    ∃ j, r = some j ∧ k ≤ j ∧ j < k + fuel ∧ m.bit (p + j) = true ∧ m.has ((p + j) / 32) ∧
      ∀ i, k ≤ i → i < j → m.has ((p + i) / 32) ∧ m.bit (p + i) = false := by
  induction fuel generalizing k with
  | zero => cases h; exact .inl ⟨rfl, fun j h1 h2 => by omega⟩
  | succ fuel ih =>
    simp only [scanZeros] at h
    obtain ⟨b, hb, h⟩ := bind_ok_iff.mp h
    obtain ⟨hh, hb⟩ := bitField_ok hb
    split at h
    · rename_i h1
      cases h
      refine .inr ⟨k, rfl, le_rfl, by omega, ?_, hh, fun i h2 h3 => by omega⟩
      cases hbit : m.bit (p + k) <;> simp_all
    · rename_i h1
      have hz : m.bit (p + k) = false := by cases hbit : m.bit (p + k) <;> simp_all
      rcases ih h with ⟨rfl, hall⟩ | ⟨j, rfl, h2, h3, h4, h5, h6⟩
      · refine .inl ⟨rfl, fun j h2 h3 => ?_⟩
        rcases Nat.eq_or_lt_of_le h2 with rfl | h2
        · exact ⟨hh, hz⟩
        · exact hall j (by omega) (by omega)
      · refine .inr ⟨j, rfl, by omega, by omega, h4, h5, fun i h7 h8 => ?_⟩
        rcases Nat.eq_or_lt_of_le h7 with rfl | h7
        · exact ⟨hh, hz⟩
        · exact h6 i (by omega) h8

/-- A scan stops only at a position it comes to, all before it being 0, in a word that holds no
value. -/
theorem scanZeros_error {m : Memory} {p fuel k : Nat} {e : Stop}
    (h : scanZeros m p fuel k = .error e) :
    ∃ j, k ≤ j ∧ j < k + fuel ∧ e = .refuse (.noValue .pbuf ((p + j) / 32)) ∧
      ¬ m.has ((p + j) / 32) ∧ ∀ i, k ≤ i → i < j → m.bit (p + i) = false := by
  induction fuel generalizing k with
  | zero => cases h
  | succ fuel ih =>
    simp only [scanZeros] at h
    rcases bind_error_iff.mp h with h | ⟨b, hb, h⟩
    · obtain ⟨i, rfl, hi, rfl | ⟨rfl, hc⟩⟩ := readField_error h
      · exact ⟨k, le_rfl, by omega, rfl, hi, fun i h1 h2 => by omega⟩
      · omega
    · split at h
      · cases h
      · rename_i hb1
        obtain ⟨-, hv⟩ := bitField_ok hb
        have hz : m.bit (p + k) = false := by cases hbit : m.bit (p + k) <;> simp_all
        obtain ⟨j, h1, h2, h3, h4, h5⟩ := ih h
        refine ⟨j, by omega, by omega, h3, h4, fun i h6 h7 => ?_⟩
        rcases Nat.eq_or_lt_of_le h6 with rfl | h6
        · exact hz
        · exact h5 i h6 h7

theorem scanZeros_found {m : Memory} {p fuel k j : Nat} (h1 : k ≤ j) (h2 : j < k + fuel)
    (hh : ∀ i, k ≤ i → i ≤ j → m.has ((p + i) / 32))
    (hz : ∀ i, k ≤ i → i < j → m.bit (p + i) = false) (ho : m.bit (p + j) = true) :
    scanZeros m p fuel k = .ok (some j) := by
  rcases h : scanZeros m p fuel k with e | r
  · obtain ⟨i, h3, h4, -, h5, -⟩ := scanZeros_error h
    by_cases hij : i ≤ j
    · exact absurd (hh i h3 hij) h5
    · exfalso
      clear h5
      induction fuel generalizing k with
      | zero => omega
      | succ fuel ih =>
        simp only [scanZeros] at h
        rw [bitField_eq (hh k le_rfl h1)] at h
        simp only [ok_bind] at h
        rcases Nat.eq_or_lt_of_le h1 with rfl | h1
        · rw [ho] at h; simp at h
        · rw [hz k le_rfl h1] at h
          simp only [Bool.toNat_false, zero_ne_one, if_false] at h
          exact ih (by omega) (by omega) (fun i a b => hh i (by omega) b)
            (fun i a b => hz i (by omega) b) h (by omega) (by omega)
  · rcases scanZeros_ok h with ⟨rfl, hall⟩ | ⟨i, rfl, h3, h4, h5, -, h6⟩
    · have := (hall j h1 h2).2; rw [ho] at this; simp at this
    · congr 2
      rcases Nat.lt_trichotomy i j with hlt | heq | hlt
      · rw [hz i h3 hlt] at h5; simp at h5
      · exact heq
      · have := (h6 j h1 hlt).2; rw [ho] at this; simp at this

theorem scanZeros_none {m : Memory} {p fuel k : Nat}
    (hz : ∀ j, k ≤ j → j < k + fuel → m.has ((p + j) / 32) ∧ m.bit (p + j) = false) :
    scanZeros m p fuel k = .ok none := by
  rcases h : scanZeros m p fuel k with e | r
  · obtain ⟨i, h3, h4, -, h5, -⟩ := scanZeros_error h
    exact absurd (hz i h3 h4).1 h5
  · rcases scanZeros_ok h with ⟨rfl, -⟩ | ⟨i, rfl, h3, h4, h5, -, -⟩
    · rfl
    · rw [(hz i h3 h4).2] at h5; simp at h5

/-! The digits. -/

theorem readDigits_ok {m : Memory} {p count acc v : Nat} (h : readDigits m p count acc = .ok v) :
    ∃ n, n < 2 ^ count ∧ v = acc * 2 ^ count + n ∧
      ∀ i, i < count → m.bit (p + i) = n.testBit (count - 1 - i) := by
  induction count generalizing p acc with
  | zero => cases h; exact ⟨0, by simp, by simp, by simp⟩
  | succ c ih =>
    simp only [readDigits] at h
    obtain ⟨b, hb, h⟩ := bind_ok_iff.mp h
    obtain ⟨-, rfl⟩ := bitField_ok hb
    obtain ⟨n, hn, rfl, hbits⟩ := ih h
    refine ⟨(m.bit p).toNat * 2 ^ c + n, ?_, by ring, fun i hi => ?_⟩
    · have : (m.bit p).toNat ≤ 1 := Bool.toNat_le _
      rw [pow_succ]
      nlinarith
    · rw [Nat.mul_comm, Nat.testBit_two_pow_mul_add _ hn]
      cases i with
      | zero =>
        rw [if_neg (by omega), show c + 1 - 1 - 0 - c = 0 by omega]
        cases m.bit p <;> simp
      | succ i =>
        rw [if_pos (by omega), show c + 1 - 1 - (i + 1) = c - 1 - i by omega,
          ← hbits i (by omega)]
        congr 1; omega

theorem readDigits_error {m : Memory} {p count acc : Nat} {e : Stop}
    (h : readDigits m p count acc = .error e) :
    ∃ j, j < count ∧ e = .refuse (.noValue .pbuf ((p + j) / 32)) ∧ ¬ m.has ((p + j) / 32) := by
  induction count generalizing p acc with
  | zero => cases h
  | succ c ih =>
    simp only [readDigits] at h
    rcases bind_error_iff.mp h with h | ⟨b, hb, h⟩
    · obtain ⟨i, rfl, hi, rfl | ⟨rfl, hc⟩⟩ := readField_error h
      · exact ⟨0, by omega, rfl, hi⟩
      · omega
    · obtain ⟨j, h1, h2, h3⟩ := ih h
      rw [show p + 1 + j = p + (j + 1) by omega] at h2 h3
      exact ⟨j + 1, by omega, h2, h3⟩

theorem readDigits_ok_has {m : Memory} {p count acc v i : Nat}
    (h : readDigits m p count acc = .ok v) (hi : i < count) : m.has ((p + i) / 32) := by
  induction count generalizing p acc i with
  | zero => omega
  | succ c ih =>
    simp only [readDigits] at h
    obtain ⟨b, hb, h⟩ := bind_ok_iff.mp h
    rcases i with _ | i
    · exact (bitField_ok hb).1
    · have := ih h (i := i) (by omega)
      rwa [show p + 1 + i = p + (i + 1) by omega] at this

theorem eq_of_digits {count n n' : Nat} (hn : n < 2 ^ count) (hn' : n' < 2 ^ count)
    (h : ∀ i, i < count → n.testBit (count - 1 - i) = n'.testBit (count - 1 - i)) : n = n' := by
  apply Nat.eq_of_testBit_eq
  intro j
  by_cases hj : j < count
  · have := h (count - 1 - j) (by omega)
    rwa [show count - 1 - (count - 1 - j) = j by omega] at this
  · rw [testBit_false_of_lt hn (Nat.le_of_not_lt hj), testBit_false_of_lt hn' (Nat.le_of_not_lt hj)]

/-! The code. -/

theorem testBit_top {n k : Nat} (h1 : 2 ^ k ≤ n) (h2 : n < 2 ^ (k + 1)) : n.testBit k = true := by
  rw [Nat.testBit_eq_decide_div_mod_eq]
  have h3 : 1 ≤ n / 2 ^ k := (Nat.one_le_div_iff (by positivity)).mpr h1
  have h4 : n / 2 ^ k < 2 := by
    rw [Nat.div_lt_iff_lt_mul (by positivity)]
    rw [pow_succ] at h2; omega
  have : n / 2 ^ k = 1 := by omega
  simp [this]

theorem GammaCodeAt.first {m : Memory} {p k n : Nat} (h : GammaCodeAt m p k n) :
    m.bit (p + k) = true := by
  have := h.2.2.2 0 (Nat.zero_le _)
  rw [Nat.add_zero, Nat.sub_zero, testBit_top h.1 h.2.1] at this
  exact this

/-- A decode reads every position of the code that stands there. -/
theorem GammaCodeAt.reads {m : Memory} {p k n limit q : Nat} (h : GammaCodeAt m p k n)
    (hk : k ≤ 31) (hl : p + (2 * k + 1) ≤ limit) (h1 : p ≤ q) (h2 : q < p + (2 * k + 1)) :
    GammaReads m p limit q := by
  refine ⟨h1, by omega, .inr ⟨k, hk, hl, fun r h3 h4 => ?_, h.first, h2⟩⟩
  have := h.2.2.1 (r - p) (by omega)
  rwa [show p + (r - p) = r by omega] at this

/-- The code of `n` is decoded (R122, R125). -/
theorem gammaRead_value {m : Memory} {p k n limit : Nat} (h : GammaCodeAt m p k n) (hk : k ≤ 31)
    (hl : p + 2 * k + 1 ≤ limit)
    (hh : ∀ q, p ≤ q → q < p + 2 * k + 1 → m.has (q / 32)) :
    gammaRead m p limit = .ok (.value n (p + 2 * k + 1)) := by
  have hs : scanZeros m p (limit - p) 0 = .ok (some k) :=
    scanZeros_found (Nat.zero_le _) (by omega) (fun i _ hi => hh _ (by omega) (by omega))
      (fun i _ hi => h.2.2.1 i hi) h.first
  have hd : readDigits m (p + k) (k + 1) 0 = .ok n := by
    rcases hr : readDigits m (p + k) (k + 1) 0 with e | v
    · obtain ⟨j, hj, -, hn⟩ := readDigits_error hr
      exact absurd (hh (p + k + j) (by omega) (by omega)) hn
    · obtain ⟨n', hlt, rfl, hb⟩ := readDigits_ok hr
      congr 1
      rw [Nat.zero_mul, Nat.zero_add]
      apply eq_of_digits hlt h.2.1
      intro i hi
      rw [← hb i hi, h.2.2.2 i (by omega)]
      congr 1
  simp only [gammaRead, hs, ok_bind]
  rw [if_neg (by omega), if_neg (by omega), hd]
  rfl

/-- What a successful decode means. -/
theorem gammaRead_ok_value {m : Memory} {p limit n q : Nat}
    (h : gammaRead m p limit = .ok (.value n q)) :
    ∃ k, k ≤ 31 ∧ q = p + 2 * k + 1 ∧ q ≤ limit ∧ GammaCodeAt m p k n := by
  simp only [gammaRead] at h
  obtain ⟨r, hs, h⟩ := bind_ok_iff.mp h
  rcases scanZeros_ok hs with ⟨rfl, -⟩ | ⟨k, rfl, -, hk, ho, -, hz⟩
  · simp at h
  · simp only at h
    split at h
    · simp at h
    · split at h
      · simp at h
      · obtain ⟨n', hd, h⟩ := bind_ok_iff.mp h
        simp only [pure_ok, Except.ok.injEq, GammaRead.value.injEq] at h
        obtain ⟨rfl, rfl⟩ := h
        obtain ⟨d, hlt, hv, hb⟩ := readDigits_ok hd
        rw [Nat.zero_mul, Nat.zero_add] at hv
        subst hv
        have htop := hb 0 (by omega)
        rw [Nat.add_zero, ho, show k + 1 - 1 - 0 = k by omega] at htop
        refine ⟨k, by omega, rfl, by omega, Nat.ge_two_pow_of_testBit htop.symm, hlt,
          fun j hj => (hz j (Nat.zero_le _) hj).2, fun i hi => ?_⟩
        rw [hb i (by omega)]
        congr 1

/-- A decode that fails: no 1 bit below the limit, or a first 1 that is too late. -/
theorem gammaRead_fails {m : Memory} {p limit : Nat} {r : GammaRead}
    (h : gammaRead m p limit = .ok r) (hr : ∀ n q, r ≠ .value n q) :
    (∀ q, p ≤ q → q < limit → m.bit q = false) ∨
    ∃ k, p + k < limit ∧ (31 < k ∨ limit < p + 2 * k + 1) ∧ m.bit (p + k) = true ∧
      ∀ j, j < k → m.bit (p + j) = false := by
  simp only [gammaRead] at h
  obtain ⟨o, hs, h⟩ := bind_ok_iff.mp h
  rcases scanZeros_ok hs with ⟨rfl, hz⟩ | ⟨k, rfl, -, hk, ho, -, hz⟩
  · refine .inl fun q h1 h2 => ?_
    have := (hz (q - p) (Nat.zero_le _) (by omega)).2
    rwa [show p + (q - p) = q by omega] at this
  · refine .inr ⟨k, by omega, ?_, ho, fun j hj => (hz j (Nat.zero_le _) hj).2⟩
    simp only at h
    split at h
    · exact .inl ‹_›
    · split at h
      · exact .inr (by omega)
      · obtain ⟨n', hd, h⟩ := bind_ok_iff.mp h
        simp only [pure_ok, Except.ok.injEq] at h
        exact absurd h.symm (hr _ _)

/-- A decode of an all-zero range fails. -/
theorem gammaRead_zeros {m : Memory} {p limit : Nat}
    (hz : ∀ q, p ≤ q → q < limit → m.has (q / 32) ∧ m.bit q = false) :
    gammaRead m p limit = .ok .unterminated := by
  have hs : scanZeros m p (limit - p) 0 = .ok none :=
    scanZeros_none fun j _ hj => hz _ (by omega) (by omega)
  simp [gammaRead, hs]

/-- A decode whose first 1 comes too late fails. -/
theorem gammaRead_late {m : Memory} {p k limit : Nat} (hk : p + k < limit)
    (hl : 31 < k ∨ limit < p + 2 * k + 1) (hz : ∀ j, j < k → m.bit (p + j) = false)
    (ho : m.bit (p + k) = true) (hh : ∀ q, p ≤ q → q ≤ p + k → m.has (q / 32)) :
    ∃ r, gammaRead m p limit = .ok r ∧ ∀ n q, r ≠ .value n q := by
  have hs : scanZeros m p (limit - p) 0 = .ok (some k) :=
    scanZeros_found (Nat.zero_le _) (by omega) (fun i _ hi => hh _ (by omega) (by omega))
      (fun i _ hi => hz i hi) ho
  simp only [gammaRead, hs, ok_bind]
  by_cases h31 : k > 31
  · exact ⟨.tooLong, by rw [if_pos h31]; rfl, by simp⟩
  · exact ⟨.unterminated, by rw [if_neg h31, if_pos (by omega)]; rfl, by simp⟩

/-- A decode stops only at a position it reads, in a word that holds no value. -/
theorem gammaRead_error {m : Memory} {p limit : Nat} {e : Stop}
    (h : gammaRead m p limit = .error e) :
    ∃ q, GammaReads m p limit q ∧ e = .refuse (.noValue .pbuf (q / 32)) ∧ ¬ m.has (q / 32) := by
  simp only [gammaRead] at h
  rcases bind_error_iff.mp h with h | ⟨o, hs, h⟩
  · obtain ⟨j, -, hj, h1, h2, h3⟩ := scanZeros_error h
    refine ⟨p + j, ⟨by omega, by omega, .inl fun r h4 h5 => ?_⟩, h1, h2⟩
    have := h3 (r - p) (Nat.zero_le _) (by omega)
    rwa [show p + (r - p) = r by omega] at this
  · rcases scanZeros_ok hs with ⟨rfl, hz⟩ | ⟨k, rfl, -, hk, ho, -, hz⟩
    · simp at h
    · simp only at h
      split at h
      · simp at h
      · split at h
        · simp at h
        · rcases bind_error_iff.mp h with h | ⟨n, -, h⟩
          · obtain ⟨j, hj, h1, h2⟩ := readDigits_error h
            refine ⟨p + k + j, ⟨by omega, by omega, .inr ⟨k, by omega, by omega, fun r h3 h4 => ?_,
              ho, by omega⟩⟩, h1, h2⟩
            have := (hz (r - p) (Nat.zero_le _) (by omega)).2
            rwa [show p + (r - p) = r by omega] at this
          · simp at h

/-- A decode that answers has read only words that hold values. -/
theorem gammaRead_ok_has {m : Memory} {p limit q : Nat} {r : GammaRead}
    (h : gammaRead m p limit = .ok r) (hq : GammaReads m p limit q) : m.has (q / 32) := by
  obtain ⟨hp, hl, hr⟩ := hq
  simp only [gammaRead] at h
  obtain ⟨o, hs, h⟩ := bind_ok_iff.mp h
  have hpq : p + (q - p) = q := by omega
  rcases scanZeros_ok hs with ⟨rfl, hz⟩ | ⟨k, rfl, -, hk, ho, hh, hz⟩
  · have := (hz (q - p) (Nat.zero_le _) (by omega)).1
    rwa [hpq] at this
  · rcases Nat.lt_trichotomy (q - p) k with hlt | heq | hgt
    · have := (hz (q - p) (Nat.zero_le _) hlt).1
      rwa [hpq] at this
    · rwa [← heq, hpq] at hh
    · rcases hr with hr | ⟨z, hz31, hzl, hz0, hz1, hqz⟩
      · rw [hr (p + k) (by omega) (by omega)] at ho; cases ho
      · have hzk : z = k := by
          rcases Nat.lt_trichotomy z k with h1 | h1 | h1
          · rw [(hz z (Nat.zero_le _) h1).2] at hz1; cases hz1
          · exact h1
          · rw [hz0 (p + k) (by omega) (by omega)] at ho; cases ho
        subst hzk
        simp only at h
        rw [if_neg (by omega), if_neg (by omega)] at h
        obtain ⟨n, hd, -⟩ := bind_ok_iff.mp h
        have := readDigits_ok_has hd (i := q - (p + z)) (by omega)
        rwa [show p + z + (q - (p + z)) = q by omega] at this

/-! The encoder's fields. -/

theorem mem_gammaFields {p n : Nat} {f : Field} : f ∈ gammaFields p n ↔
    (∃ j, j < Nat.log2 n ∧ f = ⟨p + j, 1, 0⟩) ∨
    ∃ i, i ≤ Nat.log2 n ∧ f = ⟨p + Nat.log2 n + i, 1, n / 2 ^ (Nat.log2 n - i) % 2⟩ := by
  unfold gammaFields
  simp only [List.mem_append, List.mem_map, List.mem_range, eq_comm, Nat.lt_succ_iff]

theorem gammaFields_pairwise (p n : Nat) : (gammaFields p n).Pairwise Field.disjoint := by
  unfold gammaFields
  have hlt : ∀ {k : Nat} {g : Nat → Field}, (∀ i j, i < j → Field.disjoint (g i) (g j)) →
      ((List.range k).map g).Pairwise Field.disjoint := by
    intro k g hg
    rw [List.pairwise_map]
    exact List.pairwise_lt_range.imp fun h => hg _ _ h
  simp only [List.pairwise_append]
  refine ⟨hlt fun i j hij q h1 h2 => ?_, hlt fun i j hij q h1 h2 => ?_, fun f hf g hg q h1 h2 => ?_⟩
  · simp only [Field.covers] at h1 h2; omega
  · simp only [Field.covers] at h1 h2; omega
  · simp only [List.mem_map, List.mem_range] at hf hg
    obtain ⟨i, hi, rfl⟩ := hf
    obtain ⟨j, hj, rfl⟩ := hg
    simp only [Field.covers] at h1 h2; omega

theorem gammaFields_width {p n : Nat} {f : Field} (h : f ∈ gammaFields p n) : f.width = 1 := by
  rcases mem_gammaFields.mp h with ⟨j, -, rfl⟩ | ⟨i, -, rfl⟩ <;> rfl

/-- The stream positions the code covers: those from `p` to `p + gammaLen n - 1`. -/
theorem gammaFields_covers {p n q : Nat} :
    (∃ f ∈ gammaFields p n, f.covers q) ↔ p ≤ q ∧ q < p + gammaLen n := by
  unfold gammaLen
  constructor
  · rintro ⟨f, hf, hq⟩
    rcases mem_gammaFields.mp hf with ⟨j, hj, rfl⟩ | ⟨i, hi, rfl⟩ <;>
      simp only [Field.covers] at hq <;> omega
  · rintro ⟨h1, h2⟩
    by_cases hk : q < p + Nat.log2 n
    · exact ⟨_, mem_gammaFields.mpr (.inl ⟨q - p, by omega, rfl⟩), by
        simp only [Field.covers]; omega⟩
    · exact ⟨_, mem_gammaFields.mpr (.inr ⟨q - p - Nat.log2 n, by omega, rfl⟩), by
        simp only [Field.covers]; omega⟩

/-- A memory in which the encoder's fields hold their values holds the code (R121). -/
theorem gammaCodeAt_of_fields {m : Memory} {p n : Nat} (hn : n ≠ 0)
    (h : ∀ f ∈ gammaFields p n, ∀ q, f.covers q → m.bit q = f.value.testBit (q - f.pos)) :
    GammaCodeAt m p (Nat.log2 n) n := by
  refine ⟨(log2_bounds hn).1, (log2_bounds hn).2, fun j hj => ?_, fun i hi => ?_⟩
  · have := h _ (mem_gammaFields.mpr (.inl ⟨j, hj, rfl⟩)) (p + j) (by
      simp only [Field.covers]; omega)
    simpa using this
  · have := h _ (mem_gammaFields.mpr (.inr ⟨i, hi, rfl⟩)) (p + Nat.log2 n + i) (by
      simp only [Field.covers]; omega)
    rw [this, Nat.sub_self, Nat.testBit_zero, Nat.testBit_eq_decide_div_mod_eq]
    simp

end Sys2Proof.Machine
end

