-- ==== Sys2Proof/Laws/Width.lean ====
section
/-! SUPPORT. What the two width selectors choose (spec 42_width_selector.md R130 to R134). -/

namespace Sys2Proof.Machine

open Sys2Proof

/-! The uniform width. -/

theorem uniformWidth_spec (A : List Word) : IsUniformWidth A (uniformWidth A) ∧
    (Admitted A → uniformWidth A ≤ 31) ∧ uniformWidth A ≤ 32 := by
  have key : ∀ (B : List Word) (w0 : Nat), 1 ≤ w0 →
      w0 ≤ B.foldl (fun w a => max w (bitWidth a.toNat)) w0 ∧
      (∀ a ∈ B, bitWidth a.toNat ≤ B.foldl (fun w a => max w (bitWidth a.toNat)) w0) ∧
      (B.foldl (fun w a => max w (bitWidth a.toNat)) w0 = w0 ∨
        ∃ a ∈ B, bitWidth a.toNat = B.foldl (fun w a => max w (bitWidth a.toNat)) w0) := by
    intro B
    induction B with
    | nil => intro w0 _; simp
    | cons b B ih =>
      intro w0 h0
      obtain ⟨i1, i2, i3⟩ := ih (max w0 (bitWidth b.toNat)) (by omega)
      simp only [List.foldl_cons, List.mem_cons, forall_eq_or_imp, exists_eq_or_imp]
      refine ⟨by omega, ⟨by omega, i2⟩, ?_⟩
      rcases i3 with h | h
      · rw [h]
        rcases Nat.le_total w0 (bitWidth b.toNat) with h' | h'
        · right; left; omega
        · left; omega
      · exact .inr (.inr h)
  obtain ⟨h1, h2, h3⟩ := key A 1 le_rfl
  refine ⟨⟨h1, fun a ha => (bitWidth_le_iff h1).mp (h2 a ha), ?_⟩, fun hA => ?_, ?_⟩
  · rcases h3 with h | ⟨a, ha, h⟩
    · exact .inl h
    · by_cases hw : uniformWidth A = 1
      · exact .inl hw
      · refine .inr ⟨a, ha, ?_⟩
        have hb : ¬ bitWidth a.toNat ≤ uniformWidth A - 1 := by
          have : bitWidth a.toNat = uniformWidth A := h
          have : 1 ≤ uniformWidth A := h1
          omega
        rw [bitWidth_le_iff (by have : 1 ≤ uniformWidth A := h1; omega)] at hb
        omega
  · rcases h3 with h | ⟨a, ha, h⟩
    · unfold uniformWidth; omega
    · unfold uniformWidth; rw [← h]; exact (bitWidth_le_31_iff a).mpr (hA a ha)
  · rcases h3 with h | ⟨a, ha, h⟩
    · unfold uniformWidth; omega
    · unfold uniformWidth; rw [← h]; exact bitWidth_le_32 a

/-! The overflow width. -/

theorem overflowCount_eq {A : List Word} {w : Nat} (h1 : 1 ≤ w) (hw : w ≤ 32) :
    overflowCount A w = outlierCount A w := by
  induction A with
  | nil =>
    have : histogram [] = fun _ => 0 := by funext b; simp [histogram]
    simp [overflowCount, this, outlierCount]
  | cons a A ih =>
    have hsum : overflowCount (a :: A) w =
        overflowCount A w + (if w < bitWidth a.toNat then 1 else 0) := by
      unfold overflowCount histogram
      simp only [List.countP_cons]
      rw [List.sum_map_add]
      congr 1
      have : ∀ (b lo n : Nat), ((List.range' lo n).map (fun x => if (b == x) = true then 1 else 0)).sum
          = if lo ≤ b ∧ b < lo + n then 1 else 0 := by
        intro b lo n
        induction n generalizing lo with
        | zero => simp
        | succ n ihn =>
          rw [List.range'_succ, List.map_cons, List.sum_cons, ihn]
          by_cases hb : b = lo
          · subst hb; simp
          · simp only [beq_iff_eq, hb, if_false]
            by_cases h2 : lo + 1 ≤ b ∧ b < lo + 1 + n
            · rw [if_pos h2, if_pos (by omega)]
            · rw [if_neg h2, if_neg (by omega)]
      rw [this]
      have := bitWidth_le_32 a
      by_cases hb : w < bitWidth a.toNat
      · rw [if_pos (by omega), if_pos hb]
      · rw [if_neg (by omega), if_neg hb]
    rw [hsum, ih]
    unfold outlierCount
    rw [List.countP_cons]
    congr 1
    have := bitWidth_le_iff (v := a.toNat) h1
    by_cases hb : w < bitWidth a.toNat
    · rw [if_pos hb, if_pos (by simp only [decide_eq_true_eq]; omega)]
    · rw [if_neg hb, if_neg (by simp only [decide_eq_true_eq]; omega)]

theorem cost_eq {A : List Word} {w : Nat} (h1 : 1 ≤ w) (hw : w ≤ 32) :
    cost A w = overflowSize A w := by
  unfold cost overflowSize cdiv gammaLen
  rw [overflowCount_eq h1 hw]
  congr 1

theorem outlierCount_zero {A : List Word} (hA : Admitted A) : outlierCount A 31 = 0 := by
  unfold outlierCount
  rw [List.countP_eq_zero]
  intro a ha
  have := (bitWidth_le_iff (by norm_num)).mp ((bitWidth_le_31_iff a).mpr (hA a ha))
  simp only [decide_eq_true_eq]; omega

theorem considerWidth_fold {A : List Word} (n : Nat) (hn : n ≤ 31) :
    (∃ v, 1 ≤ v ∧ v ≤ n ∧ outlierCount A v ≤ 2 ^ v) →
    ∃ w, (List.range' 1 n).foldl (considerWidth A) none = some w ∧ 1 ≤ w ∧ w ≤ n ∧
      outlierCount A w ≤ 2 ^ w ∧ ∀ v, 1 ≤ v → v ≤ n → outlierCount A v ≤ 2 ^ v →
        overflowSize A w ≤ overflowSize A v ∧ (v < w → overflowSize A w < overflowSize A v) := by
  induction n with
  | zero => rintro ⟨v, h1, h2, -⟩; omega
  | succ n ih =>
    intro hex
    rw [List.range'_concat]
    simp only [List.foldl_append, List.foldl_cons, List.foldl_nil, Nat.one_mul]
    rw [Nat.add_comm 1 n]
    have hoc : overflowCount A (n + 1) = outlierCount A (n + 1) :=
      overflowCount_eq (by omega) (by omega)
    have hcost : cost A (n + 1) = overflowSize A (n + 1) := cost_eq (by omega) (by omega)
    by_cases hprev : ∃ v, 1 ≤ v ∧ v ≤ n ∧ outlierCount A v ≤ 2 ^ v
    · obtain ⟨w, hw, h1, h2, h3, h4⟩ := ih (by omega) hprev
      rw [hw]
      unfold considerWidth
      simp only [hoc, hcost, cost_eq h1 (show w ≤ 32 by omega)]
      by_cases he : outlierCount A (n + 1) ≤ 2 ^ (n + 1)
      · rw [if_pos he]
        by_cases hlt : overflowSize A (n + 1) < overflowSize A w
        · rw [if_pos hlt]
          refine ⟨n + 1, rfl, by omega, le_rfl, he, fun v v1 v2 v3 => ?_⟩
          rcases Nat.lt_or_ge n v with hv | hv
          · rw [show v = n + 1 by omega]; exact ⟨le_rfl, fun h => absurd h (by omega)⟩
          · have := h4 v v1 hv v3; exact ⟨by omega, fun _ => by omega⟩
        · rw [if_neg hlt]
          refine ⟨w, rfl, h1, by omega, h3, fun v v1 v2 v3 => ?_⟩
          rcases Nat.lt_or_ge n v with hv | hv
          · rw [show v = n + 1 by omega]; exact ⟨by omega, fun h => absurd h (by omega)⟩
          · exact h4 v v1 hv v3
      · rw [if_neg he]
        refine ⟨w, rfl, h1, by omega, h3, fun v v1 v2 v3 => ?_⟩
        rcases Nat.lt_or_ge n v with hv | hv
        · rw [show v = n + 1 by omega] at v3; exact absurd v3 he
        · exact h4 v v1 hv v3
    · have hnone : (List.range' 1 n).foldl (considerWidth A) none = none := by
        have : ∀ k, k ≤ n → (List.range' 1 k).foldl (considerWidth A) none = none := by
          intro k
          induction k with
          | zero => intro _; rfl
          | succ k ihk =>
            intro hk
            rw [List.range'_concat]
            simp only [List.foldl_append, List.foldl_cons, List.foldl_nil, Nat.one_mul]
            rw [ihk (by omega)]
            unfold considerWidth
            rw [if_neg]
            intro hc
            rw [overflowCount_eq (by omega) (by omega)] at hc
            exact hprev ⟨1 + k, by omega, by omega, hc⟩
        exact this n le_rfl
      rw [hnone]
      obtain ⟨v, v1, v2, v3⟩ := hex
      have hv : v = n + 1 := by
        by_contra hne; exact hprev ⟨v, v1, by omega, v3⟩
      subst hv
      unfold considerWidth
      rw [hoc, if_pos v3]
      refine ⟨n + 1, rfl, by omega, le_rfl, v3, fun v v1 v2 v3 => ?_⟩
      have hv : v = n + 1 := by
        by_contra hne; exact hprev ⟨v, v1, by omega, v3⟩
      subst hv; exact ⟨le_rfl, fun h => absurd h (by omega)⟩

/-- The overflow selector answers the eligible width of least size and its outlier count (R134). -/
theorem overflowSelect_spec {A : List Word} (hA : Admitted A) :
    IsOverflowWidth A (overflowSelect A).1 ∧
      (overflowSelect A).2 = outlierCount A (overflowSelect A).1 := by
  obtain ⟨w, hw, h1, h2, h3, h4⟩ := considerWidth_fold (A := A) 31 le_rfl
    ⟨31, by omega, le_rfl, by rw [outlierCount_zero hA]; positivity⟩
  have : overflowSelect A = (w, overflowCount A w) := by simp [overflowSelect, hw]
  rw [this]
  exact ⟨⟨h1, h2, h3, h4⟩, overflowCount_eq h1 (by omega)⟩

end Sys2Proof.Machine
end

