-- ==== Sys2Proof/Laws/Layout.lean ====
section
/-! SUPPORT. What a compress command leaves in PBUF: the zeroed words, the fields of a layout, and
the arithmetic of the three layouts (spec 43_nonspanning.md R140 to R144, 44_spanning.md R160 to
R163, 45_overflow.md R180 to R184). -/

namespace Sys2Proof.Machine

open Sys2Proof

theorem Memory.read_of_mem {m : Memory} (h : m.wf) {i : Nat} {v : Word} (hm : (i, v) ∈ m) :
    m.read i = some v := by
  induction m with
  | nil => simp at hm
  | cons c m ih =>
    have h' := List.pairwise_cons.mp h
    obtain ⟨a, w⟩ := c
    rcases List.mem_cons.mp hm with heq | hm
    · cases heq; simp [Memory.read]
    · have hlt : a < i := h'.1 _ hm
      simp only [Memory.read]
      rw [if_neg (by omega)]
      exact ih h'.2 hm

/-- A canonical memory is below a capacity exactly when every word that holds a value is. -/
theorem Memory.below_iff {m : Memory} (h : m.wf) {cap : Nat} :
    m.below cap ↔ ∀ i, m.has i → i < cap := by
  constructor
  · intro hb i hi
    obtain ⟨v, hv⟩ := Memory.has_iff.mp hi
    exact hb _ (Memory.read_some_mem hv)
  · intro hh c hc
    obtain ⟨i, v⟩ := c
    exact hh i (Memory.has_iff.mpr ⟨v, Memory.read_of_mem h hc⟩)

theorem Memory.has_store {m : Memory} {i j : Nat} {vs : List Word} :
    (m.store i vs).has j ↔ (i ≤ j ∧ j < i + vs.length) ∨ m.has j := by
  unfold Memory.has
  rw [Memory.read_store]
  split
  · rename_i h
    simp only [h, and_self, true_or, iff_true]
    rw [List.getElem?_eq_getElem (by omega)]; simp
  · rename_i h
    simp only [h, false_or]

theorem Memory.bit_zeroed {m : Memory} {words q : Nat} (hq : q < 32 * words) :
    (m.store 0 (List.replicate words 0)).bit q = false := by
  have hr : (m.store 0 (List.replicate words 0)).read (q / 32) = some 0 := by
    rw [Memory.read_store, if_pos (by simp; omega), Nat.sub_zero, List.getElem?_replicate,
      if_pos (by omega)]
  rw [Memory.bit_of_read hr]; simp

/-- What a packed buffer holds (R66): its words hold values, its fields hold theirs, every other bit
of its words is 0, and the words above stay. -/
theorem packBuffer_ok {s : State} {words : Nat} {fs : List Field} {m : Memory}
    (h : packBuffer s words fs = .ok m) (hn : ∀ f ∈ fs, f.width ≤ 32)
    (hin : ∀ f ∈ fs, ∀ q, f.covers q → q < 32 * words) :
    words ≤ s.capPbuf.toNat ∧ (∀ i, m.has i ↔ i < words ∨ s.pbuf.has i) ∧ (s.pbuf.wf → m.wf) ∧
      (∀ q, q < 32 * words → (∀ f ∈ fs, ¬ f.covers q) → m.bit q = false) ∧
      (∀ i, words ≤ i → m.read i = s.pbuf.read i) ∧
      (fs.Pairwise Field.disjoint →
        ∀ f ∈ fs, ∀ q, f.covers q → m.bit q = f.value.testBit (q - f.pos)) := by
  unfold packBuffer at h
  split at h
  · cases h
  rename_i hcap
  obtain ⟨hh, hw, hz, hf⟩ := writeFields_spec h hn
  have hh' : ∀ i, m.has i ↔ i < words ∨ s.pbuf.has i := by
    intro i
    rw [hh i, Memory.has_store]
    simp
  refine ⟨by simp only [uint] at hcap; omega, hh', fun hwf => hw (Memory.wf_store hwf _ _),
    fun q hq hn => ?_, fun i hi => ?_, hf⟩
  · rw [hz q hn, Memory.bit_zeroed hq]
  · have hs : (s.pbuf.store 0 (List.replicate words 0)).read i = s.pbuf.read i := by
      rw [Memory.read_store, if_neg (by simp; omega)]
    rw [← hs]
    refine Memory.read_congr (hh i) fun j hj => ?_
    apply hz
    intro f hfm hc
    have := hin f hfm _ hc
    omega

/-- A packed buffer that fits PBUF and whose fields lie in it is answered. -/
theorem packBuffer_exists {s : State} {words : Nat} {fs : List Field}
    (hcap : words ≤ s.capPbuf.toNat) (hn : ∀ f ∈ fs, 1 ≤ f.width ∧ f.width ≤ 32)
    (hin : ∀ f ∈ fs, ∀ q, f.covers q → q < 32 * words) : ∃ m, packBuffer s words fs = .ok m := by
  unfold packBuffer
  rw [if_neg (by simp only [uint]; omega)]
  refine writeFields_exists hn fun f hf q hq => ?_
  rw [Memory.has_store]
  left
  have := hin f hf q hq
  simp; omega

/-- The ways packing can stop: the model's fault, and no other where the fields lie in the buffer. -/
theorem packBuffer_error {s : State} {words : Nat} {fs : List Field} {e : Stop}
    (h : packBuffer s words fs = .error e) (hn : ∀ f ∈ fs, 1 ≤ f.width ∧ f.width ≤ 32)
    (hin : ∀ f ∈ fs, ∀ q, f.covers q → q < 32 * words) :
    s.capPbuf.toNat < words ∧ e = .fault (.pbufOverrun words) := by
  by_cases hcap : words ≤ s.capPbuf.toNat
  · obtain ⟨m, hm⟩ := packBuffer_exists hcap hn hin
    rw [hm] at h; cases h
  · unfold packBuffer at h
    rw [if_pos (by simp only [uint]; omega)] at h
    cases h
    exact ⟨by omega, rfl⟩

/-- A field that holds a value below `2^width` reads as it. -/
theorem field_of_holds {m : Memory} {f : Field} (hv : f.value < 2 ^ f.width)
    (h : ∀ q, f.covers q → m.bit q = f.value.testBit (q - f.pos)) :
    m.field f.pos f.width = f.value :=
  Memory.field_of_bits hv fun j hj => by
    rw [h (f.pos + j) ⟨by omega, by omega⟩]
    congr 1; omega

/-! The Header. -/

theorem mem_headerFields {w pad : Nat} {f : Field} :
    f ∈ headerFields w pad ↔ f = ⟨0, 5, w⟩ ∨ f = ⟨5, 5, pad⟩ := by
  simp [headerFields]

theorem headerFields_covers {w pad q : Nat} :
    (∃ f ∈ headerFields w pad, f.covers q) ↔ q < 10 := by
  simp only [mem_headerFields, exists_eq_or_imp, exists_eq_left, Field.covers]
  omega

theorem headerFields_pairwise (w pad : Nat) : (headerFields w pad).Pairwise Field.disjoint := by
  simp only [headerFields, List.pairwise_cons, List.mem_singleton, forall_eq, List.not_mem_nil,
    IsEmpty.forall_iff, implies_true, List.Pairwise.nil, and_self, and_true]
  intro q h1 h2
  simp only [Field.covers] at h1 h2
  omega

/-- Lists of fields that share no position, joined. -/
theorem pairwise_append_of_covers {fs gs : List Field} (hf : fs.Pairwise Field.disjoint)
    (hg : gs.Pairwise Field.disjoint)
    (h : ∀ q, (∃ f ∈ fs, f.covers q) → ¬ ∃ g ∈ gs, g.covers q) :
    (fs ++ gs).Pairwise Field.disjoint :=
  List.pairwise_append.mpr ⟨hf, hg, fun f hf' g hg' q h1 h2 => h q ⟨f, hf', h1⟩ ⟨g, hg', h2⟩⟩

/-- The positions a run of element fields covers. -/
theorem elementFields_covers {pos : Nat → Nat} {w i : Nat} {A : List Word} {q : Nat} :
    (∃ f ∈ elementFields pos w i A, f.covers q) ↔
      ∃ j, j < A.length ∧ pos (i + j) ≤ q ∧ q < pos (i + j) + w := by
  constructor
  · rintro ⟨f, hf, hq⟩
    obtain ⟨j, hj, rfl⟩ := mem_elementFields.mp hf
    exact ⟨j, hj, hq⟩
  · rintro ⟨j, hj, hq⟩
    exact ⟨_, mem_elementFields.mpr ⟨j, hj, rfl⟩, hq⟩

theorem elementFields_width {pos : Nat → Nat} {w i : Nat} {A : List Word} {f : Field}
    (h : f ∈ elementFields pos w i A) : f.width = w := by
  obtain ⟨j, hj, rfl⟩ := mem_elementFields.mp h
  rfl

/-! The non-spanning layout. -/

/-- The arithmetic of a width's chunk slots (R140). -/
theorem ns_slots {w : Nat} (h1 : 1 ≤ w) (hw : w ≤ 31) :
    1 ≤ nsCpw w ∧ nsCpw w ≤ 32 ∧ nsCpw w * w ≤ 32 ∧ 10 ≤ nsHeaderSlots w * w ∧
      nsHeaderSlots w ≤ nsCpw w ∧ 1 ≤ nsHeaderSlots w := by
  interval_cases w <;> simp [nsCpw, nsHeaderSlots, cdiv]

/-- The word count and the padding counter of the non-spanning layout (R142, R143). -/
theorem ns_words {w : Nat} (n : Nat) (h1 : 1 ≤ w) (hw : w ≤ 31) :
    n + nsHeaderSlots w ≤ nsWords w n * nsCpw w ∧
      nsWords w n * nsCpw w < n + nsHeaderSlots w + nsCpw w ∧ nsWords w n ≤ n + 1 ∧
      1 ≤ nsWords w n ∧ nsPad w n < 32 ∧
      nsPad w n + nsHeaderSlots w + n = nsWords w n * nsCpw w := by
  obtain ⟨c1, c2, c3, c4, c5, c6⟩ := ns_slots h1 hw
  have hwords : nsWords w n = (n + nsHeaderSlots w + nsCpw w - 1) / nsCpw w := rfl
  have hpad : nsPad w n = nsWords w n * nsCpw w - nsHeaderSlots w - n := rfl
  generalize nsHeaderSlots w = h at *
  generalize nsCpw w = c at *
  generalize nsWords w n = k at *
  generalize nsPad w n = pad at *
  have e1 := Nat.div_add_mod (n + h + c - 1) c
  have e2 := Nat.mod_lt (n + h + c - 1) (show c > 0 by omega)
  rw [← hwords, Nat.mul_comm] at e1
  have e3 : k ≤ n + 1 := by
    by_contra hc
    have h2 : (n + 2) * c ≤ k * c := Nat.mul_le_mul_right c (by omega)
    have h3 : n * 1 ≤ n * c := Nat.mul_le_mul_left n c1
    rw [Nat.add_mul] at h2
    omega
  have e4 : 1 ≤ k := by
    by_contra hc
    have : k = 0 := by omega
    subst this
    omega
  omega

theorem ns_slot_fits {w t : Nat} (h1 : 1 ≤ w) (hw : w ≤ 31) :
    t % nsCpw w * w + w ≤ 32 := by
  obtain ⟨c1, -, c3, -⟩ := ns_slots h1 hw
  have hm := Nat.mod_lt t (show nsCpw w > 0 by omega)
  have : (t % nsCpw w + 1) * w ≤ nsCpw w * w := Nat.mul_le_mul_right w hm
  rw [Nat.add_mul] at this
  omega

/-- Later slots lie above earlier ones (R140). -/
theorem nsSlotPos_lt {w t u : Nat} (h1 : 1 ≤ w) (hw : w ≤ 31) (h : t < u) :
    nsSlotPos w t + w ≤ nsSlotPos w u := by
  obtain ⟨c1, -, -⟩ := ns_slots h1 hw
  have f1 := ns_slot_fits (t := t) h1 hw
  unfold nsSlotPos
  rcases Nat.lt_or_ge (t / nsCpw w) (u / nsCpw w) with hd | hd
  · have : 32 * (t / nsCpw w) + 32 ≤ 32 * (u / nsCpw w) := by omega
    omega
  · have e1 := Nat.div_add_mod t (nsCpw w)
    have e2 := Nat.div_add_mod u (nsCpw w)
    have e3 : nsCpw w * (u / nsCpw w) ≤ nsCpw w * (t / nsCpw w) := Nat.mul_le_mul_left _ hd
    have hdiv : t / nsCpw w = u / nsCpw w := le_antisymm (Nat.div_le_div_right h.le) hd
    have hm : t % nsCpw w + 1 ≤ u % nsCpw w := by omega
    have : (t % nsCpw w + 1) * w ≤ u % nsCpw w * w := Nat.mul_le_mul_right w hm
    rw [Nat.add_mul] at this
    rw [hdiv]
    omega

/-- An element lies above the Header and inside the buffer (R141). -/
theorem nsElementPos_bounds {w i n : Nat} (h1 : 1 ≤ w) (hw : w ≤ 31) {words : Nat}
    (hn : nsHeaderSlots w + n ≤ words * nsCpw w) (hi : i < n) :
    10 ≤ nsElementPos w i ∧ nsElementPos w i + w ≤ 32 * words ∧
      nsElementPos w i / 32 = (nsHeaderSlots w + i) / nsCpw w ∧
      (nsHeaderSlots w + i) / nsCpw w < words := by
  obtain ⟨c1, c2, c3, c4, c5, c6⟩ := ns_slots h1 hw
  have f1 := ns_slot_fits (t := nsHeaderSlots w + i) h1 hw
  have hd : (nsHeaderSlots w + i) / nsCpw w < words := by
    rw [Nat.div_lt_iff_lt_mul (by omega)]; omega
  unfold nsElementPos nsSlotPos
  refine ⟨?_, by omega, by omega, hd⟩
  by_cases hz : (nsHeaderSlots w + i) / nsCpw w = 0
  · have e1 := Nat.div_add_mod (nsHeaderSlots w + i) (nsCpw w)
    rw [hz] at e1
    have : nsHeaderSlots w * w ≤ (nsHeaderSlots w + i) % nsCpw w * w :=
      Nat.mul_le_mul_right w (by omega)
    omega
  · omega

/-- The bits of an element stand in its one word (R140). -/
theorem nsElementPos_word {w i q : Nat} (h1 : 1 ≤ w) (hw : w ≤ 31) (h2 : nsElementPos w i ≤ q)
    (h3 : q < nsElementPos w i + w) : NsElementWord w i (q / 32) := by
  have f1 := ns_slot_fits (t := nsHeaderSlots w + i) h1 hw
  unfold nsElementPos nsSlotPos at h2 h3
  show q / 32 = (nsHeaderSlots w + i) / nsCpw w
  omega

/-- The fields of a non-spanning buffer. -/
def nsFields (A : List Word) (w : Nat) : List Field :=
  headerFields w (nsPad w A.length) ++ elementFields (nsElementPos w) w 0 A

theorem nsFields_ok {A : List Word} {w : Nat} (h1 : 1 ≤ w) (hw : w ≤ 31) :
    (∀ f ∈ nsFields A w, 1 ≤ f.width ∧ f.width ≤ 32) ∧
      (∀ f ∈ nsFields A w, ∀ q, f.covers q → q < 32 * nsWords w A.length) ∧
      (nsFields A w).Pairwise Field.disjoint := by
  obtain ⟨w1, w2, w3, w4, w5, w6⟩ := ns_words A.length h1 hw
  have hb : ∀ i, i < A.length → _ := fun i hi =>
    nsElementPos_bounds (n := A.length) h1 hw (words := nsWords w A.length) (by omega) hi
  refine ⟨fun f hf => ?_, fun f hf q hq => ?_, ?_⟩
  · rcases List.mem_append.mp hf with hf | hf
    · rcases mem_headerFields.mp hf with rfl | rfl <;> simp
    · rw [elementFields_width hf]; omega
  · rcases List.mem_append.mp hf with hf | hf
    · have := headerFields_covers.mp ⟨f, hf, hq⟩; omega
    · obtain ⟨j, hj, h2, h3⟩ := elementFields_covers.mp ⟨f, hf, hq⟩
      rw [Nat.zero_add] at h3
      have := (hb j hj).2.1; omega
  · refine pairwise_append_of_covers (headerFields_pairwise _ _) ?_ fun q hq hq' => ?_
    · refine elementFields_pairwise fun j k _ hjk _ => .inl ?_
      exact nsSlotPos_lt h1 hw (by omega)
    · have := headerFields_covers.mp hq
      obtain ⟨j, hj, h2, h3⟩ := elementFields_covers.mp hq'
      rw [Nat.zero_add] at h2
      have := (hb j hj).1; omega

/-! The spanning layout. -/

/-- The word count and the padding counter of the spanning layout (R161, R162). -/
theorem sp_words {w n : Nat} (hw : w ≤ 31) :
    spUnused w n + 10 + n * w = 32 * spWords w n ∧ spUnused w n < 32 ∧ spWords w n ≤ n + 1 ∧
      1 ≤ spWords w n := by
  have : n * w ≤ n * 31 := Nat.mul_le_mul_left n hw
  unfold spUnused spWords cdiv
  omega

/-- The fields of a spanning buffer. -/
def spFields (A : List Word) (w : Nat) : List Field :=
  headerFields w (spUnused w A.length) ++ elementFields (spElementPos w) w 0 A

theorem spElementPos_bounds {w i n : Nat} (hi : i < n) :
    10 ≤ spElementPos w i ∧ spElementPos w i + w ≤ 10 + n * w := by
  have : (i + 1) * w ≤ n * w := Nat.mul_le_mul_right w hi
  rw [Nat.add_mul, Nat.one_mul, Nat.mul_comm] at this
  unfold spElementPos
  omega

theorem spElementPos_lt {w i j : Nat} (h : i < j) : spElementPos w i + w ≤ spElementPos w j := by
  have : w * (i + 1) ≤ w * j := Nat.mul_le_mul_left w h
  rw [Nat.mul_add] at this
  unfold spElementPos
  omega

theorem spFields_ok {A : List Word} {w : Nat} (h1 : 1 ≤ w) (hw : w ≤ 31) :
    (∀ f ∈ spFields A w, 1 ≤ f.width ∧ f.width ≤ 32) ∧
      (∀ f ∈ spFields A w, ∀ q, f.covers q → q < 32 * spWords w A.length) ∧
      (spFields A w).Pairwise Field.disjoint := by
  obtain ⟨w1, w2, w3, w4⟩ := sp_words (w := w) (n := A.length) hw
  refine ⟨fun f hf => ?_, fun f hf q hq => ?_, ?_⟩
  · rcases List.mem_append.mp hf with hf | hf
    · rcases mem_headerFields.mp hf with rfl | rfl <;> simp
    · rw [elementFields_width hf]; omega
  · rcases List.mem_append.mp hf with hf | hf
    · have := headerFields_covers.mp ⟨f, hf, hq⟩; omega
    · obtain ⟨j, hj, h2, h3⟩ := elementFields_covers.mp ⟨f, hf, hq⟩
      rw [Nat.zero_add] at h3
      have := (spElementPos_bounds (w := w) hj).2; omega
  · refine pairwise_append_of_covers (headerFields_pairwise _ _) ?_ fun q hq hq' => ?_
    · exact elementFields_pairwise fun j k _ hjk _ => .inl (spElementPos_lt hjk)
    · have := headerFields_covers.mp hq
      obtain ⟨j, hj, h2, h3⟩ := elementFields_covers.mp hq'
      rw [Nat.zero_add] at h2
      have := (spElementPos_bounds (w := w) hj).1; omega

/-! The overflow layout. -/

theorem ovOutliers_length {A : List Word} {w : Nat} (h1 : 1 ≤ w) :
    (ovOutliers w A).length = outlierCount A w := by
  unfold ovOutliers outlierCount
  rw [← List.countP_eq_length_filter]
  apply List.countP_congr
  intro a _
  have := bitWidth_le_iff (v := a.toNat) h1
  simp only [decide_eq_true_eq]
  omega

theorem ovMarkers_length (w : Nat) (A : List Word) : (ovMarkers w A).length = A.length := by
  simp [ovMarkers]

theorem ovScratch_length (w slot : Nat) (A : List Word) :
    (ovScratch w slot A).length = A.length := by
  induction A generalizing slot with
  | nil => rfl
  | cons a A ih => simp only [ovScratch]; split <;> simp [ih]

/-- The payload of an element: its value inline, else the number of outliers before it (R181,
R182). -/
theorem ovScratch_get {w slot : Nat} {A : List Word} (h1 : 1 ≤ w) {i : Nat} {a : Word}
    (h : A[i]? = some a) :
    (ovScratch w slot A)[i]? = some (if a.toNat < 2 ^ w then a
      else BitVec.ofNat 32 (slot + outlierCount (A.take i) w)) := by
  induction A generalizing slot i with
  | nil => simp at h
  | cons b A ih =>
    have hb := bitWidth_le_iff (v := b.toNat) h1
    cases i with
    | zero =>
      simp only [List.getElem?_cons_zero, Option.some.injEq] at h
      subst h
      simp only [ovScratch, hb, List.take_zero, outlierCount, List.countP_nil, Nat.add_zero]
      split <;> simp
    | succ i =>
      simp only [List.getElem?_cons_succ] at h
      simp only [ovScratch, List.take_succ_cons, outlierCount, List.countP_cons, hb]
      split
      · rename_i hlt
        rw [List.getElem?_cons_succ, ih h]
        have : ¬ (2 ^ w ≤ b.toNat) := by omega
        simp [this, outlierCount]
      · rename_i hlt
        rw [List.getElem?_cons_succ, ih h]
        have : 2 ^ w ≤ b.toNat := by omega
        simp only [this, decide_true, if_true, outlierCount]
        congr 3
        omega

/-- The outlier with slot index `j` is the one with `j` outliers before it (R182). -/
theorem ovOutliers_get {w : Nat} {A : List Word} (h1 : 1 ≤ w) {i : Nat} {a : Word}
    (h : A[i]? = some a) (ha : 2 ^ w ≤ a.toNat) :
    (ovOutliers w A)[outlierCount (A.take i) w]? = some a := by
  induction A generalizing i with
  | nil => simp at h
  | cons b A ih =>
    have hb := bitWidth_le_iff (v := b.toNat) h1
    cases i with
    | zero =>
      simp only [List.getElem?_cons_zero, Option.some.injEq] at h
      subst h
      have hp : decide (¬ bitWidth b.toNat ≤ w) = true := decide_eq_true (by omega)
      unfold ovOutliers
      rw [List.filter_cons, if_pos hp]
      rfl
    | succ i =>
      simp only [List.getElem?_cons_succ] at h
      have := ih h
      unfold ovOutliers outlierCount at *
      rw [List.take_succ_cons, List.countP_cons, List.filter_cons]
      by_cases hlt : b.toNat < 2 ^ w
      · have h2 : ¬ (2 ^ w ≤ b.toNat) := by omega
        simp only [hb, hlt, h2, not_true_eq_false, decide_false, Bool.false_eq_true, if_false,
          Nat.add_zero]
        exact this
      · have h2 : 2 ^ w ≤ b.toNat := by omega
        simp only [hb, hlt, h2, not_false_eq_true, decide_true, if_true, List.getElem?_cons_succ]
        exact this

theorem outlierCount_take_lt {w : Nat} {A : List Word} {i : Nat} {a : Word}
    (h1 : 1 ≤ w) (h : A[i]? = some a) (ha : 2 ^ w ≤ a.toNat) :
    outlierCount (A.take i) w < outlierCount A w := by
  have hlt := (List.getElem?_eq_some_iff.mp (ovOutliers_get h1 h ha)).1
  rwa [ovOutliers_length h1] at hlt

theorem outlierCount_le_length (A : List Word) (w : Nat) : outlierCount A w ≤ A.length :=
  List.countP_le_length

/-- The sizes of the overflow layout (R183): the padding counter, and the buffer's size in bits,
which is the selector's cost (R132). -/
theorem ov_words {A : List Word} {w oc : Nat} (hoc : oc = outlierCount A w) :
    ovUnused w oc A.length + ovStreamStart oc + A.length * (w + 1) =
        32 * ovMainWords w oc A.length ∧
      ovUnused w oc A.length < 32 ∧ 1 ≤ ovMainWords w oc A.length ∧
      32 * (ovMainWords w oc A.length + oc) = overflowSize A w ∧
      ovStreamStart oc = 10 + gammaLen (oc + 1) := by
  subst hoc
  unfold ovUnused ovMainWords ovStreamStart overflowSize gammaLen cdiv
  generalize Nat.log2 (outlierCount A w + 1) = k
  generalize A.length * (w + 1) = x
  omega

theorem mem_ovFields_covers {A : List Word} {w oc L q : Nat} (h1 : 1 ≤ w) (hoc : oc = outlierCount A w)
    (hq : ∃ f ∈ ovFields A w oc L, f.covers q) :
    q < ovStreamStart oc + A.length * (w + 1) ∨
      ∃ j, j < oc ∧ 32 * (L - 1 - j) ≤ q ∧ q < 32 * (L - 1 - j) + 32 := by
  obtain ⟨f, hf, hq⟩ := hq
  have hE : ovStreamStart oc = 10 + gammaLen (oc + 1) := rfl
  simp only [ovFields, List.mem_append] at hf
  have hmul : ∀ j, j < A.length → j * (w + 1) + (w + 1) ≤ A.length * (w + 1) := by
    intro j hj
    have := Nat.mul_le_mul_right (w + 1) hj
    rwa [Nat.succ_mul] at this
  rcases hf with (((hf | hf) | hf) | hf) | hf
  · have := headerFields_covers.mp ⟨f, hf, hq⟩; left; omega
  · have := gammaFields_covers.mp ⟨f, hf, hq⟩; left; omega
  · obtain ⟨j, hj, h2, h3⟩ := elementFields_covers.mp ⟨f, hf, hq⟩
    rw [ovMarkers_length] at hj
    simp only [Nat.zero_add] at h3
    have := hmul j hj; left; omega
  · obtain ⟨j, hj, h2, h3⟩ := elementFields_covers.mp ⟨f, hf, hq⟩
    rw [ovScratch_length] at hj
    simp only [Nat.zero_add] at h3
    have := hmul j hj; left; omega
  · obtain ⟨j, hj, h2, h3⟩ := elementFields_covers.mp ⟨f, hf, hq⟩
    rw [ovOutliers_length h1] at hj
    simp only [Nat.zero_add] at h2 h3
    exact .inr ⟨j, by omega, h2, h3⟩

theorem ovFields_ok {A : List Word} {w oc : Nat} (h1 : 1 ≤ w) (hw : w ≤ 31)
    (hoc : oc = outlierCount A w) :
    (∀ f ∈ ovFields A w oc (ovMainWords w oc A.length + oc), 1 ≤ f.width ∧ f.width ≤ 32) ∧
      (∀ f ∈ ovFields A w oc (ovMainWords w oc A.length + oc), ∀ q, f.covers q →
        q < 32 * (ovMainWords w oc A.length + oc)) ∧
      (ovFields A w oc (ovMainWords w oc A.length + oc)).Pairwise Field.disjoint := by
  obtain ⟨w1, w2, w3, -, hE⟩ := ov_words (A := A) (w := w) hoc
  have hmul : ∀ j k, j < k → j * (w + 1) + (w + 1) ≤ k * (w + 1) := by
    intro j k hj
    have := Nat.mul_le_mul_right (w + 1) hj
    rwa [Nat.succ_mul] at this
  refine ⟨fun f hf => ?_, fun f hf q hq => ?_, ?_⟩
  · simp only [ovFields, List.mem_append] at hf
    rcases hf with (((hf | hf) | hf) | hf) | hf
    · rcases mem_headerFields.mp hf with rfl | rfl <;> simp
    · rw [gammaFields_width hf]; omega
    · rw [elementFields_width hf]; omega
    · rw [elementFields_width hf]; omega
    · rw [elementFields_width hf]; omega
  · rcases mem_ovFields_covers h1 hoc ⟨f, hf, hq⟩ with h | ⟨j, hj, h2, h3⟩ <;> omega
  · generalize hL : ovMainWords w oc A.length + oc = L
    unfold ovFields
    simp only
    refine pairwise_append_of_covers (pairwise_append_of_covers (pairwise_append_of_covers
      (pairwise_append_of_covers (headerFields_pairwise _ _) (gammaFields_pairwise _ _) ?_)
      ?_ ?_) ?_ ?_) ?_ ?_
    · intro q hq hq'
      have := headerFields_covers.mp hq
      have := gammaFields_covers.mp hq'
      omega
    · exact elementFields_pairwise fun j k _ hjk _ => .inl (by have := hmul j k hjk; omega)
    · rintro q ⟨f, hf, hq⟩ hq'
      obtain ⟨j, hj, h2, h3⟩ := elementFields_covers.mp hq'
      rcases List.mem_append.mp hf with hf | hf
      · have := headerFields_covers.mp ⟨f, hf, hq⟩; omega
      · have := gammaFields_covers.mp ⟨f, hf, hq⟩; omega
    · exact elementFields_pairwise fun j k _ hjk _ => .inl (by have := hmul j k hjk; omega)
    · rintro q ⟨f, hf, hq⟩ hq'
      obtain ⟨j, hj, h2, h3⟩ := elementFields_covers.mp hq'
      rw [ovScratch_length] at hj
      simp only [List.mem_append] at hf
      rcases hf with (hf | hf) | hf
      · have := headerFields_covers.mp ⟨f, hf, hq⟩; omega
      · have := gammaFields_covers.mp ⟨f, hf, hq⟩; omega
      · obtain ⟨k, hk, h4, h5⟩ := elementFields_covers.mp ⟨f, hf, hq⟩
        simp only [Nat.zero_add] at h2 h3 h4 h5
        rcases Nat.lt_trichotomy j k with hjk | rfl | hjk
        · have := hmul j k hjk; omega
        · omega
        · have := hmul k j hjk; omega
    · refine elementFields_pairwise fun j k _ hjk hk => .inr ?_
      rw [ovOutliers_length h1] at hk
      omega
    · rintro q ⟨f, hf, hq⟩ hq'
      obtain ⟨j, hj, h2, h3⟩ := elementFields_covers.mp hq'
      rw [ovOutliers_length h1] at hj
      simp only [Nat.zero_add] at h2 h3
      have hlt : ∀ i, i < A.length → _ := fun i hi => hmul i A.length hi
      simp only [List.mem_append] at hf
      rcases hf with ((hf | hf) | hf) | hf
      · have := headerFields_covers.mp ⟨f, hf, hq⟩; omega
      · have := gammaFields_covers.mp ⟨f, hf, hq⟩; omega
      · obtain ⟨k, hk, h4, h5⟩ := elementFields_covers.mp ⟨f, hf, hq⟩
        rw [ovMarkers_length] at hk
        simp only [Nat.zero_add] at h4 h5
        have := hlt k hk; omega
      · obtain ⟨k, hk, h4, h5⟩ := elementFields_covers.mp ⟨f, hf, hq⟩
        rw [ovScratch_length] at hk
        simp only [Nat.zero_add] at h4 h5
        have := hlt k hk; omega

end Sys2Proof.Machine
end

