-- ==== Sys2Proof/Laws/Header.lean ====
section
/-! SUPPORT. What the three decoders' headers and elements can answer: one lemma for each way
(spec 43_nonspanning.md R146, 44_spanning.md R164, 45_overflow.md R186, R187). -/

namespace Sys2Proof.Machine

open Sys2Proof

/-- A field of word 0 is answered where the word holds a value. -/
theorem readField_word0 {m : Memory} {p n : Nat} (h : m.has 0) (h1 : 1 ≤ n) (h2 : p + n ≤ 32) :
    readField m p n = .ok (m.field p n) :=
  readField_eq h1 (by omega) fun q h3 h4 => by rwa [show q / 32 = 0 by omega]

theorem readField_word0_error {m : Memory} {p n : Nat} {e : Stop} (h2 : p + n ≤ 32) (h1 : 1 ≤ n)
    (h : readField m p n = .error e) : e = .refuse (.noValue .pbuf 0) ∧ ¬ m.has 0 := by
  obtain ⟨i, rfl, hi, hc⟩ := readField_error h
  have : i = 0 := by omega
  subst this
  exact ⟨rfl, hi⟩

/-! The non-spanning header. -/

theorem nsHeader_empty {s : State} (h : s.pbufLen.toNat = 0) : nsHeader s = .ok ⟨0, 0⟩ := by
  simp [nsHeader, uint, h]

theorem nsHeader_ok {s : State} {hd : UniformHeader} (h : nsHeader s = .ok hd) :
    (s.pbufLen.toNat = 0 ∧ hd = ⟨0, 0⟩) ∨
    (s.pbufLen.toNat ≠ 0 ∧ hd.width = s.pbuf.field 0 5 ∧ 1 ≤ hd.width ∧ hd.width ≤ 31 ∧
      hd.len + nsHeaderSlots hd.width + s.pbuf.field 5 5 = s.pbufLen.toNat * nsCpw hd.width) := by
  unfold nsHeader at h
  split at h
  · cases h; exact .inl ⟨by assumption, rfl⟩
  · rename_i h0
    simp only [bind_ok_iff, pure_ok] at h
    obtain ⟨w, hw, pad, hp, _, h1, _, h2, h3⟩ := h
    have hw' := readField_ok_field (by norm_num) hw
    have hp' := readField_ok_field (by norm_num) hp
    have h1 : ¬ _ := check_ok_iff.mp h1
    have h2 : ¬ _ := check_ok_iff.mp h2
    have := Memory.field_lt s.pbuf 0 5
    cases h3
    subst hw' hp'
    simp only [uint] at *
    exact .inr ⟨h0, trivial, by omega, by omega, by omega⟩

theorem nsHeader_malformed {s : State} (hl : s.pbufLen.toNat ≠ 0) (h0 : s.pbuf.has 0)
    (h : s.pbuf.field 0 5 = 0 ∨ s.pbufLen.toNat * nsCpw (s.pbuf.field 0 5) <
      nsHeaderSlots (s.pbuf.field 0 5) + s.pbuf.field 5 5) :
    nsHeader s = .error (.raise .malformedBuffer) := by
  simp only [nsHeader, uint, hl, if_false, readField_word0 h0 (show 1 ≤ 5 by omega)
    (show 0 + 5 ≤ 32 by omega), readField_word0 h0 (show 1 ≤ 5 by omega)
    (show 5 + 5 ≤ 32 by omega), ok_bind]
  by_cases hz : s.pbuf.field 0 5 = 0
  · rw [check_pos hz]; rfl
  · rw [check_neg hz, ok_bind, check_pos (h.resolve_left hz)]; rfl

theorem nsHeader_eq {s : State} {L : Nat} (hl : s.pbufLen.toNat ≠ 0) (h0 : s.pbuf.has 0)
    (hw : s.pbuf.field 0 5 ≠ 0)
    (h : L + nsHeaderSlots (s.pbuf.field 0 5) + s.pbuf.field 5 5 =
      s.pbufLen.toNat * nsCpw (s.pbuf.field 0 5)) :
    nsHeader s = .ok ⟨s.pbuf.field 0 5, L⟩ := by
  simp only [nsHeader, uint, hl, if_false, readField_word0 h0 (show 1 ≤ 5 by omega)
    (show 0 + 5 ≤ 32 by omega), readField_word0 h0 (show 1 ≤ 5 by omega)
    (show 5 + 5 ≤ 32 by omega), ok_bind]
  rw [check_neg hw, ok_bind, check_neg (by omega), ok_bind, pure_ok, ← h]
  congr 2
  omega

theorem nsHeader_error {s : State} {e : Stop} (h : nsHeader s = .error e) :
    e = .raise .malformedBuffer ∨
      (s.pbufLen.toNat ≠ 0 ∧ e = .refuse (.noValue .pbuf 0) ∧ ¬ s.pbuf.has 0) := by
  unfold nsHeader at h
  split at h
  · cases h
  · rename_i hl
    simp only [bind_error_iff, pure_ok] at h
    rcases h with h | ⟨_, -, h | ⟨_, -, h | ⟨_, -, h | ⟨_, -, h⟩⟩⟩⟩
    · exact .inr ⟨hl, readField_word0_error (by omega) (by omega) h⟩
    · exact .inr ⟨hl, readField_word0_error (by omega) (by omega) h⟩
    · exact .inl (check_error_iff.mp h).2
    · exact .inl (check_error_iff.mp h).2
    · cases h

/-- Element `i` of a non-spanning buffer whose words hold values. -/
theorem nsElement_eq {s : State} {w i n : Nat} (h1 : 1 ≤ w) (hw : w ≤ 31)
    (hn : nsHeaderSlots w + n ≤ s.pbufLen.toNat * nsCpw w) (hi : i < n)
    (hh : ∀ j, j < s.pbufLen.toNat → s.pbuf.has j) :
    nsElement s w i = .ok (BitVec.ofNat 32 (s.pbuf.field (nsElementPos w i) w)) := by
  have hb := nsElementPos_bounds h1 hw hn hi
  rw [nsElement, readField_eq h1 (by omega) fun q h2 h3 => hh _ (by omega)]
  rfl

/-- An element that is answered stands in a word that holds a value. -/
theorem nsElement_ok_has {s : State} {w i k : Nat} {v : Word} (h1 : 1 ≤ w) (hw : w ≤ 31)
    (h : nsElement s w i = .ok v) (hk : NsElementWord w i k) : s.pbuf.has k := by
  obtain ⟨x, hx, -⟩ := bind_ok_iff.mp h
  have := readField_ok_has hx (by omega) le_rfl (show _ < _ + w by omega)
  rwa [show nsElementPos w i / 32 = k from
    (nsElementPos_word h1 hw le_rfl (by omega)).trans hk.symm] at this

theorem nsElement_error {s : State} {w i n : Nat} {e : Stop} (h1 : 1 ≤ w) (hw : w ≤ 31)
    (hn : nsHeaderSlots w + n ≤ s.pbufLen.toNat * nsCpw w) (hi : i < n)
    (h : nsElement s w i = .error e) :
    ∃ k, k < s.pbufLen.toNat ∧ NsElementWord w i k ∧ e = .refuse (.noValue .pbuf k) ∧
      ¬ s.pbuf.has k := by
  have hb := nsElementPos_bounds h1 hw hn hi
  rcases bind_error_iff.mp h with h | ⟨_, -, h⟩
  · obtain ⟨k, ⟨q, h2, h3, rfl⟩, he, hk⟩ := readField_error_word h1 h
    exact ⟨_, by omega, nsElementPos_word h1 hw h2 h3, he, hk⟩
  · cases h

/-! The spanning header. -/

theorem spHeader_empty {s : State} (h : s.pbufLen.toNat = 0) : spHeader s = .ok ⟨0, 0⟩ := by
  simp [spHeader, uint, h]

theorem spHeader_ok {s : State} {hd : UniformHeader} (h : spHeader s = .ok hd) :
    (s.pbufLen.toNat = 0 ∧ hd = ⟨0, 0⟩) ∨
    (s.pbufLen.toNat ≠ 0 ∧ hd.width = s.pbuf.field 0 5 ∧ 1 ≤ hd.width ∧ hd.width ≤ 31 ∧
      10 + s.pbuf.field 5 5 + hd.len * hd.width = 32 * s.pbufLen.toNat) := by
  unfold spHeader at h
  split at h
  · cases h; exact .inl ⟨by assumption, rfl⟩
  · rename_i h0
    simp only [bind_ok_iff, pure_ok] at h
    obtain ⟨w, hw, pad, hp, _, h1, _, h2, h3⟩ := h
    have hw' := readField_ok_field (by norm_num) hw
    have hp' := readField_ok_field (by norm_num) hp
    have h1 : ¬ _ := check_ok_iff.mp h1
    have h2 : ¬ _ := check_ok_iff.mp h2
    have := Memory.field_lt s.pbuf 0 5
    cases h3
    subst hw' hp'
    simp only [uint, not_or, not_not] at *
    have hdm := Nat.div_add_mod (32 * s.pbufLen.toNat - 10 - s.pbuf.field 5 5) (s.pbuf.field 0 5)
    rw [h2.2, Nat.mul_comm] at hdm
    exact .inr ⟨h0, trivial, by omega, by omega, by omega⟩

theorem spHeader_malformed {s : State} (hl : s.pbufLen.toNat ≠ 0) (h0 : s.pbuf.has 0)
    (h : s.pbuf.field 0 5 = 0 ∨ 32 * s.pbufLen.toNat < 10 + s.pbuf.field 5 5 ∨
      ∀ L, 10 + s.pbuf.field 5 5 + L * s.pbuf.field 0 5 ≠ 32 * s.pbufLen.toNat) :
    spHeader s = .error (.raise .malformedBuffer) := by
  simp only [spHeader, uint, hl, if_false, readField_word0 h0 (show 1 ≤ 5 by omega)
    (show 0 + 5 ≤ 32 by omega), readField_word0 h0 (show 1 ≤ 5 by omega)
    (show 5 + 5 ≤ 32 by omega), ok_bind]
  by_cases hz : s.pbuf.field 0 5 = 0
  · rw [check_pos hz]; rfl
  · rw [check_neg hz, ok_bind, check_pos ?_]
    · rfl
    · rcases h.resolve_left hz with h | h
      · exact .inl h
      · by_cases hlt : 32 * s.pbufLen.toNat < 10 + s.pbuf.field 5 5
        · exact .inl hlt
        · refine .inr fun hm => ?_
          have hdm := Nat.div_add_mod (32 * s.pbufLen.toNat - 10 - s.pbuf.field 5 5)
            (s.pbuf.field 0 5)
          rw [hm, Nat.mul_comm] at hdm
          exact h ((32 * s.pbufLen.toNat - 10 - s.pbuf.field 5 5) / s.pbuf.field 0 5) (by omega)

theorem spHeader_eq {s : State} {L : Nat} (hl : s.pbufLen.toNat ≠ 0) (h0 : s.pbuf.has 0)
    (hw : s.pbuf.field 0 5 ≠ 0)
    (h : 10 + s.pbuf.field 5 5 + L * s.pbuf.field 0 5 = 32 * s.pbufLen.toNat) :
    spHeader s = .ok ⟨s.pbuf.field 0 5, L⟩ := by
  have h2 : 32 * s.pbufLen.toNat - 10 - s.pbuf.field 5 5 = L * s.pbuf.field 0 5 := by omega
  simp only [spHeader, uint, hl, if_false, readField_word0 h0 (show 1 ≤ 5 by omega)
    (show 0 + 5 ≤ 32 by omega), readField_word0 h0 (show 1 ≤ 5 by omega)
    (show 5 + 5 ≤ 32 by omega), ok_bind]
  rw [check_neg hw, ok_bind, h2, check_neg (by rw [Nat.mul_mod_left]; omega), ok_bind, pure_ok,
    Nat.mul_div_cancel _ (by omega)]

theorem spHeader_error {s : State} {e : Stop} (h : spHeader s = .error e) :
    e = .raise .malformedBuffer ∨
      (s.pbufLen.toNat ≠ 0 ∧ e = .refuse (.noValue .pbuf 0) ∧ ¬ s.pbuf.has 0) := by
  unfold spHeader at h
  split at h
  · cases h
  · rename_i hl
    simp only [bind_error_iff, pure_ok] at h
    rcases h with h | ⟨_, -, h | ⟨_, -, h | ⟨_, -, h | ⟨_, -, h⟩⟩⟩⟩
    · exact .inr ⟨hl, readField_word0_error (by omega) (by omega) h⟩
    · exact .inr ⟨hl, readField_word0_error (by omega) (by omega) h⟩
    · exact .inl (check_error_iff.mp h).2
    · exact .inl (check_error_iff.mp h).2
    · cases h

/-- Element `i` of a spanning buffer whose words hold values. -/
theorem spElement_eq {s : State} {w i n : Nat} (h1 : 1 ≤ w) (hw : w ≤ 31)
    (hn : 10 + n * w ≤ 32 * s.pbufLen.toNat) (hi : i < n)
    (hh : ∀ j, j < s.pbufLen.toNat → s.pbuf.has j) :
    spElement s w i = .ok (BitVec.ofNat 32 (s.pbuf.field (spElementPos w i) w)) := by
  have hb := spElementPos_bounds (w := w) hi
  rw [spElement, readField_eq h1 (by omega) fun q h2 h3 => hh _ (by omega)]
  rfl

/-- An element that is answered stands in words that hold values. -/
theorem spElement_ok_has {s : State} {w i k : Nat} {v : Word} (hw : w ≤ 31)
    (h : spElement s w i = .ok v) (hk : SpElementWord w i k) : s.pbuf.has k := by
  obtain ⟨x, hx, -⟩ := bind_ok_iff.mp h
  obtain ⟨q, h1, h2, rfl⟩ := hk
  exact readField_ok_has hx (by omega) h1 h2

theorem spElement_error {s : State} {w i n : Nat} {e : Stop} (h1 : 1 ≤ w)
    (hn : 10 + n * w ≤ 32 * s.pbufLen.toNat) (hi : i < n) (h : spElement s w i = .error e) :
    ∃ k, k < s.pbufLen.toNat ∧ SpElementWord w i k ∧ e = .refuse (.noValue .pbuf k) ∧
      ¬ s.pbuf.has k := by
  have hb := spElementPos_bounds (w := w) hi
  rcases bind_error_iff.mp h with h | ⟨_, -, h⟩
  · obtain ⟨k, ⟨q, h2, h3, rfl⟩, he, hk⟩ := readField_error_word h1 h
    exact ⟨_, by omega, ⟨q, h2, h3, rfl⟩, he, hk⟩
  · cases h

/-! The overflow header. -/

theorem ovHeader_empty {s : State} (h : s.pbufLen.toNat = 0) : ovHeader s = .ok ⟨0, 0, 0, 0⟩ := by
  simp [ovHeader, uint, h]

theorem orMalformed_ok_iff {r : GammaRead} {n q : Nat} :
    orMalformed r = .ok (n, q) ↔ r = .value n q := by
  cases r <;> simp [orMalformed]

theorem orMalformed_error {r : GammaRead} {e : Stop} (h : orMalformed r = .error e) :
    e = .raise .malformedBuffer ∧ ∀ n q, r ≠ .value n q := by
  cases r <;> simp_all [orMalformed]

theorem GammaCodeAt.pos {m : Memory} {p k n : Nat} (h : GammaCodeAt m p k n) : 1 ≤ n :=
  le_trans Nat.one_le_two_pow h.1

theorem ovHeader_ok {s : State} {hd : OverflowHeader} (h : ovHeader s = .ok hd) :
    (s.pbufLen.toNat = 0 ∧ hd = ⟨0, 0, 0, 0⟩) ∨
    (s.pbufLen.toNat ≠ 0 ∧ hd.width = s.pbuf.field 0 5 ∧ 1 ≤ hd.width ∧ hd.width ≤ 31 ∧
      hd.oc < s.pbufLen.toNat ∧
      s.pbuf.field 5 5 + hd.start + hd.len * (hd.width + 1) = 32 * (s.pbufLen.toNat - hd.oc) ∧
      ∃ k, k ≤ 31 ∧ hd.start = 10 + (2 * k + 1) ∧ hd.start ≤ 32 * s.pbufLen.toNat ∧
        GammaCodeAt s.pbuf 10 k (hd.oc + 1)) := by
  unfold ovHeader at h
  split at h
  · cases h; exact .inl ⟨by assumption, rfl⟩
  · rename_i h0
    simp only [bind_ok_iff, pure_ok] at h
    obtain ⟨w, hw, pad, hp, _, h1, r, hr, ⟨m, E⟩, hm, _, h2, _, h3, h4⟩ := h
    have hw' := readField_ok_field (by norm_num) hw
    have hp' := readField_ok_field (by norm_num) hp
    rw [orMalformed_ok_iff.mp hm] at hr
    obtain ⟨k, hk, hE, hEl, hg⟩ := gammaRead_ok_value hr
    have h1 : ¬ _ := check_ok_iff.mp h1
    have h2 : ¬ _ := check_ok_iff.mp h2
    have h3 : ¬ _ := check_ok_iff.mp h3
    have := Memory.field_lt s.pbuf 0 5
    have := hg.pos
    cases h4
    subst hw' hp'
    simp only [uint, not_or, not_not] at *
    have hdm := Nat.div_add_mod (32 * (s.pbufLen.toNat - (m - 1)) - s.pbuf.field 5 5 - E)
      (s.pbuf.field 0 5 + 1)
    rw [h3.2, Nat.mul_comm] at hdm
    refine .inr ⟨h0, trivial, by omega, by omega, by omega, by omega, k, hk, by omega, hEl, ?_⟩
    rwa [show m - 1 + 1 = m by omega]

/-- A good overflow header whose words hold values (R186). -/
theorem ovHeader_eq {s : State} {k oc n : Nat} (hl : s.pbufLen.toNat ≠ 0)
    (hh : ∀ q, q < 10 + (2 * k + 1) → s.pbuf.has (q / 32)) (hw : s.pbuf.field 0 5 ≠ 0) (hk : k ≤ 31)
    (hE : 10 + (2 * k + 1) ≤ 32 * s.pbufLen.toNat) (hg : GammaCodeAt s.pbuf 10 k (oc + 1))
    (hoc : oc < s.pbufLen.toNat)
    (hn : s.pbuf.field 5 5 + (10 + (2 * k + 1)) + n * (s.pbuf.field 0 5 + 1) =
      32 * (s.pbufLen.toNat - oc)) :
    ovHeader s = .ok ⟨s.pbuf.field 0 5, oc, 10 + (2 * k + 1), n⟩ := by
  have h0 := hh 0 (by omega)
  have hr : gammaRead s.pbuf 10 (32 * s.pbufLen.toNat) = .ok (.value (oc + 1) (10 + (2 * k + 1))) :=
    gammaRead_value hg hk (by omega) fun q h1 h2 => hh _ (by omega)
  have h2 : 32 * (s.pbufLen.toNat - oc) - s.pbuf.field 5 5 - (10 + (2 * k + 1)) =
      n * (s.pbuf.field 0 5 + 1) := by omega
  simp only [ovHeader, uint, hl, if_false, readField_word0 h0 (show 1 ≤ 5 by omega)
    (show 0 + 5 ≤ 32 by omega), readField_word0 h0 (show 1 ≤ 5 by omega)
    (show 5 + 5 ≤ 32 by omega), ok_bind, hr, orMalformed, Nat.add_sub_cancel]
  rw [check_neg hw, ok_bind, check_neg (by omega), ok_bind, h2,
    check_neg (by rw [Nat.mul_mod_left]; omega), ok_bind, pure_ok, Nat.mul_div_cancel _ (by omega)]

/-- The ways the overflow header can stop (R186): MALFORMED_BUFFER, or a word it reads, word 0 or one
of the OverflowHeader, that holds no value. -/
theorem ovHeader_error {s : State} {e : Stop} (h : ovHeader s = .error e) :
    e = .raise .malformedBuffer ∨
      ∃ k, k < s.pbufLen.toNat ∧
        (k = 0 ∨ ∃ q, GammaReads s.pbuf 10 (32 * s.pbufLen.toNat) q ∧ k = q / 32) ∧
        e = .refuse (.noValue .pbuf k) ∧ ¬ s.pbuf.has k := by
  unfold ovHeader at h
  split at h
  · cases h
  · rename_i hl
    simp only [uint] at hl
    simp only [bind_error_iff, pure_ok] at h
    rcases h with h | ⟨_, -, h | ⟨_, -, h | ⟨_, -, h | ⟨_, -, h | ⟨_, -, h | ⟨_, -, h | ⟨_, -, h⟩⟩⟩⟩⟩⟩⟩
    · obtain ⟨h1, h2⟩ := readField_word0_error (by omega) (by omega) h
      exact .inr ⟨0, by omega, .inl rfl, h1, h2⟩
    · obtain ⟨h1, h2⟩ := readField_word0_error (by omega) (by omega) h
      exact .inr ⟨0, by omega, .inl rfl, h1, h2⟩
    · exact .inl (check_error_iff.mp h).2
    · obtain ⟨q, hq, h3, h4⟩ := gammaRead_error h
      have := hq.2.1
      simp only [uint] at this
      exact .inr ⟨q / 32, by omega, .inr ⟨q, hq, rfl⟩, h3, h4⟩
    · exact .inl (orMalformed_error h).1
    · exact .inl (check_error_iff.mp h).2
    · exact .inl (check_error_iff.mp h).2
    · cases h

/-- An overflow header that is not good is malformed, where the buffer's words hold values. -/
theorem ovHeader_malformed {s : State} (hh : ∀ j, j < s.pbufLen.toNat → s.pbuf.has j)
    (h : ∀ hd, ovHeader s ≠ .ok hd) : ovHeader s = .error (.raise .malformedBuffer) := by
  rcases hr : ovHeader s with e | hd
  · rcases ovHeader_error hr with rfl | ⟨k, hk, -, -, hn⟩
    · rfl
    · exact absurd (hh k hk) hn
  · exact absurd hr (h hd)

/-- Where the marker and the payload of an element stand: inside the main area. -/
theorem ov_element_bounds {x start len w i main : Nat}
    (hn : x + start + len * (w + 1) = main) (hi : i < len) :
    start + i * (w + 1) + 1 + w ≤ main := by
  have := Nat.mul_le_mul_right (w + 1) hi
  rw [Nat.succ_mul] at this
  omega

/-- Element `i` of an overflow buffer whose words hold values (R187). -/
theorem ovElement_eq {s : State} {hd : OverflowHeader} {i x : Nat} (h1 : 1 ≤ hd.width)
    (hw : hd.width ≤ 31) (hi : i < hd.len)
    (hn : x + hd.start + hd.len * (hd.width + 1) = 32 * (s.pbufLen.toNat - hd.oc))
    (hh : ∀ j, j < s.pbufLen.toNat → s.pbuf.has j) :
    ovElement s hd i =
      if s.pbuf.bit (hd.start + i * (hd.width + 1)) = true then
        if hd.oc ≤ s.pbuf.field (hd.start + i * (hd.width + 1) + 1) hd.width then
          .error (.raise .malformedBuffer)
        else readWord .pbuf s.pbuf (s.pbufLen.toNat - 1 -
          s.pbuf.field (hd.start + i * (hd.width + 1) + 1) hd.width)
      else .ok (BitVec.ofNat 32 (s.pbuf.field (hd.start + i * (hd.width + 1) + 1) hd.width)) := by
  have hb := ov_element_bounds hn hi
  simp only [ovElement, uint]
  rw [bitField_eq (hh _ (by omega)), ok_bind,
    readField_eq h1 (by omega) fun q h2 h3 => hh _ (by omega), ok_bind]
  cases s.pbuf.bit (hd.start + i * (hd.width + 1))
  · simp
  · simp only [Bool.toNat_true, one_ne_zero, if_false, if_true, check, ge_iff_le]
    split <;> rfl

/-- An element that is answered has its bits, and its slot, in words that hold values. -/
theorem ovElement_ok_has {s : State} {hd : OverflowHeader} {i k : Nat} {v : Word}
    (hw : hd.width ≤ 31) (h : ovElement s hd i = .ok v)
    (hk : OvElementWord s hd.width hd.oc hd.start i k) : s.pbuf.has k := by
  simp only [ovElement, uint, bind_ok_iff] at h
  obtain ⟨b, hb, x, hx, h⟩ := h
  rcases hk with ⟨q, h1, h2, rfl⟩ | ⟨h1, h2, rfl⟩
  · by_cases hq : q = hd.start + i * (hd.width + 1)
    · rw [hq]; exact (bitField_ok hb).1
    · exact readField_ok_has hx (by omega) (by omega) (by omega)
  · have hb' := (bitField_ok hb).2
    rw [h1] at hb'
    have hx' := readField_ok_field (by omega) hx
    subst hb' hx'
    rw [if_neg (by simp)] at h
    obtain ⟨_, -, h⟩ := bind_ok_iff.mp h
    exact Memory.has_iff.mpr ⟨v, readWord_ok_iff.mp h⟩

/-- The ways an element can stop (R187): MALFORMED_BUFFER, or a word of it that holds no value. -/
theorem ovElement_error {s : State} {hd : OverflowHeader} {i x : Nat} {e : Stop}
    (h1 : 1 ≤ hd.width) (hw : hd.width ≤ 31) (hi : i < hd.len)
    (hn : x + hd.start + hd.len * (hd.width + 1) = 32 * (s.pbufLen.toNat - hd.oc))
    (h : ovElement s hd i = .error e) :
    (e = .raise .malformedBuffer ∧ s.pbuf.bit (hd.start + i * (hd.width + 1)) = true ∧
      hd.oc ≤ s.pbuf.field (hd.start + i * (hd.width + 1) + 1) hd.width) ∨
      ∃ k, k < s.pbufLen.toNat ∧ OvElementWord s hd.width hd.oc hd.start i k ∧
        e = .refuse (.noValue .pbuf k) ∧ ¬ s.pbuf.has k := by
  have hb := ov_element_bounds hn hi
  simp only [ovElement, uint, bind_error_iff, pure_ok] at h
  rcases h with h | ⟨b, hm, h | ⟨v, hv, h⟩⟩
  · obtain ⟨k, ⟨q, h2, h3, rfl⟩, he, hk⟩ := readField_error_word le_rfl h
    exact .inr ⟨_, by omega, .inl ⟨q, h2, by omega, rfl⟩, he, hk⟩
  · obtain ⟨k, ⟨q, h2, h3, rfl⟩, he, hk⟩ := readField_error_word h1 h
    exact .inr ⟨_, by omega, .inl ⟨q, by omega, by omega, rfl⟩, he, hk⟩
  · obtain ⟨-, rfl⟩ := bitField_ok hm
    have hv' := readField_ok_field (by omega) hv
    subst hv'
    split at h
    · cases h
    · rename_i hb1
      have hbit : s.pbuf.bit (hd.start + i * (hd.width + 1)) = true := by
        cases hbit : s.pbuf.bit (hd.start + i * (hd.width + 1)) <;> simp_all
      rcases bind_error_iff.mp h with h | ⟨_, hc, h⟩
      · obtain ⟨h2, h3⟩ := check_error_iff.mp h
        exact .inl ⟨h3, hbit, h2⟩
      · have hc := check_ok_iff.mp hc
        obtain ⟨h2, h3⟩ := readWord_error_iff.mp h
        exact .inr ⟨_, by omega, .inr ⟨hbit, by omega, rfl⟩, h3, by simp [Memory.has, h2]⟩

end Sys2Proof.Machine
end

