-- ==== Sys2Proof/Laws/PerInstr.lean ====
section
/-! SUPPORT. What is stated of each command as syntax, one lemma a constructor. -/

namespace Sys2Proof.Laws

open Sys2Proof

/-- A command is well formed, its word is legal, and the opcode-table bits of its row read as it
(spec 30_encoding.md R70, R72, R75). -/
def Encoding.Statement (i : Instr) : Prop :=
  i.wf = true ∧ commandWordWf (encode i) = true ∧ decodeTableWord 32 (opc i) = some i

theorem Encoding.bfExtract : Encoding.Statement .bfExtract := ⟨by decide, by decide, by decide⟩

theorem Encoding.bfInsert : Encoding.Statement .bfInsert := ⟨by decide, by decide, by decide⟩

theorem Encoding.fieldRead : Encoding.Statement .fieldRead := ⟨by decide, by decide, by decide⟩

theorem Encoding.fieldWrite : Encoding.Statement .fieldWrite := ⟨by decide, by decide, by decide⟩

theorem Encoding.gammaEnc : Encoding.Statement .gammaEnc := ⟨by decide, by decide, by decide⟩

theorem Encoding.gammaDec : Encoding.Statement .gammaDec := ⟨by decide, by decide, by decide⟩

theorem Encoding.wselUniform : Encoding.Statement .wselUniform := ⟨by decide, by decide, by decide⟩

theorem Encoding.wselOverflow : Encoding.Statement .wselOverflow := ⟨by decide, by decide, by decide⟩

theorem Encoding.nsCompress : Encoding.Statement .nsCompress := ⟨by decide, by decide, by decide⟩

theorem Encoding.nsDecompress : Encoding.Statement .nsDecompress := ⟨by decide, by decide, by decide⟩

theorem Encoding.nsGet : Encoding.Statement .nsGet := ⟨by decide, by decide, by decide⟩

theorem Encoding.spCompress : Encoding.Statement .spCompress := ⟨by decide, by decide, by decide⟩

theorem Encoding.spDecompress : Encoding.Statement .spDecompress := ⟨by decide, by decide, by decide⟩

theorem Encoding.spGet : Encoding.Statement .spGet := ⟨by decide, by decide, by decide⟩

theorem Encoding.ovCompress : Encoding.Statement .ovCompress := ⟨by decide, by decide, by decide⟩

theorem Encoding.ovDecompress : Encoding.Statement .ovDecompress := ⟨by decide, by decide, by decide⟩

theorem Encoding.ovGet : Encoding.Statement .ovGet := ⟨by decide, by decide, by decide⟩

end Sys2Proof.Laws
end

