-- ==== Sys2Proof/Laws/Step.lean ====
section
/-! SUPPORT. What a step is at the head of the host's sequence, how a command ends, which words
the decoder reads as which command, and which word an assembler's index names. -/

namespace Sys2Proof.Machine

open Sys2Proof

/-- A step performs the host's next event. -/
theorem step_cons {s : State} {e : Event} {rest : List Event} (h : s.pending = e :: rest) :
    step s = perform { s with pending := rest } e := by
  simp only [step, advance, h]

/-- Every command is settled: it ends in a state of its own, in an error raised from the state it
began in, or in a stop. -/
theorem exec_settle (i : Instr) (s : State) : ∃ c, exec i s = settle s c := by
  cases i <;> exact ⟨_, rfl⟩

theorem instrOfOpc_eq_some_iff {n : Nat} {i : Instr} : instrOfOpc n = some i ↔ n = opc i := by
  constructor
  · intro h
    unfold instrOfOpc at h
    split at h <;> first | (cases h; rfl) | cases h
  · rintro rfl; cases i <;> rfl

/-- A word is a command exactly when its value is the command's opcode. -/
theorem decode_ok_iff {c : Word} {i : Instr} : decode c = .ok i ↔ c.toNat = opc i := by
  have hopc : opc i < 256 := by cases i <;> decide
  unfold decode
  split
  · constructor
    · intro h; cases h
    · intro h; omega
  · rename_i h
    rw [show c.toNat % 2 ^ 8 = c.toNat by omega]
    split
    · rename_i j hj
      rw [instrOfOpc_eq_some_iff] at hj
      constructor
      · intro h; cases h; exact hj
      · intro h
        have := instrOfOpc_eq_some_iff.mpr h
        rw [instrOfOpc_eq_some_iff.mpr hj] at this
        cases this; rfl
    · rename_i hj
      constructor
      · intro h; cases h
      · intro h; rw [instrOfOpc_eq_some_iff.mpr h] at hj; cases hj

/-- An index of fewer than 32 bits names its own word (R77). -/
@[simp] theorem memIndex_of_lt {i : Nat} (h : i < 2 ^ 32) : memIndex i = i := by
  simp only [memIndex, immediate, BitVec.ofInt_natCast, BitVec.toNat_ofNat]
  exact Nat.mod_eq_of_lt h

/-- `MW space[i], v` of such an index (R79). -/
theorem writeWord_of_lt (sp : Space) {i : Nat} (v : Int) (h : i < 2 ^ 32) :
    writeWord sp i v = .writeMem sp i (BitVec.ofInt 32 v) := by
  rw [writeWord, memIndex_of_lt h, immediate]

end Sys2Proof.Machine
end

