-- ==== Sys2Proof/Tests/Slice0.lean ====
section
/-! SUPPORT. The model's own tests: what is ill formed is refused, each command word written out bit
by bit decodes to its command, at most two single steps for each command, with the values of
spec/95_test_vectors.md, and a witness for the hypotheses of each statement. -/

namespace Sys2Proof.Tests

open Sys2Proof Sys2Proof.Machine

/-! Small states. -/

/-- A block that holds `seq` as its Sequence, `buf` as its buffer, and the operands. -/
def block (seq buf : List Word) (a0 a1 a2 a3 a4 : Word) : State :=
  { State.reset with
    seqIn := Memory.store [] 0 seq
    seqInLen := BitVec.ofNat 32 seq.length
    pbuf := Memory.store [] 0 buf
    pbufLen := BitVec.ofNat 32 buf.length
    a0 := a0
    a1 := a1
    a2 := a2
    a3 := a3
    a4 := a4
    noValue := [.res0, .res1] }

/-- A block that holds `buf`, with operands A0 to A2. -/
def withBuf (buf : List Word) (a0 a1 a2 : Word) : State := block [] buf a0 a1 a2 0 0

/-- A block that holds `seq`. -/
def withSeq (seq : List Word) : State := block seq [] 0 0 0 0 0

/-- A block whose host is about to perform `e`. -/
def about (s : State) (e : Event) : State := { s with pending := [e] }

/-- A part of the next state. -/
def seen {α : Type} (r : Result) (f : State → α) : Option α :=
  match r with
  | .next t => some (f t)
  | _ => none

/-- STATUS, RES0 and RES1. -/
def results (t : State) : Word × Word × Word := (statusWord t, t.res0, t.res1)

/-! What is ill formed (30_encoding.md R70, R73; 10_state.md R31, R39). -/

theorem test_ill_formed_word_zero : commandWordWf 0x00000000 = false := by decide
theorem test_ill_formed_word_12 : commandWordWf 0x00000012 = false := by decide
theorem test_ill_formed_word_reserved_bits : commandWordWf 0x00000109 = false := by decide
theorem test_decode_refuses_zero : decode 0x00000000 = .error .badOpcode := by decide
theorem test_decode_refuses_12 : decode 0x00000012 = .error .badOpcode := by decide
theorem test_decode_refuses_reserved_bits : decode 0x00000109 = .error .reservedBits := by decide
theorem test_ill_formed_register_index : Event.wf regOfIndex 16 17 (.readReg 0x0E) = false := by
  decide
theorem test_ill_formed_write_of_status :
    Event.wf regOfIndex 16 17 (.writeReg 0x01 0) = false := by decide
theorem test_ill_formed_index_at_capacity :
    Event.wf regOfIndex 16 17 (.readMem .seqIn 16) = false := by decide
theorem test_ill_formed_scratch_read : Event.wf regOfIndex 16 17 (.readMem .scratch 0) = false := by
  decide
theorem test_ill_formed_seq_out_write :
    Event.wf regOfIndex 16 17 (.writeMem .seqOut 0 0) = false := by decide

/-! Each word of the opcode map, RSV in bits 31:8 and OPC in bits 7:0 (30_encoding.md R70, R72). -/

theorem test_word_bf_extract :
    decode 0b00000000000000000000000000000001 = .ok .bfExtract := by decide
theorem test_word_bf_insert :
    decode 0b00000000000000000000000000000010 = .ok .bfInsert := by decide
theorem test_word_field_read :
    decode 0b00000000000000000000000000000011 = .ok .fieldRead := by decide
theorem test_word_field_write :
    decode 0b00000000000000000000000000000100 = .ok .fieldWrite := by decide
theorem test_word_gamma_enc :
    decode 0b00000000000000000000000000000101 = .ok .gammaEnc := by decide
theorem test_word_gamma_dec :
    decode 0b00000000000000000000000000000110 = .ok .gammaDec := by decide
theorem test_word_wsel_uniform :
    decode 0b00000000000000000000000000000111 = .ok .wselUniform := by decide
theorem test_word_wsel_overflow :
    decode 0b00000000000000000000000000001000 = .ok .wselOverflow := by decide
theorem test_word_ns_compress :
    decode 0b00000000000000000000000000001001 = .ok .nsCompress := by decide
theorem test_word_ns_decompress :
    decode 0b00000000000000000000000000001010 = .ok .nsDecompress := by decide
theorem test_word_ns_get :
    decode 0b00000000000000000000000000001011 = .ok .nsGet := by decide
theorem test_word_sp_compress :
    decode 0b00000000000000000000000000001100 = .ok .spCompress := by decide
theorem test_word_sp_decompress :
    decode 0b00000000000000000000000000001101 = .ok .spDecompress := by decide
theorem test_word_sp_get :
    decode 0b00000000000000000000000000001110 = .ok .spGet := by decide
theorem test_word_ov_compress :
    decode 0b00000000000000000000000000001111 = .ok .ovCompress := by decide
theorem test_word_ov_decompress :
    decode 0b00000000000000000000000000010000 = .ok .ovDecompress := by decide
theorem test_word_ov_get :
    decode 0b00000000000000000000000000010001 = .ok .ovGet := by decide

/-! Single steps, 95_test_vectors.md. -/

theorem test_step_runs_the_placed_word :
    seen (step (State.withFetchWord (withSeq []) 32 0x00000007)) results =
      some (0, 1, 0) := by decide

theorem test_reset_memories_are_canonical :
    State.reset.seqIn.wf ∧ State.reset.pbuf.wf ∧ State.reset.seqOut.wf ∧ State.reset.scratch.wf := by
  decide

theorem test_bf_extract : seen (exec .bfExtract (block [] [] 0x0CDC1006 18 23 0 0))
    results = some (0, 55, 0) := by decide
theorem test_bf_extract_negative_lo : seen (exec .bfExtract (block [] [] 0 0xFFFFFFFF 3 0 0))
    statusWord = some 0x11 := by decide
theorem test_bf_insert : seen (exec .bfInsert (block [] [] 0x12345678 28 0xF0 4 7))
    results = some (0, 0xF2345678, 0) := by decide
theorem test_bf_insert_past_bit_31 : seen (exec .bfInsert (block [] [] 0 1 0 0 31))
    statusWord = some 0x11 := by decide
theorem test_field_read_crosses : seen (exec .fieldRead (withBuf [0xC6419369, 0x00000012] 16 32 0))
    results = some (0, 0x0012C641, 0) := by decide
theorem test_field_read_past_the_end :
    seen (exec .fieldRead (withBuf [0xC6419369, 0x00000012] 60 5 0))
      statusWord = some 0x14 := by decide
theorem test_field_write_crosses : seen (exec .fieldWrite (withBuf [0, 0] 28 9 300))
    (fun t => (statusWord t, t.pbuf)) = some (0, [(0, 0xC0000000), (1, 0x00000012)]) := by decide
theorem test_field_write_masks_the_value : seen (exec .fieldWrite (withBuf [0, 0] 4 4 0xFF))
    (fun t => t.pbuf) = some [(0, 0x000000F0), (1, 0)] := by decide
theorem test_gamma_enc_crosses : seen (exec .gammaEnc (withBuf [0, 0] 5 30 0))
    (fun t => (results t, t.pbuf)) = some ((0, 35, 5), [(0, 0), (1, 5)]) := by decide
theorem test_gamma_enc_checks_the_value_first :
    seen (exec .gammaEnc (withBuf [0] 0 0xFFFFFFFF 0)) statusWord = some 0x14 := by decide
theorem test_gamma_dec_longest : seen (exec .gammaDec (withBuf [0x80000000, 0] 0 0 0))
    results = some (0, 0x80000000, 63) := by decide
theorem test_gamma_dec_unterminated : seen (exec .gammaDec (withBuf [0x80000000] 0 0 0))
    statusWord = some 0x14 := by decide
theorem test_wsel_uniform : seen (exec .wselUniform (withSeq [1, 55, 12, 3, 12, 45, 23, 12]))
    results = some (0, 6, 0) := by decide
theorem test_wsel_uniform_unsupported : seen (exec .wselUniform (withSeq [0x80000000]))
    statusWord = some 0x05 := by decide
theorem test_wsel_overflow_tie : seen (exec .wselOverflow (withSeq [1, 2, 1024, 3, 4, 2048]))
    results = some (0, 12, 0) := by decide
theorem test_wsel_overflow_outliers :
    seen (exec .wselOverflow (withSeq [5, 70000, 1, 90000, 2, 3, 1, 0, 6, 7]))
      results = some (0, 3, 2) := by decide
theorem test_ns_compress : seen (exec .nsCompress (withSeq [1, 55, 12, 3, 12, 45, 23, 12]))
    (fun t => (results t, t.pbufLen, t.pbuf)) =
      some ((0, 2, 6), 2, [(0, 0x0CDC1006), (1, 0x0C5ED303)]) := by decide
theorem test_ns_compress_wide_header : seen (exec .nsCompress (withSeq [0x7FFFFFFF]))
    (fun t => t.pbuf) = some [(0, 0x0000001F), (1, 0x7FFFFFFF)] := by decide
theorem test_ns_decompress :
    seen (exec .nsDecompress (withBuf [0x0CDC1006, 0x0C5ED303] 0 0 0))
      (fun t => (results t, t.seqOutLen, t.seqOut)) = some ((0, 8, 0), 8,
        [(0, 1), (1, 55), (2, 12), (3, 3), (4, 12), (5, 45), (6, 23), (7, 12)]) := by decide
theorem test_ns_decompress_malformed : seen (exec .nsDecompress (withBuf [0x000003E1] 0 0 0))
    statusWord = some 0x03 := by decide
theorem test_ns_get : seen (exec .nsGet (withBuf [0x0CDC1006, 0x0C5ED303] 1 0 0))
    results = some (0, 55, 0) := by decide
theorem test_ns_get_negative : seen (exec .nsGet (withBuf [0x0CDC1006, 0x0C5ED303] 0xFFFFFFFF 0 0))
    statusWord = some 0x02 := by decide
theorem test_sp_compress : seen (exec .spCompress (withSeq [100, 200, 300]))
    (fun t => (results t, t.pbufLen, t.pbuf)) =
      some ((0, 2, 9), 2, [(0, 0xC6419369), (1, 0x00000012)]) := by decide
theorem test_sp_compress_one_word : seen (exec .spCompress (withSeq [5, 6, 7, 8]))
    (fun t => t.pbuf) = some [(0, 0x021D94C4)] := by decide
theorem test_sp_decompress : seen (exec .spDecompress (withBuf [0xC6419369, 0x00000012] 0 0 0))
    (fun t => (results t, t.seqOutLen, t.seqOut)) =
      some ((0, 3, 0), 3, [(0, 100), (1, 200), (2, 300)]) := by decide
theorem test_sp_decompress_indivisible : seen (exec .spDecompress (withBuf [0x00000009] 0 0 0))
    statusWord = some 0x03 := by decide
theorem test_sp_get_crosses : seen (exec .spGet (withBuf [0xC6419369, 0x00000012] 2 0 0))
    results = some (0, 300, 0) := by decide
theorem test_sp_get_past_the_end : seen (exec .spGet (withBuf [0xC6419369, 0x00000012] 3 0 0))
    statusWord = some 0x02 := by decide
theorem test_ov_compress_two_outliers :
    seen (exec .ovCompress (withSeq [5, 70000, 1, 90000, 2, 3, 1, 0, 6, 7]))
      (fun t => (results t, t.pbufLen, t.pbuf)) = some ((0, 4, 3), 4,
        [(0, 0x86435963), (1, 0x001D804C), (2, 0x00015F90), (3, 0x00011170)]) := by decide
theorem test_ov_compress_equal_outliers :
    seen (exec .ovCompress (withSeq [9, 9, 9, 100000, 100000]))
      (fun t => t.pbuf) = some
        [(0, 0x194A5B44), (1, 0x00000006), (2, 0x000186A0), (3, 0x000186A0)] := by decide
theorem test_ov_decompress : seen (exec .ovDecompress (withBuf [0x050C4861, 0x000F4240] 0 0 0))
    (fun t => (results t, t.seqOutLen, t.seqOut)) = some ((0, 8, 0), 8,
      [(0, 1), (1, 0), (2, 1), (3, 1000000), (4, 0), (5, 1), (6, 1), (7, 0)]) := by decide
theorem test_ov_decompress_bad_slot :
    seen (exec .ovDecompress (withBuf [0x051C4861, 0x000F4240] 0 0 0))
      statusWord = some 0x03 := by decide
theorem test_ov_get_outlier :
    seen (exec .ovGet (withBuf [0x86435963, 0x001D804C, 0x00015F90, 0x00011170] 3 0 0))
      results = some (0, 90000, 0) := by decide
theorem test_ov_get_beside_a_bad_slot :
    seen (exec .ovGet (withBuf [0x051C4861, 0x000F4240] 2 0 0))
      results = some (0, 1, 0) := by decide

/-! Witnesses: concrete states and operands that meet the hypotheses of each statement. -/

/-- The block that later steps need most: capacities 16 and 17, a Sequence, a buffer. -/
def loaded : State := block [1, 55, 12] [0x0CDC1006, 0x0C5ED303] 1 2 3 4 5

/-- A faulted block. -/
def faulted : State := { loaded with code := 1, faulted := true }

theorem witness_StepRunsTheDecodedCommand :
    (about loaded (.writeReg 0x00 0x11)).pending = .writeReg 0x00 0x11 :: [] ∧
      (about loaded (.writeReg 0x00 0x11)).faulted = false ∧ decode 0x11 = .ok .ovGet := by decide

theorem witness_IllegalCommandSetsOnlyTheCode :
    (about loaded (.writeReg 0x00 0)).pending = .writeReg 0x00 0 :: [] ∧
      (about loaded (.writeReg 0x00 0)).faulted = false ∧
      (0x00000101 : Word).getLsbD 8 = true ∧ (0x80000001 : Word).getLsbD 31 = true ∧
      (0 : Word).toNat % 256 = 0 ∧ 0x12 ≤ (0x12 : Word).toNat % 256 ∧
      0x12 ≤ (0xFF : Word).toNat % 256 := by decide

theorem witness_FaultedBlockIgnoresCommands :
    (about faulted (.writeReg 0x00 9)).pending = .writeReg 0x00 9 :: [] ∧
      (about faulted (.writeReg 0x00 9)).faulted = true := by decide

theorem witness_FaultLatchHoldsUntilReset_command_1 :
    seen (exec .bfExtract (block [] [] 0 5 4 0 0)) (fun t => t.code) = some 1 := by decide
theorem witness_FaultLatchHoldsUntilReset_command_4 :
    seen (exec .gammaEnc (withBuf [0] 0 0 0)) (fun t => t.code) = some 4 := by decide
theorem witness_FaultLatchHoldsUntilReset_step :
    (about faulted (.readReg 1)).faulted = true ∧
      (∀ rest, (about faulted (.readReg 1)).pending ≠ .reset :: rest) ∧
      (seen (step (about faulted (.readReg 1))) statusWord).isSome = true :=
  ⟨by decide, by intro rest h; simp [about] at h, by decide⟩

theorem witness_ErrorPriority_faulted :
    (about faulted (.writeReg 0x00 0)).pending = .writeReg 0x00 0 :: [] ∧
      (about faulted (.writeReg 0x00 0)).faulted = true := by decide
theorem witness_ErrorPriority_illegal :
    (about loaded (.writeReg 0x00 0x12)).faulted = false ∧ ∀ i, decode 0x12 ≠ .ok i := by
  refine ⟨by decide, fun i h => ?_⟩
  have : decode 0x12 = .error .badOpcode := by decide
  rw [this] at h; cases h
/-- One element more than SEQ_IN holds, one word more than PBUF holds. -/
def overlong : State := { loaded with seqInLen := 17, pbufLen := 18 }
theorem witness_ErrorPriority_capacity :
    overlong.faulted = false ∧ decode 0x09 = .ok .nsCompress ∧ decode 0x0B = .ok .nsGet ∧
      overlong.capN.toNat < overlong.seqInLen.toNat ∧
      overlong.capPbuf.toNat < overlong.pbufLen.toNat := by decide

theorem witness_IdleBlockHoldsItsState : loaded.pending = [] := by decide

theorem witness_ResetStateValues : ∃ s, s = State.resetWith 1 2 := ⟨_, rfl⟩

theorem witness_ResetEventRestoresTheResetState :
    (about faulted .reset).pending = .reset :: [] := by decide

theorem witness_InvariantHoldsAtReset :
    Config.Admissible 1 2 ∧ Config.Admissible 0x7FFFFFFF 0x80000000 := by decide

theorem inv_about_loaded : Inv (about loaded (.writeReg 0x00 0x09)) :=
  ⟨by decide, by decide, by decide, by decide, by decide, by decide⟩

theorem witness_StepKeepsTheInvariant :
    Inv (about loaded (.writeReg 0x00 0x09)) ∧
      (seen (step (about loaded (.writeReg 0x00 0x09))) statusWord).isSome = true :=
  ⟨inv_about_loaded, by decide⟩

theorem witness_NoStepFaults : Inv (about loaded (.writeReg 0x00 0x09)) := inv_about_loaded

theorem witness_CapacityRegistersAreConstant :
    (seen (step (about loaded .reset)) (fun t => t.capN)).isSome = true := by decide

theorem witness_HostReadsEveryRegister : ∀ i ∈ List.range 14,
    (about loaded (.readReg i)).pending = .readReg i :: [] := fun _ _ => rfl

theorem witness_HostWritesRegisters : ∀ i ∈ [0x02, 0x03, 0x04, 0x05, 0x06, 0x09, 0x0A],
    (about loaded (.writeReg i 7)).pending = .writeReg i 7 :: [] := fun _ _ => rfl

theorem witness_OutsideRegisterAccessesAreRefused :
    0x0D < 0x0E ∧ (about loaded (.readReg 0x0E)).pending = .readReg 0x0E :: [] ∧
      (∀ i ∈ [0x01, 0x07, 0x08, 0x0B, 0x0C, 0x0D],
        (about loaded (.writeReg i 7)).pending = .writeReg i 7 :: []) ∧
      (about loaded (.readReg 0x00)).pending = .readReg 0x00 :: [] := by decide

theorem witness_HostReadsMemory_last_word :
    let s := about { loaded with pbuf := [(16, 5)] } (.readMem .pbuf 16)
    s.pending = .readMem .pbuf 16 :: [] ∧ 16 < s.capPbuf.toNat ∧ s.pbuf.read 16 = some 5 := by
  decide
theorem witness_HostReadsMemory_no_value :
    let s := about loaded (.readMem .seqOut 15)
    s.pending = .readMem .seqOut 15 :: [] ∧ 15 < s.capN.toNat ∧ ¬ s.seqOut.has 15 := by decide
theorem witness_HostReadsMemory_seq_in :
    let s := about loaded (.readMem .seqIn 0)
    s.pending = .readMem .seqIn 0 :: [] ∧ 0 < s.capN.toNat ∧ s.seqIn.read 0 = some 1 := by decide

theorem witness_HostWritesMemory :
    (about loaded (.writeMem .seqIn 15 7)).pending = .writeMem .seqIn 15 7 :: [] ∧
      15 < loaded.capN.toNat ∧
      (about loaded (.writeMem .pbuf 16 7)).pending = .writeMem .pbuf 16 7 :: [] ∧
      16 < loaded.capPbuf.toNat := by decide

theorem witness_OutsideMemoryAccessesAreRefused :
    (about loaded (.readMem .scratch 0)).pending = .readMem .scratch 0 :: [] ∧
      (about loaded (.writeMem .seqOut 0 7)).pending = .writeMem .seqOut 0 7 :: [] ∧
      loaded.capN.toNat ≤ 16 ∧
      (about loaded (.readMem .seqIn 16)).pending = .readMem .seqIn 16 :: [] ∧
      (about loaded (.writeMem .seqIn 16 7)).pending = .writeMem .seqIn 16 7 :: [] ∧
      loaded.capPbuf.toNat ≤ 17 ∧
      (about loaded (.readMem .pbuf 17)).pending = .readMem .pbuf 17 :: [] ∧
      (about loaded (.writeMem .pbuf 17 7)).pending = .writeMem .pbuf 17 7 :: [] := by decide

theorem witness_LoadSeqPlacesTheSequence :
    let vs : List Int := [1, -1, 3]
    let s := { loaded with pending := assemble [⟨none, some (.pseudo (.loadSeq vs))⟩] }
    vs.length ≤ s.capN.toNat ∧
      s.pending = assemble [⟨none, some (.pseudo (.loadSeq vs))⟩] := by decide

/-- An index is an immediate, taken mod 2^32 (30_encoding.md R77). -/
theorem test_memory_index_is_an_immediate :
    assemble [⟨none, some (.mw .pbuf 0x100000000 7)⟩, ⟨none, some (.mw .seqIn (-4294967295) (-1))⟩,
      ⟨none, some (.mr .seqOut 0x100000002)⟩, ⟨none, some (.mr .pbuf (-1))⟩] =
      [.writeMem .pbuf 0 7, .writeMem .seqIn 1 0xFFFFFFFF, .readMem .seqOut 2,
        .readMem .pbuf 0xFFFFFFFF] := by decide

theorem witness_FailingCommandChangesOnlyStatus :
    seen (exec .nsGet (withBuf [0] 0 0 0)) (fun t => t.code) = some 3 := by decide

theorem witness_CodesAndTheirRaisers_ok :
    seen (exec .bfExtract (block [] [] 0 0 0 0 0)) (fun t => t.code) = some 0 := by decide
theorem witness_CodesAndTheirRaisers_1 :
    seen (exec .fieldRead (withBuf [0] 0 0 0)) (fun t => t.code) = some 1 := by decide
theorem witness_CodesAndTheirRaisers_2 :
    seen (exec .spGet (withBuf [] 0 0 0)) (fun t => t.code) = some 2 := by decide
theorem witness_CodesAndTheirRaisers_3 :
    seen (exec .ovGet (withBuf [0] 0 0 0)) (fun t => t.code) = some 3 := by decide
theorem witness_CodesAndTheirRaisers_4 :
    seen (exec .gammaDec (withBuf [0] 0 0 0)) (fun t => t.code) = some 4 := by decide
theorem witness_CodesAndTheirRaisers_5 :
    seen (exec .ovCompress (withSeq [0x80000000])) (fun t => t.code) = some 5 := by decide
theorem witness_CodesAndTheirRaisers_6 :
    seen (exec .spCompress overlong) (fun t => t.code) = some 6 := by decide

theorem witness_CommandsKeepOperandsAndInput :
    (seen (exec .ovCompress loaded) statusWord).isSome = true := by decide

theorem witness_OnlyNamedCommandsWrite_extract :
    (seen (exec .bfExtract loaded) statusWord).isSome = true ∧
      Instr.bfExtract ∉ [Instr.fieldWrite, .gammaEnc, .nsCompress, .spCompress, .ovCompress] ∧
      Instr.bfExtract ≠ .ovCompress := by decide
theorem witness_OnlyNamedCommandsWrite_field_write :
    (seen (exec .fieldWrite (withBuf [0] 0 1 1)) statusWord).isSome = true := by decide

theorem witness_OnlyUnwrittenWordsStopACommand_seq_in :
    exec .nsCompress { State.reset with seqInLen := 1 } = .refused (.noValue .seqIn 0) := rfl
theorem witness_OnlyUnwrittenWordsStopACommand_pbuf :
    exec .nsDecompress { State.reset with pbufLen := 1 } = .refused (.noValue .pbuf 0) := rfl

/-! The primitives. -/

/-- Operands A0 to A4 of a block with no memory. -/
def ops (a0 a1 a2 a3 a4 : Word) : State := block [] [] a0 a1 a2 a3 a4

theorem witness_BfExtractReturnsTheRange_legal :
    0 ≤ (ops 9 0 31 0 0).a1.toInt ∧ (ops 9 0 31 0 0).a1.toInt ≤ (ops 9 0 31 0 0).a2.toInt ∧
      (ops 9 0 31 0 0).a2.toInt ≤ 31 ∧
      (ops 9 31 31 0 0).a1.toInt ≤ (ops 9 31 31 0 0).a2.toInt := by decide
theorem witness_BfExtractReturnsTheRange_malformed :
    (ops 9 0xFFFFFFFF 3 0 0).a1.toInt < 0 ∧ 31 < (ops 9 0 32 0 0).a2.toInt ∧
      (ops 9 5 4 0 0).a2.toInt < (ops 9 5 4 0 0).a1.toInt := by decide

theorem witness_BfInsertReplacesTheRange_legal :
    let s := ops 9 28 0xF0 4 7
    0 ≤ s.a3.toInt ∧ s.a3.toInt ≤ s.a4.toInt ∧ s.a4.toInt ≤ 31 ∧ 0 ≤ s.a1.toInt ∧
      s.a1.toInt + (s.a4.toInt - s.a3.toInt) ≤ 31 := by decide
theorem witness_BfInsertReplacesTheRange_malformed :
    (ops 9 0 0 0xFFFFFFFF 3).a3.toInt < 0 ∧ 31 < (ops 9 0 0 0 32).a4.toInt ∧
      (ops 9 0 0 3 2).a4.toInt < (ops 9 0 0 3 2).a3.toInt ∧ (ops 9 0xFFFFFFFF 0 0 0).a1.toInt < 0 ∧
      31 < (ops 9 1 0 0 31).a1.toInt +
        ((ops 9 1 0 0 31).a4.toInt - (ops 9 1 0 0 31).a3.toInt) := by decide

theorem witness_ExtractAfterInsert :
    let s := ops 9 0 0xF0 0 31
    0 ≤ s.a3.toInt ∧ s.a3.toInt ≤ s.a4.toInt ∧ s.a4.toInt ≤ 31 ∧ 0 ≤ s.a1.toInt ∧
      s.a1.toInt + (s.a4.toInt - s.a3.toInt) ≤ 31 := by decide

/-- Every stream position of a buffer that holds its words lies in a word that holds a value. -/
theorem holds_of_words {m : Memory} {len : Nat} (h : ∀ i, i < len → m.has i) {q : Nat}
    (hq : q < 32 * len) : m.has (q / 32) := h _ (by omega)

/-- A two-word buffer with a position and a width. -/
def pair (a0 a1 : Word) : State := withBuf [0xC6419369, 0x00000012] a0 a1 7

theorem pair_holds (a0 a1 : Word) : ∀ i, i < 2 → (pair a0 a1).pbuf.has i := by
  show ∀ i, i < 2 → (Memory.store [] 0 [0xC6419369, 0x00000012]).has i
  decide

theorem witness_FieldRead_and_FieldWrite_errors :
    overlong.capPbuf.toNat < overlong.pbufLen.toNat ∧
      (pair 0 0).pbufLen.toNat ≤ (pair 0 0).capPbuf.toNat ∧ (pair 0xFFFFFFFF 1).a0.toInt < 0 ∧
      (pair 0 0).a1.toInt < 1 ∧ 32 < (pair 0 33).a1.toInt ∧ 1 ≤ (pair 32 32).a1.toInt ∧
      32 * (pair 33 32).pbufLen.toNat < (pair 33 32).a0.toInt + (pair 33 32).a1.toInt := by decide

theorem witness_FieldReadReturnsTheField_last_position :
    (pair 63 1).pbufLen.toNat ≤ (pair 63 1).capPbuf.toNat ∧ 0 ≤ (pair 63 1).a0.toInt ∧
      1 ≤ (pair 63 1).a1.toInt ∧ (pair 63 1).a1.toInt ≤ 32 ∧
      (pair 63 1).a0.toInt + (pair 63 1).a1.toInt ≤ 32 * (pair 63 1).pbufLen.toNat ∧
      ∀ q : Nat, (pair 63 1).a0.toInt ≤ q →
        (q : Int) < (pair 63 1).a0.toInt + (pair 63 1).a1.toInt →
        (pair 63 1).pbuf.has (q / 32) := by
  refine ⟨by decide, by decide, by decide, by decide, by decide, fun q _ h => ?_⟩
  have e : (pair 63 1).a0.toInt + (pair 63 1).a1.toInt = 64 := by decide
  exact holds_of_words (pair_holds 63 1) (by omega)

/-- A two-word buffer whose second word holds no value. -/
def half (a0 a1 : Word) : State := { pair a0 a1 with pbuf := [(0, 5)] }

theorem witness_FieldRead_and_FieldWrite_no_value :
    (half 31 2).pbufLen.toNat ≤ (half 31 2).capPbuf.toNat ∧
      (half 31 2).a0.toInt + (half 31 2).a1.toInt ≤ 32 * (half 31 2).pbufLen.toNat ∧
      ∃ q : Nat, (half 31 2).a0.toInt ≤ q ∧ (q : Int) < (half 31 2).a0.toInt + (half 31 2).a1.toInt ∧
        ¬ (half 31 2).pbuf.has (q / 32) :=
  ⟨by decide, by decide, 32, by decide, by decide, by decide⟩

theorem witness_FieldWriteChangesOnlyTheField_crossing :
    (pair 32 32).pbufLen.toNat ≤ (pair 32 32).capPbuf.toNat ∧ 0 ≤ (pair 32 32).a0.toInt ∧
      1 ≤ (pair 32 32).a1.toInt ∧ (pair 32 32).a1.toInt ≤ 32 ∧
      (pair 32 32).a0.toInt + (pair 32 32).a1.toInt ≤ 32 * (pair 32 32).pbufLen.toNat ∧
      ∀ q : Nat, (pair 32 32).a0.toInt ≤ q →
        (q : Int) < (pair 32 32).a0.toInt + (pair 32 32).a1.toInt →
        (pair 32 32).pbuf.has (q / 32) := by
  refine ⟨by decide, by decide, by decide, by decide, by decide, fun q _ h => ?_⟩
  have e : (pair 32 32).a0.toInt + (pair 32 32).a1.toInt = 64 := by decide
  exact holds_of_words (pair_holds 32 32) (by omega)

theorem witness_FieldReadAfterFieldWrite :
    BufferReady (pair 32 32) ∧ 0 ≤ (pair 32 32).a0.toInt ∧ 1 ≤ (pair 32 32).a1.toInt ∧
      (pair 32 32).a1.toInt ≤ 32 ∧
      (pair 32 32).a0.toInt + (pair 32 32).a1.toInt ≤ 32 * (pair 32 32).pbufLen.toNat :=
  ⟨⟨by decide, by decide⟩, by decide, by decide, by decide, by decide⟩

theorem witness_GammaEncWritesTheCode_errors :
    (pair 0 0).pbufLen.toNat ≤ (pair 0 0).capPbuf.toNat ∧ (pair 0 0).a0.toInt ≤ 0 ∧
      0 < (pair 1 0xFFFFFFFF).a0.toInt ∧ (pair 1 0xFFFFFFFF).a1.toInt < 0 ∧
      2 ^ 2 ≤ (pair 5 60).a0.toInt.toNat ∧ (pair 5 60).a0.toInt.toNat < 2 ^ (2 + 1) ∧
      32 * (pair 5 60).pbufLen.toNat < (pair 5 60).a1.toInt + (2 * 2 + 1) := by decide
theorem witness_GammaEncWritesTheCode_last_position :
    2 ^ 2 ≤ (pair 5 59).a0.toInt.toNat ∧ (pair 5 59).a0.toInt.toNat < 2 ^ (2 + 1) ∧
      (pair 5 59).pbufLen.toNat ≤ (pair 5 59).capPbuf.toNat ∧ 0 < (pair 5 59).a0.toInt ∧
      0 ≤ (pair 5 59).a1.toInt ∧
      (pair 5 59).a1.toInt + (2 * 2 + 1) ≤ 32 * (pair 5 59).pbufLen.toNat ∧
      ∀ q : Nat, (pair 5 59).a1.toInt ≤ q → (q : Int) < (pair 5 59).a1.toInt + (2 * 2 + 1) →
        (pair 5 59).pbuf.has (q / 32) := by
  refine ⟨by decide, by decide, by decide, by decide, by decide, by decide, fun q _ h => ?_⟩
  have e : (pair 5 59).a1.toInt = 59 := by decide
  exact holds_of_words (pair_holds 5 59) (by omega)
theorem witness_GammaEncWritesTheCode_no_value :
    2 ^ 0 ≤ (half 1 32).a0.toInt.toNat ∧ (half 1 32).a0.toInt.toNat < 2 ^ (0 + 1) ∧
      (half 1 32).a1.toInt + (2 * 0 + 1) ≤ 32 * (half 1 32).pbufLen.toNat ∧
      ∃ q : Nat, (half 1 32).a1.toInt ≤ q ∧ (q : Int) < (half 1 32).a1.toInt + (2 * 0 + 1) ∧
        ¬ (half 1 32).pbuf.has (q / 32) :=
  ⟨by decide, by decide, by decide, 32, by decide, by decide, by decide⟩

/-- The longest Gamma code: 31 zeros, then 32 bits. -/
def longest : State := withBuf [0x80000000, 0x00000000] 0 0 0

theorem witness_GammaDecReturnsTheNumber :
    longest.a0.toInt = (0 : Nat) ∧ longest.pbufLen.toNat ≤ longest.capPbuf.toNat ∧
      0 + (2 * 31 + 1) ≤ 32 * longest.pbufLen.toNat ∧
      (∀ q, 0 ≤ q → q < 0 + (2 * 31 + 1) → longest.pbuf.has (q / 32)) ∧
      GammaCodeAt longest.pbuf 0 31 0x80000000 :=
  ⟨by decide, by decide, by decide, fun _ _ h => holds_of_words (len := 2) (by decide) (by omega),
    by decide, by decide, by decide, by decide⟩

/-- The last digit of that code, where its word holds no value. -/
theorem witness_GammaDecReturnsTheNumber_no_value :
    let s := { longest with pbuf := [(0, 0x80000000)] }
    s.a0.toInt = ((0 : Nat) : Int) ∧ s.pbufLen.toNat ≤ s.capPbuf.toNat ∧
      GammaReads s.pbuf 0 (32 * s.pbufLen.toNat) 62 ∧ ¬ s.pbuf.has (62 / 32) := by
  refine ⟨by decide, by decide, ⟨by decide, by decide, .inr ⟨31, by decide, by decide, fun r _ h => ?_,
    by decide, by decide⟩⟩, by decide⟩
  have e : ∀ r, r < 31 → Memory.bit [(0, 0x80000000)] r = false := by decide
  exact e r (by omega)

theorem witness_GammaDecErrors_zeros :
    let s := withBuf [0] 31 0 0
    s.pbufLen.toNat ≤ s.capPbuf.toNat ∧ 0 ≤ s.a0.toInt ∧
      ∀ q : Nat, s.a0.toInt ≤ q → q < 32 * s.pbufLen.toNat →
        s.pbuf.has (q / 32) ∧ s.pbuf.bit q = false := by
  refine ⟨by decide, by decide, fun q h1 h2 => ?_⟩
  have e1 : (withBuf [0] 31 0 0).a0.toInt = 31 := by decide
  have e2 : (withBuf [0] 31 0 0).pbufLen.toNat = 1 := by decide
  rw [show q = 31 by omega]
  decide
theorem witness_GammaDecErrors_too_long :
    let s := withBuf [0, 0x00000001, 0, 0] 0 0 0
    s.pbufLen.toNat ≤ s.capPbuf.toNat ∧ s.a0.toInt = 0 ∧ 0 + 32 < 32 * s.pbufLen.toNat ∧
      (∀ q, q < 32 → s.pbuf.bit q = false) ∧ s.pbuf.bit 32 = true ∧
      ∀ q, q ≤ 32 → s.pbuf.has (q / 32) := by decide
theorem witness_GammaDecErrors_past_the_end :
    let s := withBuf [0x80000000] 0 0 0
    s.pbufLen.toNat ≤ s.capPbuf.toNat ∧ s.a0.toInt = 0 ∧ 0 + 31 < 32 * s.pbufLen.toNat ∧
      32 * s.pbufLen.toNat < 0 + (2 * 31 + 1) ∧ (∀ q, q < 31 → s.pbuf.bit q = false) ∧
      s.pbuf.bit 31 = true ∧ ∀ q, q ≤ 31 → s.pbuf.has (q / 32) := by decide
theorem witness_GammaDecErrors_negative :
    (withBuf [0] 0xFFFFFFFF 0 0).a0.toInt < 0 ∧ overlong.capPbuf.toNat < overlong.pbufLen.toNat := by
  decide

theorem witness_GammaDecAfterGammaEnc :
    BufferReady (pair 5 59) ∧ 0 < (pair 5 59).a0.toInt ∧ 0 ≤ (pair 5 59).a1.toInt ∧
      2 ^ 2 ≤ (pair 5 59).a0.toNat ∧ (pair 5 59).a0.toNat < 2 ^ (2 + 1) ∧
      (pair 5 59).a1.toInt + (2 * 2 + 1) ≤ 32 * (pair 5 59).pbufLen.toNat :=
  ⟨⟨by decide, by decide⟩, by decide, by decide, by decide, by decide, by decide⟩

/-! The selectors and the codecs. -/

theorem admitted_of_all {A : List Word} (h : A.all (fun a => !a.getLsbD 31) = true) :
    Admitted A := by
  intro a ha
  simpa using List.all_eq_true.mp h a ha

theorem input_scenario : Input (withSeq [5, 70000, 1, 90000, 2, 3, 1, 0, 6, 7])
    [5, 70000, 1, 90000, 2, 3, 1, 0, 6, 7] :=
  ⟨⟨by decide, by decide⟩, admitted_of_all (by decide), by decide⟩

/-- A full SEQ_IN of largest values. -/
theorem input_full : Input (withSeq (List.replicate 16 0x7FFFFFFF)) (List.replicate 16 0x7FFFFFFF) :=
  ⟨⟨by decide, by decide⟩, admitted_of_all (by decide), by decide⟩

theorem input_empty : Input (withSeq []) [] :=
  ⟨⟨by decide, by decide⟩, admitted_of_all (by decide), by decide⟩

theorem witness_WselUniformReturnsTheLeastWidth : Input (withSeq []) [] := input_empty

theorem witness_WselOverflowReturnsTheCheapestWidth :
    Input (withSeq (List.replicate 16 0x7FFFFFFF)) (List.replicate 16 0x7FFFFFFF) := input_full

/-- The widths of the one-element Sequence of the largest value (95_test_vectors.md L2), and those of
a Sequence below whose uniform width and above it there is a candidate. -/
theorem witness_OverflowChoiceIsBounded :
    Admitted [0x7FFFFFFF] ∧ overflowSelect [0x7FFFFFFF] = (1, 1) ∧ 31 = uniformWidth [0x7FFFFFFF] ∧
      Input (withSeq [0x7FFFFFFF]) [0x7FFFFFFF] :=
  ⟨admitted_of_all (by decide), by decide, by decide,
    ⟨⟨by decide, by decide⟩, admitted_of_all (by decide), by decide⟩⟩
theorem witness_OverflowChoiceIsBounded_wider :
    Admitted [1, 3] ∧ overflowSelect [1, 3] = (2, 0) ∧ 2 = uniformWidth [1, 3] ∧ 2 < 31 ∧
      31 ≤ 31 := ⟨admitted_of_all (by decide), by decide, by decide, by decide, by decide⟩

theorem witness_SequenceCommandErrors_capacity :
    overlong.capN.toNat < overlong.seqInLen.toNat := by decide
theorem witness_SequenceCommandErrors_value :
    (withSeq [0x80000000]).seqInLen.toNat ≤ (withSeq [0x80000000]).capN.toNat ∧
      HoldsSequence (withSeq [0x80000000]) [0x80000000] ∧ ¬ Admitted [0x80000000] :=
  ⟨by decide, ⟨by decide, by decide⟩, fun h => absurd (h 0x80000000 (by simp)) (by decide)⟩
theorem witness_SequenceCommandErrors_no_value :
    let s := { State.reset with seqInLen := 16 }
    s.seqInLen.toNat ≤ s.capN.toNat ∧ 15 < s.seqInLen.toNat ∧ ¬ s.seqIn.has 15 := by decide

theorem witness_EmptyInputCompressesToTheEmptyBuffer : (withSeq []).seqInLen = 0 := by decide

theorem witness_EmptyBufferDecodesToTheEmptySequence : (withBuf [] 0 0 0).pbufLen = 0 := by decide

/-- The hypotheses of the three compress statements. -/
theorem witness_CompressLaysOutTheBuffer :
    Config.Admissible (withSeq (List.replicate 16 0x7FFFFFFF)).capN
        (withSeq (List.replicate 16 0x7FFFFFFF)).capPbuf ∧
      Input (withSeq (List.replicate 16 0x7FFFFFFF)) (List.replicate 16 0x7FFFFFFF) ∧
      List.replicate 16 (0x7FFFFFFF : Word) ≠ [] := ⟨by decide, input_full, by decide⟩

/-- The hypotheses of the three round-trip statements. -/
theorem witness_RoundTrip :
    Config.Admissible (withSeq [5, 70000, 1, 90000, 2, 3, 1, 0, 6, 7]).capN
        (withSeq [5, 70000, 1, 90000, 2, 3, 1, 0, 6, 7]).capPbuf ∧
      Input (withSeq [5, 70000, 1, 90000, 2, 3, 1, 0, 6, 7])
        [5, 70000, 1, 90000, 2, 3, 1, 0, 6, 7] := ⟨by decide, input_scenario⟩

/-- A buffer of one word, which holds a value, with an operand. -/
theorem ready_one (x a0 : Word) : BufferReady (withBuf [x] a0 0 0) := by
  refine ⟨by show (1 : Word).toNat ≤ (17 : Word).toNat; decide, fun i hi => ?_⟩
  have : i = 0 := by
    have h : i < (1 : Word).toNat := hi
    have e : (1 : Word).toNat = 1 := by decide
    omega
  subst this
  rfl

/-- A buffer of two words, the first of which holds `x` and the second no value. -/
def holed (x a0 : Word) : State := { withBuf [x, 0] a0 0 0 with pbuf := [(0, x)] }

/-- Word 0 of a buffer holds no value: the six decode commands. -/
theorem witness_decode_no_word_0 :
    let s := { withBuf [0] 0 0 0 with pbuf := [] }
    s.pbufLen ≠ 0 ∧ s.pbufLen.toNat ≤ s.capPbuf.toNat ∧ ¬ s.pbuf.has 0 := by decide

/-- The last element of a non-spanning and of a spanning buffer stands in a word that holds no
value: w = 1, padding 31, 23 elements. -/
theorem witness_NsElement_no_value :
    let s := { holed 0x000003E1 22 with capN := 23 }
    s.pbufLen.toNat ≤ s.capPbuf.toNat ∧ NsGoodHeader s 1 23 ∧ 23 ≤ s.capN.toNat ∧ 22 < 23 ∧
      s.a0.toInt = (22 : Nat) ∧ NsElementWord 1 22 1 ∧ ¬ s.pbuf.has 1 :=
  ⟨by decide, ⟨by decide, by decide, by decide, by decide⟩, by decide, by decide, by decide,
    by unfold NsElementWord; decide, by decide⟩
theorem witness_SpElement_no_value :
    let s := { holed 0x000003E1 22 with capN := 23 }
    s.pbufLen.toNat ≤ s.capPbuf.toNat ∧ SpGoodHeader s 1 23 ∧ 23 ≤ s.capN.toNat ∧ 22 < 23 ∧
      s.a0.toInt = (22 : Nat) ∧ SpElementWord 1 22 1 ∧ ¬ s.pbuf.has 1 :=
  ⟨by decide, ⟨by decide, by decide, by decide, by decide⟩, by decide, by decide, by decide,
    ⟨32, by decide, by decide, by decide⟩, by decide⟩

/-- NS header: w = 0; w = 1 with pad = 31; w = 31 with pad = 0, so L = 0; w = 1, pad = 21, L = 1. -/
theorem witness_NsHeader :
    (withBuf [0x00000020] 0 0 0).pbuf.field 0 5 = 0 ∧
      (withBuf [0x000003E1] 0 0 0).pbufLen.toNat * (32 / 1) <
        (10 + 1 - 1) / 1 + (withBuf [0x000003E1] 0 0 0).pbuf.field 5 5 ∧
      0 + (10 + 31 - 1) / 31 + (withBuf [0x0000001F] 0 0 0).pbuf.field 5 5 =
        (withBuf [0x0000001F] 0 0 0).pbufLen.toNat * (32 / 31) ∧
      1 + (10 + 1 - 1) / 1 + (withBuf [0x000002A1] 0 0 0).pbuf.field 5 5 =
        (withBuf [0x000002A1] 0 0 0).pbufLen.toNat * (32 / 1) := by decide

theorem witness_NsDecompressReadsEveryElement :
    BufferReady (withBuf [0x000002A1] 0 0 0) ∧ (withBuf [0x000002A1] 0 0 0).pbufLen ≠ 0 ∧
      1 = (withBuf [0x000002A1] 0 0 0).pbuf.field 0 5 ∧
      21 = (withBuf [0x000002A1] 0 0 0).pbuf.field 5 5 ∧ 32 = 32 / 1 ∧ 10 = (10 + 1 - 1) / 1 ∧
      1 + 10 + 21 = (withBuf [0x000002A1] 0 0 0).pbufLen.toNat * 32 ∧
      1 ≤ (withBuf [0x000002A1] 0 0 0).capN.toNat ∧
      { withBuf [0x000002A1] 0 0 0 with capN := 0 }.capN.toNat < 1 :=
  ⟨ready_one _ _, by decide, by decide, by decide, by decide, by decide, by decide, by decide,
    by decide⟩

theorem witness_GetOperands :
    (withBuf [0x000002A1] 0xFFFFFFFF 0 0).a0.toInt < 0 ∧
      ((1 : Nat) : Int) ≤ (withBuf [0x000002A1] 1 0 0).a0.toInt ∧
      (withBuf [0x000002A1] 0 0 0).a0.toInt = (0 : Nat) ∧ 0 < 1 := by decide

theorem witness_NsGetReadsOneElement :
    BufferReady (withBuf [0x000002A1] 0 0 0) ∧ (withBuf [0x000002A1] 0 0 0).pbufLen ≠ 0 ∧
      1 + 10 + 21 = (withBuf [0x000002A1] 0 0 0).pbufLen.toNat * 32 ∧
      (withBuf [0x000002A1] 0 0 0).a0.toInt = (0 : Nat) :=
  ⟨ready_one _ _, by decide, by decide, by decide⟩

/-- SP header: w = 0; unused past the word; 22 bits no multiple of 9; one element of width 1. -/
theorem witness_SpHeader :
    (withBuf [0x00000000] 0 0 0).pbuf.field 0 5 = 0 ∧
      32 * (withBuf [0x000003E9] 0 0 0).pbufLen.toNat <
        10 + (withBuf [0x000003E9] 0 0 0).pbuf.field 5 5 ∧
      (∀ L, 10 + (withBuf [0x00000009] 0 0 0).pbuf.field 5 5 + L * 9 ≠
        32 * (withBuf [0x00000009] 0 0 0).pbufLen.toNat) ∧
      10 + (withBuf [0x000002A1] 0 0 0).pbuf.field 5 5 + 1 * 1 =
        32 * (withBuf [0x000002A1] 0 0 0).pbufLen.toNat := by
  refine ⟨by decide, by decide, fun L => ?_, by decide⟩
  have e1 : (withBuf [0x00000009] 0 0 0).pbuf.field 5 5 = 0 := by decide
  have e2 : (withBuf [0x00000009] 0 0 0).pbufLen.toNat = 1 := by decide
  omega

theorem witness_SpDecompressReadsEveryElement :
    BufferReady (withBuf [0x000002A1] 0 0 0) ∧ (withBuf [0x000002A1] 0 0 0).pbufLen ≠ 0 ∧
      1 = (withBuf [0x000002A1] 0 0 0).pbuf.field 0 5 ∧
      21 = (withBuf [0x000002A1] 0 0 0).pbuf.field 5 5 ∧
      10 + 21 + 1 * 1 = 32 * (withBuf [0x000002A1] 0 0 0).pbufLen.toNat ∧
      1 ≤ (withBuf [0x000002A1] 0 0 0).capN.toNat :=
  ⟨ready_one _ _, by decide, by decide, by decide, by decide, by decide⟩

theorem witness_SpGetReadsOneElement :
    BufferReady (withBuf [0x000002A1] 0 0 0) ∧ (withBuf [0x000002A1] 0 0 0).pbufLen ≠ 0 ∧
      10 + 21 + 1 * 1 = 32 * (withBuf [0x000002A1] 0 0 0).pbufLen.toNat ∧
      (withBuf [0x000002A1] 0 0 0).a0.toInt = (0 : Nat) :=
  ⟨ready_one _ _, by decide, by decide, by decide⟩

/-- An overflow buffer with one outlier, and one whose element 3 names a slot that is not there. -/
def goodOv (a0 : Word) : State := withBuf [0x050C4861, 0x000F4240] a0 0 0
def badOv (a0 : Word) : State := withBuf [0x051C4861, 0x000F4240] a0 0 0

/-- The hypotheses the overflow decoders' statements share, for `goodOv` and for `badOv`. -/
theorem witness_ov_header_good : BufferReady (goodOv 3) ∧ OvGoodHeader (goodOv 3) 1 1 13 8 :=
  ⟨⟨by decide, by decide⟩, by decide, by decide, by decide,
    ⟨1, by decide, by decide, by decide, by decide, by decide, by decide⟩,
    by decide, by decide, by decide⟩
theorem witness_ov_header_bad : BufferReady (badOv 3) ∧ OvGoodHeader (badOv 3) 1 1 13 8 :=
  ⟨⟨by decide, by decide⟩, by decide, by decide, by decide,
    ⟨1, by decide, by decide, by decide, by decide, by decide, by decide⟩,
    by decide, by decide, by decide⟩

/-- The OverflowHeader's scan runs into a word that holds no value. -/
theorem witness_OvHeader_no_value :
    (holed 1 0).pbufLen ≠ 0 ∧ (holed 1 0).pbufLen.toNat ≤ (holed 1 0).capPbuf.toNat ∧
      (holed 1 0).pbuf.field 0 5 ≠ 0 ∧
      GammaReads (holed 1 0).pbuf 10 (32 * (holed 1 0).pbufLen.toNat) 32 ∧
      ¬ (holed 1 0).pbuf.has (32 / 32) := by
  refine ⟨by decide, by decide, by decide, ⟨by decide, by decide, .inl fun r h1 h2 => ?_⟩, by decide⟩
  have e : ∀ r, r < 32 → 10 ≤ r → (holed 1 0).pbuf.bit r = false := by decide
  exact e r h2 h1

/-- The slot of element 3 of `goodOv`, where its word holds no value. -/
theorem witness_OvElement_no_value :
    let s := holed 0x050C4861 3
    s.pbufLen.toNat ≤ s.capPbuf.toNat ∧ OvGoodHeader s 1 1 13 8 ∧ 8 ≤ s.capN.toNat ∧ 3 < 8 ∧
      s.a0.toInt = (3 : Nat) ∧
      (∀ i, i < 3 → s.pbuf.bit (13 + i * (1 + 1)) = true →
        s.pbuf.field (13 + i * (1 + 1) + 1) 1 < 1) ∧
      OvElementWord s 1 1 13 3 1 ∧ ¬ s.pbuf.has 1 :=
  ⟨by decide, ⟨by decide, by decide, by decide,
    ⟨1, by decide, by decide, by decide, by decide, by decide, by decide⟩,
    by decide, by decide, by decide⟩, by decide, by decide, by decide, by decide,
    .inr ⟨by decide, by decide, by decide⟩, by decide⟩

theorem witness_OvDecompressReadsEveryElement :
    8 ≤ (goodOv 3).capN.toNat ∧
      (∀ i, i < 8 → (goodOv 3).pbuf.bit (13 + i * (1 + 1)) = true →
        (goodOv 3).pbuf.field (13 + i * (1 + 1) + 1) 1 < 1) ∧
      (3 < 8 ∧ (badOv 3).pbuf.bit (13 + 3 * (1 + 1)) = true ∧
        1 ≤ (badOv 3).pbuf.field (13 + 3 * (1 + 1) + 1) 1) ∧
      { goodOv 3 with capN := 7 }.capN.toNat < 8 := by decide

theorem witness_OvGetReadsOneElement :
    (goodOv 0xFFFFFFFF).a0.toInt < 0 ∧ ((8 : Nat) : Int) ≤ (goodOv 8).a0.toInt ∧
      ((goodOv 7).a0.toInt = (7 : Nat) ∧ 7 < 8 ∧ (goodOv 7).pbuf.bit (13 + 7 * (1 + 1)) = false) ∧
      ((badOv 3).a0.toInt = (3 : Nat) ∧ (badOv 3).pbuf.bit (13 + 3 * (1 + 1)) = true ∧
        1 ≤ (badOv 3).pbuf.field (13 + 3 * (1 + 1) + 1) 1) ∧
      (goodOv 3).a0.toInt = (3 : Nat) ∧ (goodOv 3).pbuf.bit (13 + 3 * (1 + 1)) = true ∧
      (goodOv 3).pbuf.field (13 + 3 * (1 + 1) + 1) 1 < 1 ∧
      (goodOv 3).pbuf.read ((goodOv 3).pbufLen.toNat - 1 -
        (goodOv 3).pbuf.field (13 + 3 * (1 + 1) + 1) 1) = some 1000000 := by decide

theorem witness_OvMalformedHeaders_width :
    BufferReady (withBuf [0] 0 0 0) ∧ (withBuf [0] 0 0 0).pbufLen ≠ 0 ∧
      (withBuf [0] 0 0 0).pbuf.field 0 5 = 0 := ⟨ready_one _ _, by decide, by decide⟩
theorem witness_OvMalformedHeaders_no_code :
    BufferReady (withBuf [1] 0 0 0) ∧ (withBuf [1] 0 0 0).pbufLen ≠ 0 ∧
      ∀ k n, k ≤ 31 → 10 + (2 * k + 1) ≤ 32 * (withBuf [1] 0 0 0).pbufLen.toNat →
        ¬ GammaCodeAt (withBuf [1] 0 0 0).pbuf 10 k n := by
  refine ⟨ready_one _ _, by decide, fun k n _ h hg => ?_⟩
  have e : (withBuf [1] 0 0 0).pbufLen.toNat = 1 := by decide
  have h1 := hg.2.2.2 0 (Nat.zero_le _)
  have h2 : ∀ k, k ≤ 10 → (withBuf [1] 0 0 0).pbuf.bit (10 + k + 0) = false := by decide
  rw [h2 k (by omega), Nat.sub_zero] at h1
  have h3 : n / 2 ^ k % 2 = 1 := by
    have h4 : 1 ≤ n / 2 ^ k := (Nat.one_le_div_iff (by positivity)).mpr hg.1
    have h5 : n / 2 ^ k < 2 := by
      rw [Nat.div_lt_iff_lt_mul (by positivity)]
      have := hg.2.1
      rw [Nat.pow_succ] at this
      omega
    omega
  rw [Nat.testBit_eq_decide_div_mod_eq, h3] at h1
  simp at h1
theorem witness_OvMalformedHeaders_count :
    BufferReady (withBuf [0x00000801] 0 0 0) ∧ (withBuf [0x00000801] 0 0 0).pbufLen ≠ 0 ∧
      10 + (2 * 1 + 1) ≤ 32 * (withBuf [0x00000801] 0 0 0).pbufLen.toNat ∧
      GammaCodeAt (withBuf [0x00000801] 0 0 0).pbuf 10 1 (1 + 1) ∧
      (withBuf [0x00000801] 0 0 0).pbufLen.toNat ≤ 1 :=
  ⟨ready_one _ _, by decide, by decide, ⟨by decide, by decide, by decide, by decide⟩, by decide⟩
theorem witness_OvMalformedHeaders_length :
    BufferReady (withBuf [0x00000401] 0 0 0) ∧ (withBuf [0x00000401] 0 0 0).pbufLen ≠ 0 ∧
      10 + (2 * 0 + 1) ≤ 32 * (withBuf [0x00000401] 0 0 0).pbufLen.toNat ∧
      GammaCodeAt (withBuf [0x00000401] 0 0 0).pbuf 10 0 (0 + 1) ∧
      ∀ n, (withBuf [0x00000401] 0 0 0).pbuf.field 5 5 + (10 + (2 * 0 + 1)) +
        n * ((withBuf [0x00000401] 0 0 0).pbuf.field 0 5 + 1) ≠
          32 * ((withBuf [0x00000401] 0 0 0).pbufLen.toNat - 0) := by
  refine ⟨ready_one _ _, by decide, by decide, ⟨by decide, by decide, by decide, by decide⟩,
    fun n => ?_⟩
  have e1 : (withBuf [0x00000401] 0 0 0).pbuf.field 5 5 = 0 := by decide
  have e2 : (withBuf [0x00000401] 0 0 0).pbuf.field 0 5 = 1 := by decide
  have e3 : (withBuf [0x00000401] 0 0 0).pbufLen.toNat = 1 := by decide
  rw [e1, e2, e3]
  omega

/-- Two blocks alike in their buffer: the one's third word, above PBUF_LEN, was written, its SEQ_IN,
results, code and host events differ. Both decode the Sequence, and both are refused where the
buffer's second word holds no value. -/
theorem witness_DecodersSeeOnlyTheWords :
    let s := goodOv 3
    let s' := { s with pbuf := s.pbuf.write 2 7, seqIn := [(0, 1)], res0 := 9, code := 3
                       pending := [Event.reset] }
    SameBuffer s s' ∧ s'.faulted = s.faulted ∧
      seen (exec .ovDecompress s) (fun t => (t.code, t.seqOutLen)) = some (0, 8) := by
  refine ⟨⟨rfl, rfl, rfl, ⟨rfl, rfl⟩, fun k hk => ?_⟩, rfl, by decide⟩
  have e : ∀ k, k < 2 → ((goodOv 3).pbuf.write 2 7).read k = (goodOv 3).pbuf.read k := by decide
  exact e k hk
theorem witness_DecodersSeeOnlyTheWords_refused :
    SameBuffer (holed 1 0) { holed 1 0 with scratch := [(0, 1)] } ∧
      exec .ovDecompress (holed 1 0) = .refused (.noValue .pbuf 1) :=
  ⟨⟨rfl, rfl, rfl, ⟨rfl, rfl⟩, fun _ _ => rfl⟩, rfl⟩

theorem witness_GoodRunsWereGoodBefore :
    (∀ rest, (about loaded (.writeReg 0x00 9)).pending ≠ .reset :: rest) ∧
      (seen (step (about loaded (.writeReg 0x00 9))) fun t => (t.noValueRead, t.faulted)) =
        some (false, false) :=
  ⟨by intro rest h; simp [about] at h, by decide⟩
/-- The reset event of a faulted, unmarked run: FAULTED is cleared, and the mark was not set. -/
theorem witness_GoodRunsWereGoodBefore_reset :
    (seen (step { about loaded .reset with faulted := true, code := 1 })
      fun t => (t.noValueRead, t.faulted)) = some (false, false) := by decide

/-- A reset block whose A0 stands at 5 instead of 0: A0 holds no value. -/
theorem witness_UnwrittenRegistersDoNotMatter :
    SameButNoValue (about State.reset (.writeReg 0x00 7))
        { about State.reset (.writeReg 0x00 7) with a0 := 5 } ∧
      (seen (step (about State.reset (.writeReg 0x00 7))) fun t => t.noValueRead) = some false := by
  refine ⟨⟨rfl, fun r hr => ?_⟩, by decide⟩
  cases r <;> first | rfl | exact absurd (by decide) hr

end Sys2Proof.Tests
end

section
/-! PROOFS. The statements of 00_scope.md: what a command can leave when it completes, the invariant
of the machine along every step, and the errors of the commands that read SEQ_IN. -/

namespace Sys2Proof.Machine

open Sys2Proof

/-! ## Parts of a command -/

/-- The judgement the commands are composed with: a part of a command answers only values with `P`,
and stops with the model's fault only where `q` holds. -/
structure Meets {α : Type} (q : Prop) (c : Except Stop α) (P : α → Prop) : Prop where
  answers : ∀ a, c = .ok a → P a
  faults : ∀ f, c = .error (.fault f) → q

section Meets

variable {α β : Type} {q : Prop}

theorem Meets.pure {a : α} {P : α → Prop} (h : P a) : Meets q (.ok a) P where
  answers b hb := by cases hb; exact h
  faults f hf := by cases hf

theorem Meets.bind {x : Except Stop α} {f : α → Except Stop β} {P : α → Prop} {Q : β → Prop}
    (hx : Meets q x P) (hf : ∀ a, P a → Meets q (f a) Q) : Meets q (x >>= f) Q where
  answers b hb := by
    obtain ⟨a, ha, hb⟩ := bind_ok_iff.mp hb
    exact (hf a (hx.answers a ha)).answers b hb
  faults e he := by
    rcases bind_error_iff.mp he with he | ⟨a, ha, he⟩
    · exact hx.faults e he
    · exact (hf a (hx.answers a ha)).faults e he

/-- A part that raises no fault meets whatever its answers satisfy. -/
theorem Meets.of_ne_fault {c : Except Stop α} {P : α → Prop} (ha : ∀ a, c = .ok a → P a)
    (he : ∀ e, c = .error e → ∀ f, e ≠ .fault f) : Meets q c P :=
  ⟨ha, fun f hf => absurd rfl (he _ hf f)⟩

theorem check_meets (p : Prop) [Decidable p] (e : ErrorCode) :
    Meets q (check p e) (fun _ => ¬ p) :=
  .of_ne_fault (fun _ h => check_ok_iff.mp h) fun _ h f hf => by
    obtain ⟨-, rfl⟩ := check_error_iff.mp h
    cases hf

theorem readWord_meets (sp : Space) (m : Memory) (i : Nat) :
    Meets q (readWord sp m i) (fun _ => True) :=
  .of_ne_fault (fun _ _ => trivial) fun _ h f hf => by
    obtain ⟨-, rfl⟩ := readWord_error_iff.mp h
    cases hf

theorem collect_meets {f : Nat → Except Stop α} (hf : ∀ i, Meets q (f i) (fun _ => True))
    (i n : Nat) : Meets q (collect f i n) (fun vs => vs.length = n) where
  answers _ h := (collect_ok_iff.mp h).1
  faults e h := by
    obtain ⟨j, -, hj⟩ := collect_error h
    exact (hf _).faults e hj

theorem readField_meets (m : Memory) (p n : Nat) : Meets q (readField m p n) (fun _ => True) :=
  .of_ne_fault (fun _ _ => trivial) fun _ h f hf => by
    obtain ⟨i, rfl, -⟩ := readField_error h
    cases hf

theorem gammaRead_meets (m : Memory) (p limit : Nat) :
    Meets q (gammaRead m p limit) (fun _ => True) :=
  .of_ne_fault (fun _ _ => trivial) fun _ h f hf => by
    obtain ⟨i, -, rfl, -⟩ := gammaRead_error h
    cases hf

theorem orInvalidRange_meets (v : Option Word) : Meets q (orInvalidRange v) (fun _ => True) := by
  cases v with
  | none => exact ⟨fun _ _ => trivial, fun f hf => by cases hf⟩
  | some v => exact .pure trivial

theorem orInvalidArgument_meets (r : GammaRead) :
    Meets q (orInvalidArgument r) (fun _ => True) := by
  cases r with
  | value n p => exact .pure trivial
  | unterminated => exact ⟨fun _ _ => trivial, fun f hf => by cases hf⟩
  | tooLong => exact ⟨fun _ _ => trivial, fun f hf => by cases hf⟩

theorem inputSequence_meets (s : State) : Meets q (inputSequence s) (Input s) :=
  .of_ne_fault (fun _ h => inputSequence_ok h) fun _ h f hf => by
    rcases inputSequence_error h with ⟨rfl, -⟩ | ⟨i, -, rfl, -⟩ | ⟨rfl, -⟩ <;> cases hf

/-- The operands a field command goes on with name a field of at most 32 bits (R106, R107). -/
theorem fieldOperands_meets (s : State) : Meets q (fieldOperands s) (fun pn => pn.2 ≤ 32) :=
  (check_meets _ _).bind fun _ _ => (check_meets _ _).bind fun _ hrange =>
    (check_meets _ _).bind fun _ _ => .pure (by simp only; omega)

theorem nsHeader_meets (s : State) : Meets q (nsHeader s) (fun _ => True) :=
  .of_ne_fault (fun _ _ => trivial) fun _ h f hf => by
    rcases nsHeader_error h with rfl | ⟨-, rfl, -⟩ <;> cases hf

theorem spHeader_meets (s : State) : Meets q (spHeader s) (fun _ => True) :=
  .of_ne_fault (fun _ _ => trivial) fun _ h f hf => by
    rcases spHeader_error h with rfl | ⟨-, rfl, -⟩ <;> cases hf

theorem ovHeader_meets (s : State) : Meets q (ovHeader s) (fun _ => True) :=
  .of_ne_fault (fun _ _ => trivial) fun _ h f hf => by
    rcases ovHeader_error h with rfl | ⟨i, -, -, rfl, -⟩ <;> cases hf

theorem nsElement_meets (s : State) (w i : Nat) : Meets q (nsElement s w i) (fun _ => True) :=
  (readField_meets _ _ _).bind fun _ _ => .pure trivial

theorem spElement_meets (s : State) (w i : Nat) : Meets q (spElement s w i) (fun _ => True) :=
  (readField_meets _ _ _).bind fun _ _ => .pure trivial

theorem ovElement_meets (s : State) (hd : OverflowHeader) (i : Nat) :
    Meets q (ovElement s hd i) (fun _ => True) :=
  (readField_meets _ _ _).bind fun marker _ => (readField_meets _ _ _).bind fun _ _ => by
    by_cases h : marker = 0
    · rw [if_pos h]
      exact .pure trivial
    · rw [if_neg h]
      exact (check_meets _ _).bind fun _ _ => readWord_meets _ _ _

end Meets

/-! ## What a completed command leaves -/

/-- A memory that may stand in PBUF after a command: still in canonical form, and every word that
holds a value held one before or lies below the capacity (R33). -/
def PbufAfter (s : State) (m : Memory) : Prop :=
  (s.pbuf.wf → m.wf) ∧ ∀ i, m.has i → s.pbuf.has i ∨ i < s.capPbuf.toNat

/-- What any command that completes can leave: PBUF, SCRATCH, SEQ_OUT with its length, PBUF_LEN and
the results are all it writes (R26, R28, R29, R65). -/
structure Completes (s t : State) : Prop where
  frame : t = { s with
    res0 := t.res0
    res1 := t.res1
    pbufLen := t.pbufLen
    seqOutLen := t.seqOutLen
    pbuf := t.pbuf
    seqOut := t.seqOut
    scratch := t.scratch
    noValue := t.noValue }
  pbuf : PbufAfter s t.pbuf
  scratch : ∃ vs, vs.length ≤ s.capN.toNat ∧ t.scratch = s.scratch.store 0 vs
  output : (t.seqOut = s.seqOut ∧ t.seqOutLen = s.seqOutLen) ∨
    ∃ vs, vs.length ≤ s.capN.toNat ∧ t.seqOut = s.seqOut.store 0 vs ∧
      t.seqOutLen = BitVec.ofNat 32 vs.length

theorem pbufAfter_self (s : State) : PbufAfter s s.pbuf := ⟨id, fun _ => .inl⟩

theorem Completes.setRes0 {s t : State} (h : Completes s t) (v : Word) :
    Completes s (t.setRes0 v) where
  frame := by
    conv_lhs => rw [h.frame]
    rfl
  pbuf := h.pbuf
  scratch := h.scratch
  output := h.output

theorem Completes.setRes1 {s t : State} (h : Completes s t) (v : Word) :
    Completes s (t.setRes1 v) where
  frame := by
    conv_lhs => rw [h.frame]
    rfl
  pbuf := h.pbuf
  scratch := h.scratch
  output := h.output

theorem completes_pbuf {s : State} {m : Memory} (h : PbufAfter s m) :
    Completes s { s with pbuf := m } :=
  ⟨rfl, h, ⟨[], Nat.zero_le _, rfl⟩, .inl ⟨rfl, rfl⟩⟩

theorem completes_self (s : State) : Completes s s := completes_pbuf (pbufAfter_self s)

theorem completes_compressed {s : State} {m : Memory} (h : PbufAfter s m) (words w : Nat) :
    Completes s (s.compressed m words w) :=
  ⟨rfl, h, ⟨[], Nat.zero_le _, rfl⟩, .inl ⟨rfl, rfl⟩⟩

theorem completes_compressedEmpty (s : State) : Completes s s.compressedEmpty :=
  completes_compressed (pbufAfter_self s) 0 0

/-- OV_COMPRESS leaves its loop's payloads in SCRATCH (R185). -/
theorem Completes.withScratch {s t : State} (h : Completes s t) {vs : List Word}
    (hvs : vs.length ≤ s.capN.toNat) :
    Completes s { t with scratch := s.scratch.store 0 vs } where
  frame := by conv_lhs => rw [h.frame]
  pbuf := h.pbuf
  scratch := ⟨vs, hvs, rfl⟩
  output := h.output

theorem completes_decompressed {s : State} {vs : List Word} (h : vs.length ≤ s.capN.toNat) :
    Completes s (s.decompressed vs) :=
  ⟨rfl, pbufAfter_self s, ⟨[], Nat.zero_le _, rfl⟩, .inr ⟨vs, h, rfl, rfl⟩⟩

/-! ## What PBUF holds after a write -/

theorem writeField_meets {q : Prop} (s : State) (p v : Nat) {n : Nat} (hn : n ≤ 32) :
    Meets q (writeField s.pbuf p n v) (PbufAfter s) :=
  .of_ne_fault
    (fun _ h =>
      have ⟨hhas, hwf, _⟩ := writeField_spec h hn
      ⟨hwf, fun i hi => .inl ((hhas i).mp hi)⟩)
    fun _ h f hf => by
      obtain ⟨i, rfl, -⟩ := writeField_error h
      cases hf

theorem writeFields_meets {q : Prop} (s : State) {fs : List Field} (hn : ∀ f ∈ fs, f.width ≤ 32) :
    Meets q (writeFields s.pbuf fs) (PbufAfter s) :=
  .of_ne_fault
    (fun _ h =>
      have ⟨hhas, hwf, _⟩ := writeFields_spec h hn
      ⟨hwf, fun i hi => .inl ((hhas i).mp hi)⟩)
    fun _ h f hf => by
      obtain ⟨i, rfl, -⟩ := writeFields_error h hn
      cases hf

/-- The capacities leave no room for the buffer of a full Sequence: what R10 rules out. -/
abbrev PbufTooSmall (s : State) : Prop := s.capPbuf.toNat < s.capN.toNat + 1

/-- A buffer of at most one word more than a Sequence has elements fits PBUF, unless PBUF is too
small (R10). -/
theorem packBuffer_meets {s : State} {words : Nat} {fs : List Field}
    (hwords : words ≤ s.capN.toNat + 1) (hwidth : ∀ f ∈ fs, 1 ≤ f.width ∧ f.width ≤ 32)
    (hin : ∀ f ∈ fs, ∀ q, f.covers q → q < 32 * words) :
    Meets (PbufTooSmall s) (packBuffer s words fs) (PbufAfter s) where
  answers m h := by
    obtain ⟨hcap, hhas, hwf, -⟩ := packBuffer_ok h (fun f hf => (hwidth f hf).2) hin
    refine ⟨hwf, fun i hi => ?_⟩
    rcases (hhas i).mp hi with hi | hi
    · exact .inr (by omega)
    · exact .inl hi
  faults f h := by
    obtain ⟨hcap, -⟩ := packBuffer_error h hwidth hin
    exact lt_of_lt_of_le hcap hwords

/-- The overflow selector never chooses a larger buffer than width 31 gives, which is at most one
word more than the Sequence has elements (R137). -/
theorem ovWords_le {A : List Word} (hA : Admitted A) :
    ovMainWords (overflowSelect A).1 (overflowSelect A).2 A.length + (overflowSelect A).2 ≤
      A.length + 1 := by
  obtain ⟨⟨-, -, -, hleast⟩, hoc⟩ := overflowSelect_spec hA
  have hno : outlierCount A 31 = 0 := outlierCount_zero hA
  have hle : overflowSize A (overflowSelect A).1 ≤ overflowSize A 31 :=
    (hleast 31 (by omega) le_rfl (by omega)).1
  have h31 : overflowSize A 31 = (A.length * 32 + 42) / 32 * 32 := by
    simp [overflowSize, hno, Nat.log2_def]
  obtain ⟨-, -, -, hsize, -⟩ := ov_words hoc
  omega

/-! ## The commands -/

/-- A command ends as `settle` says, in a state that `Completes` describes or in a stop that is the
model's fault only where PBUF is too small. -/
def Settles (s : State) (r : Result) : Prop :=
  ∃ c, r = settle s c ∧ Meets (PbufTooSmall s) c (Completes s)

theorem execBfExtract_settles (s : State) : Settles s (execBfExtract s) :=
  ⟨_, rfl, (orInvalidRange_meets _).bind fun _ _ => .pure ((completes_self s).setRes0 _)⟩

theorem execBfInsert_settles (s : State) : Settles s (execBfInsert s) :=
  ⟨_, rfl, (orInvalidRange_meets _).bind fun _ _ => .pure ((completes_self s).setRes0 _)⟩

theorem execFieldRead_settles (s : State) : Settles s (execFieldRead s) :=
  ⟨_, rfl, (fieldOperands_meets s).bind fun _ _ => (readField_meets _ _ _).bind fun _ _ =>
    .pure ((completes_self s).setRes0 _)⟩

theorem execFieldWrite_settles (s : State) : Settles s (execFieldWrite s) :=
  ⟨_, rfl, (fieldOperands_meets s).bind fun _ hn => (writeField_meets s _ _ hn).bind fun _ hm =>
    .pure (completes_pbuf hm)⟩

theorem execGammaEnc_settles (s : State) : Settles s (execGammaEnc s) :=
  ⟨_, rfl, (check_meets _ _).bind fun _ _ => (check_meets _ _).bind fun _ _ =>
    (check_meets _ _).bind fun _ _ => (check_meets _ _).bind fun _ _ =>
      (writeFields_meets s fun _ hf => by rw [gammaFields_width hf]; omega).bind fun _ hm =>
        .pure (((completes_pbuf hm).setRes0 _).setRes1 _)⟩

theorem execGammaDec_settles (s : State) : Settles s (execGammaDec s) :=
  ⟨_, rfl, (check_meets _ _).bind fun _ _ => (check_meets _ _).bind fun _ _ =>
    (gammaRead_meets _ _ _).bind fun _ _ => (orInvalidArgument_meets _).bind fun _ _ =>
      .pure (((completes_self s).setRes0 _).setRes1 _)⟩

theorem execWselUniform_settles (s : State) : Settles s (execWselUniform s) :=
  ⟨_, rfl, (inputSequence_meets s).bind fun _ _ =>
    .pure (((completes_self s).setRes0 _).setRes1 _)⟩

theorem execWselOverflow_settles (s : State) : Settles s (execWselOverflow s) :=
  ⟨_, rfl, (inputSequence_meets s).bind fun _ _ =>
    .pure (((completes_self s).setRes0 _).setRes1 _)⟩

theorem execNsCompress_settles (s : State) : Settles s (execNsCompress s) := by
  refine ⟨_, rfl, (inputSequence_meets s).bind fun A hin => ?_⟩
  obtain ⟨-, hA, hlen⟩ := hin
  by_cases hempty : A = []
  · rw [if_pos hempty]
    exact .pure (completes_compressedEmpty s)
  · rw [if_neg hempty]
    obtain ⟨⟨h1, -⟩, h31, -⟩ := uniformWidth_spec A
    obtain ⟨hwidth, hfit, -⟩ := nsFields_ok (A := A) h1 (h31 hA)
    obtain ⟨-, -, hwords, -⟩ := ns_words A.length h1 (h31 hA)
    exact (packBuffer_meets (by omega) hwidth hfit).bind fun _ hm =>
      .pure (completes_compressed hm _ _)

theorem execSpCompress_settles (s : State) : Settles s (execSpCompress s) := by
  refine ⟨_, rfl, (inputSequence_meets s).bind fun A hin => ?_⟩
  obtain ⟨-, hA, hlen⟩ := hin
  by_cases hempty : A = []
  · rw [if_pos hempty]
    exact .pure (completes_compressedEmpty s)
  · rw [if_neg hempty]
    obtain ⟨⟨h1, -⟩, h31, -⟩ := uniformWidth_spec A
    obtain ⟨hwidth, hfit, -⟩ := spFields_ok (A := A) h1 (h31 hA)
    obtain ⟨-, -, hwords, -⟩ := sp_words (n := A.length) (h31 hA)
    exact (packBuffer_meets (by omega) hwidth hfit).bind fun _ hm =>
      .pure (completes_compressed hm _ _)

theorem execOvCompress_settles (s : State) : Settles s (execOvCompress s) := by
  refine ⟨_, rfl, (inputSequence_meets s).bind fun A hin => ?_⟩
  obtain ⟨-, hA, hlen⟩ := hin
  by_cases hempty : A = []
  · rw [if_pos hempty]
    exact .pure (completes_compressedEmpty s)
  · rw [if_neg hempty]
    obtain ⟨⟨h1, h31, -⟩, hoc⟩ := overflowSelect_spec hA
    obtain ⟨hwidth, hfit, -⟩ := ovFields_ok h1 h31 hoc
    have hwords := ovWords_le hA
    exact (packBuffer_meets (hwords.trans (by omega)) hwidth hfit).bind fun _ hm =>
      .pure ((completes_compressed hm _ _).withScratch (by rwa [ovScratch_length]))

theorem execNsDecompress_settles (s : State) : Settles s (execNsDecompress s) :=
  ⟨_, rfl, (check_meets _ _).bind fun _ _ => (nsHeader_meets s).bind fun _ _ =>
    (check_meets _ _).bind fun _ hcap =>
      (collect_meets (nsElement_meets s _) _ _).bind fun _ hlen =>
        .pure (completes_decompressed (hlen.trans_le (Nat.le_of_not_lt hcap)))⟩

theorem execSpDecompress_settles (s : State) : Settles s (execSpDecompress s) :=
  ⟨_, rfl, (check_meets _ _).bind fun _ _ => (spHeader_meets s).bind fun _ _ =>
    (check_meets _ _).bind fun _ hcap =>
      (collect_meets (spElement_meets s _) _ _).bind fun _ hlen =>
        .pure (completes_decompressed (hlen.trans_le (Nat.le_of_not_lt hcap)))⟩

theorem execOvDecompress_settles (s : State) : Settles s (execOvDecompress s) :=
  ⟨_, rfl, (check_meets _ _).bind fun _ _ => (ovHeader_meets s).bind fun _ _ =>
    (check_meets _ _).bind fun _ hcap =>
      (collect_meets (ovElement_meets s _) _ _).bind fun _ hlen =>
        .pure (completes_decompressed (hlen.trans_le (Nat.le_of_not_lt hcap)))⟩

theorem execNsGet_settles (s : State) : Settles s (execNsGet s) :=
  ⟨_, rfl, (check_meets _ _).bind fun _ _ => (nsHeader_meets s).bind fun _ _ =>
    (check_meets _ _).bind fun _ _ => (nsElement_meets s _ _).bind fun _ _ =>
      .pure ((completes_self s).setRes0 _)⟩

theorem execSpGet_settles (s : State) : Settles s (execSpGet s) :=
  ⟨_, rfl, (check_meets _ _).bind fun _ _ => (spHeader_meets s).bind fun _ _ =>
    (check_meets _ _).bind fun _ _ => (spElement_meets s _ _).bind fun _ _ =>
      .pure ((completes_self s).setRes0 _)⟩

theorem execOvGet_settles (s : State) : Settles s (execOvGet s) :=
  ⟨_, rfl, (check_meets _ _).bind fun _ _ => (ovHeader_meets s).bind fun _ _ =>
    (check_meets _ _).bind fun _ _ => (ovElement_meets s _ _).bind fun _ _ =>
      .pure ((completes_self s).setRes0 _)⟩

theorem exec_settles (i : Instr) (s : State) : Settles s (exec i s) := by
  cases i with
  | bfExtract => exact execBfExtract_settles s
  | bfInsert => exact execBfInsert_settles s
  | fieldRead => exact execFieldRead_settles s
  | fieldWrite => exact execFieldWrite_settles s
  | gammaEnc => exact execGammaEnc_settles s
  | gammaDec => exact execGammaDec_settles s
  | wselUniform => exact execWselUniform_settles s
  | wselOverflow => exact execWselOverflow_settles s
  | nsCompress => exact execNsCompress_settles s
  | nsDecompress => exact execNsDecompress_settles s
  | nsGet => exact execNsGet_settles s
  | spCompress => exact execSpCompress_settles s
  | spDecompress => exact execSpDecompress_settles s
  | spGet => exact execSpGet_settles s
  | ovCompress => exact execOvCompress_settles s
  | ovDecompress => exact execOvDecompress_settles s
  | ovGet => exact execOvGet_settles s

/-- The two ways a command has a next state: it completes, or it raises an error. -/
theorem exec_next_cases {i : Instr} {s t : State} (h : exec i s = .next t) :
    (∃ u, Completes s u ∧ t = u.succeed) ∨ ∃ e, t = s.raise e := by
  obtain ⟨c, hc, hmeets⟩ := exec_settles i s
  rcases settle_next_iff.mp (hc.symm.trans h) with ⟨u, hu, rfl⟩ | ⟨e, -, rfl⟩
  · exact .inl ⟨u, hmeets.answers u hu, rfl⟩
  · exact .inr ⟨e, rfl⟩

/-- The model's fault needs capacities that R10 rules out. -/
theorem exec_fault_pbufTooSmall {i : Instr} {s : State} {f : Fault} (h : exec i s = .fault f) :
    PbufTooSmall s := by
  obtain ⟨c, hc, hmeets⟩ := exec_settles i s
  exact hmeets.faults f (settle_fault_iff.mp (hc.symm.trans h))

/-! ## The invariant -/

/-- The invariant looks at STATUS, the memories, their capacities and SEQ_OUT_LEN alone. -/
theorem Inv.of_same {s t : State} (h : Inv s)
    (ht : t = { s with
      a0 := t.a0
      a1 := t.a1
      a2 := t.a2
      a3 := t.a3
      a4 := t.a4
      seqInLen := t.seqInLen
      pbufLen := t.pbufLen
      noValue := t.noValue
      noValueRead := t.noValueRead
      readData := t.readData
      pending := t.pending }) : Inv t := by
  rw [ht]
  exact ⟨h.capacities, h.canonical, h.bounded, h.legalCode, h.latch, h.output⟩

theorem inv_resetWith {nMax pbufMax : Word} (h : Config.Admissible nMax pbufMax) :
    Inv (State.resetWith nMax pbufMax) where
  capacities := h
  canonical := by simp [Memory.wf]
  bounded := by simp [Memory.below]
  legalCode := by simp
  latch := by simp
  output := by simp

theorem Inv.hardReset {s : State} (h : Inv s) : Inv s.hardReset :=
  (inv_resetWith h.capacities).of_same rfl

theorem codeOf_le (e : ErrorCode) : (codeOf e).toNat ≤ 7 := by cases e <;> decide

/-- An error raised on a block that is not faulted leaves FAULTED as its class says (R213, R214). -/
theorem Inv.raise {s : State} (h : Inv s) (hf : s.faulted = false) (e : ErrorCode) :
    Inv (s.raise e) where
  capacities := h.capacities
  canonical := h.canonical
  bounded := h.bounded
  legalCode := codeOf_le e
  latch := by
    rw [State.raise_faulted, State.raise_code, hf, Bool.false_or]
    cases e <;> decide
  output := h.output

theorem PbufAfter.below {s : State} {m : Memory} (h : PbufAfter s m) (hwf : s.pbuf.wf)
    (hb : s.pbuf.below s.capPbuf.toNat) : m.below s.capPbuf.toNat :=
  (Memory.below_iff (h.1 hwf)).mpr fun i hi =>
    (h.2 i hi).elim ((Memory.below_iff hwf).mp hb i) id

/-- A run of at most a capacity's words, stored from index 0, reads back by a length register. -/
theorem output_store {m : Memory} {vs : List Word} {cap : Word} (h : vs.length ≤ cap.toNat) :
    (BitVec.ofNat 32 vs.length).toNat ≤ cap.toNat ∧
      ∀ i, i < (BitVec.ofNat 32 vs.length).toNat → (m.store 0 vs).has i := by
  have hlen : (BitVec.ofNat 32 vs.length).toNat = vs.length :=
    (BitVec.toNat_ofNat _ _).trans (Nat.mod_eq_of_lt (h.trans_lt cap.isLt))
  rw [hlen]
  exact ⟨h, fun i hi => Memory.has_store.mpr (.inl ⟨Nat.zero_le _, by omega⟩)⟩

/-- A command that completes on a block that is not faulted keeps the invariant. -/
theorem Inv.completes {s u : State} (h : Inv s) (hf : s.faulted = false) (hu : Completes s u) :
    Inv u.succeed := by
  obtain ⟨hSeqIn, hPbuf, hSeqOut, hScratch⟩ := h.canonical
  obtain ⟨bSeqIn, bPbuf, bSeqOut, bScratch⟩ := h.bounded
  obtain ⟨sc, hsc, hscratch⟩ := hu.scratch
  have hcapN : u.capN = s.capN := by rw [hu.frame]
  have hcapPbuf : u.capPbuf = s.capPbuf := by rw [hu.frame]
  have hseqIn : u.seqIn = s.seqIn := by rw [hu.frame]
  have hfaulted : u.faulted = s.faulted := by rw [hu.frame]
  have hout : u.seqOut.wf ∧ u.seqOut.below s.capN.toNat ∧
      u.seqOutLen.toNat ≤ s.capN.toNat ∧ ∀ i, i < u.seqOutLen.toNat → u.seqOut.has i := by
    rcases hu.output with ⟨hmem, hlen⟩ | ⟨vs, hvs, hmem, hlen⟩
    · rw [hmem, hlen]
      exact ⟨hSeqOut, bSeqOut, h.output⟩
    · rw [hmem, hlen]
      exact ⟨Memory.wf_store hSeqOut 0 vs, Memory.below_store bSeqOut (by omega),
        output_store hvs⟩
  obtain ⟨hwf, hbelow, hlen⟩ := hout
  constructor
  case capacities => simpa [hcapN, hcapPbuf] using h.capacities
  case canonical =>
    simp only [State.succeed_seqIn, State.succeed_pbuf, State.succeed_seqOut,
      State.succeed_scratch, hseqIn, hscratch]
    exact ⟨hSeqIn, hu.pbuf.1 hPbuf, hwf, Memory.wf_store hScratch 0 sc⟩
  case bounded =>
    simp only [State.succeed_seqIn, State.succeed_pbuf, State.succeed_seqOut,
      State.succeed_scratch, State.succeed_capN, State.succeed_capPbuf, hseqIn, hscratch, hcapN,
      hcapPbuf]
    exact ⟨bSeqIn, hu.pbuf.below hPbuf bPbuf, hbelow, Memory.below_store bScratch (by omega)⟩
  case legalCode => simp [codeOk]
  case latch => simp [codeOk, hfaulted, hf]
  case output =>
    simp only [State.succeed_seqOut, State.succeed_seqOutLen, State.succeed_capN, hcapN]
    exact hlen

theorem Inv.exec {i : Instr} {s t : State} (h : Inv s) (hf : s.faulted = false)
    (ht : exec i s = .next t) : Inv t := by
  rcases exec_next_cases ht with ⟨u, hu, rfl⟩ | ⟨e, rfl⟩
  · exact h.completes hf hu
  · exact h.raise hf e

/-! ## The host's transactions -/

/-- The three ways a write of CMD is judged (R23, R215, R73). -/
theorem issue_cases (s : State) (c : Word) :
    (s.faulted = true ∧ issue s c = .next s) ∨
      (s.faulted = false ∧ (issue s c = .next (s.raise .illegalCommand) ∨
        ∃ i, decode c = .ok i ∧ issue s c = exec i (s.noteOperands i))) := by
  unfold issue
  cases hf : s.faulted with
  | true => exact .inl ⟨rfl, by simp⟩
  | false =>
    refine .inr ⟨rfl, ?_⟩
    cases hd : decode c with
    | error e => exact .inl (by simp)
    | ok i => exact .inr ⟨i, rfl, by simp⟩

theorem Inv.issue {s t : State} {c : Word} (h : Inv s) (ht : issue s c = .next t) : Inv t := by
  rcases issue_cases s c with ⟨-, hi⟩ | ⟨hf, hi | ⟨i, -, hi⟩⟩ <;> rw [hi] at ht
  · cases ht
    exact h
  · cases ht
    exact h.raise hf _
  · exact (h.of_same rfl : Inv (s.noteOperands i)).exec hf ht

theorem Inv.hostWriteReg {s t : State} {r : Reg} {v : Word} (h : Inv s)
    (ht : hostWriteReg s r v = .next t) : Inv t := by
  cases r with
  | cmd => exact h.issue ht
  | a0 | a1 | a2 | a3 | a4 | seqInLen | pbufLen => cases ht; exact h.of_same rfl
  | status | res0 | res1 | seqOutLen | capN | capPbuf => cases ht

theorem Inv.hostReadMem {s t : State} {sp : Space} {i : Nat} (h : Inv s)
    (ht : hostReadMem s sp i = .next t) : Inv t := by
  unfold Machine.hostReadMem at ht
  split at ht
  · split at ht
    · split at ht
      · cases ht
        exact h.of_same rfl
      · cases ht
    · cases ht
  · cases ht

/-- A host write reaches SEQ_IN and PBUF alone, below the capacity (R32 to R35, R39). -/
theorem hostWriteMem_next {s t : State} {sp : Space} {i : Nat} {v : Word}
    (h : hostWriteMem s sp i v = .next t) :
    (i < s.capN.toNat ∧ t = { s with seqIn := s.seqIn.write i v }) ∨
      (i < s.capPbuf.toNat ∧ t = { s with pbuf := s.pbuf.write i v }) := by
  cases sp with
  | seqIn =>
    simp only [hostWriteMem] at h
    split at h
    · cases h
      exact .inl ⟨‹_›, rfl⟩
    · cases h
  | pbuf =>
    simp only [hostWriteMem] at h
    split at h
    · cases h
      exact .inr ⟨‹_›, rfl⟩
    · cases h
  | seqOut => cases h
  | scratch => cases h

theorem Inv.hostWriteMem {s t : State} {sp : Space} {i : Nat} {v : Word} (h : Inv s)
    (ht : hostWriteMem s sp i v = .next t) : Inv t := by
  obtain ⟨hSeqIn, hPbuf, hOthers⟩ := h.canonical
  obtain ⟨bSeqIn, bPbuf, bOthers⟩ := h.bounded
  rcases hostWriteMem_next ht with ⟨hi, rfl⟩ | ⟨hi, rfl⟩
  · exact ⟨h.capacities, ⟨Memory.wf_write hSeqIn i v, hPbuf, hOthers⟩,
      ⟨Memory.below_write bSeqIn hi v, bPbuf, bOthers⟩, h.legalCode, h.latch, h.output⟩
  · exact ⟨h.capacities, ⟨hSeqIn, Memory.wf_write hPbuf i v, hOthers⟩,
      ⟨bSeqIn, Memory.below_write bPbuf hi v, bOthers⟩, h.legalCode, h.latch, h.output⟩

theorem Inv.perform {s t : State} {e : Event} (h : Inv s) (ht : perform s e = .next t) :
    Inv t := by
  cases e with
  | readReg i =>
    simp only [Machine.perform] at ht
    split at ht
    · cases ht
      exact h.of_same rfl
    · cases ht
  | writeReg i v =>
    simp only [Machine.perform] at ht
    split at ht
    · exact h.hostWriteReg ht
    · cases ht
  | readMem sp i => exact h.hostReadMem ht
  | writeMem sp i v => exact h.hostWriteMem ht
  | reset =>
    cases ht
    exact h.hardReset

theorem Inv.step {s t : State} (h : Inv s) (ht : step s = .next t) : Inv t := by
  cases hp : s.pending with
  | nil =>
    simp only [Machine.step, advance, hp] at ht
    cases ht
    exact h
  | cons e rest =>
    rw [step_cons hp] at ht
    exact (h.of_same rfl : Inv { s with pending := rest }).perform ht

/-! ## The model's fault -/

/-- Of the host's events only a write of CMD can stop with a fault, and it is the fault of the
command it issues. -/
theorem perform_fault {s : State} {e : Event} {f : Fault} (h : perform s e = .fault f) :
    ∃ i, exec i (s.noteOperands i) = .fault f := by
  have hissue : ∀ v, issue s v = .fault f → ∃ i, exec i (s.noteOperands i) = .fault f := by
    intro v hv
    rcases issue_cases s v with ⟨-, hi⟩ | ⟨-, hi | ⟨i, -, hi⟩⟩ <;> rw [hi] at hv
    · cases hv
    · cases hv
    · exact ⟨i, hv⟩
  cases e with
  | readReg i =>
    simp only [perform] at h
    split at h <;> cases h
  | writeReg i v =>
    simp only [perform] at h
    split at h
    · rename_i r _
      cases r with
      | cmd => exact hissue v h
      | _ => cases h
    · cases h
  | readMem sp i =>
    simp only [perform, hostReadMem] at h
    split_ifs at h
    split at h <;> cases h
  | writeMem sp i v =>
    cases sp with
    | seqIn | pbuf =>
      simp only [perform, hostWriteMem] at h
      split at h <;> cases h
    | seqOut | scratch => cases h
  | reset => cases h

theorem step_fault_pbufTooSmall {s : State} {f : Fault} (h : step s = .fault f) :
    PbufTooSmall s := by
  cases hp : s.pending with
  | nil =>
    simp only [step, advance, hp] at h
    cases h
  | cons e rest =>
    rw [step_cons hp] at h
    obtain ⟨i, hi⟩ := perform_fault h
    exact (exec_fault_pbufTooSmall hi :)

/-! ## The commands that read SEQ_IN -/

theorem exec_of_inputSequence_error {i : Instr} (hi : ReadsSeqIn i) {s : State} {e : Stop}
    (h : inputSequence s = .error e) : exec i s = settle s (.error e) := by
  simp only [ReadsSeqIn, List.mem_cons, List.not_mem_nil, or_false] at hi
  rcases hi with rfl | rfl | rfl | rfl | rfl
  · simp only [exec, execWselUniform, h, error_bind]
  · simp only [exec, execWselOverflow, h, error_bind]
  · simp only [exec, execNsCompress, h, error_bind]
  · simp only [exec, execSpCompress, h, error_bind]
  · simp only [exec, execOvCompress, h, error_bind]

/-- A recoverable error sets the code alone (R213, R216). -/
theorem raise_of_not_fatal (s : State) {e : ErrorCode} (h : isFatal e = false) :
    s.raise e = { s with code := codeOf e } := by
  simp only [State.raise, h, Bool.or_false]

theorem HoldsSequence.unique {s : State} {A B : List Word} (hA : HoldsSequence s A)
    (hB : HoldsSequence s B) : A = B := by
  obtain ⟨lA, rA⟩ := hA
  obtain ⟨lB, rB⟩ := hB
  refine List.ext_getElem? fun i => ?_
  by_cases hi : i < A.length
  · rw [← rA i hi, rB i (by omega)]
  · rw [List.getElem?_eq_none (by omega), List.getElem?_eq_none (by omega)]

theorem HoldsSequence.has {s : State} {A : List Word} (h : HoldsSequence s A) {k : Nat}
    (hk : k < s.seqInLen.toNat) : s.seqIn.has k := by
  obtain ⟨hl, hr⟩ := h
  have hkA : k < A.length := by omega
  exact Memory.has_iff.mpr ⟨A[k], by rw [hr k hkA, List.getElem?_eq_getElem hkA]⟩

/-- R68: the length is judged first. -/
theorem inputSequence_capacityExceeded {s : State} (h : s.capN.toNat < s.seqInLen.toNat) :
    inputSequence s = .error (.raise .capacityExceeded) := by
  simp only [inputSequence, checkSeqIn, uint, gt_iff_lt, check_pos h, error_bind]

/-- R12: a Sequence within the capacity that is not admitted is judged out of the domain. -/
theorem inputSequence_unsupportedValue {s : State} {A : List Word}
    (hcap : s.seqInLen.toNat ≤ s.capN.toNat) (hA : HoldsSequence s A) (hn : ¬ Admitted A) :
    inputSequence s = .error (.raise .unsupportedValue) := by
  cases h : inputSequence s with
  | ok B =>
    obtain ⟨hB, hadm, -⟩ := inputSequence_ok h
    exact absurd (hA.unique hB ▸ hadm) hn
  | error e =>
    rcases inputSequence_error h with ⟨-, hlt⟩ | ⟨k, hk, -, hno⟩ | ⟨rfl, -⟩
    · omega
    · exact absurd (hA.has hk) hno
    · rfl

/-- R37: a Sequence within the capacity of which an element holds no value is refused. -/
theorem inputSequence_noValue {s : State} {k : Nat} (hcap : s.seqInLen.toNat ≤ s.capN.toNat)
    (hk : k < s.seqInLen.toNat) (hno : ¬ s.seqIn.has k) :
    ∃ j, inputSequence s = .error (.refuse (.noValue .seqIn j)) := by
  cases h : inputSequence s with
  | ok A =>
    obtain ⟨hA, -, -⟩ := inputSequence_ok h
    exact absurd (hA.has hk) hno
  | error e =>
    rcases inputSequence_error h with ⟨-, hlt⟩ | ⟨j, -, rfl, -⟩ | ⟨-, A, hA, -⟩
    · omega
    · exact ⟨j, rfl⟩
    · exact absurd (hA.has hk) hno

/-! ## The obligations -/

/-- Settles O13: a step performs one event, and each event, a command of the engine among them,
keeps the invariant. -/
theorem stepKeepsTheInvariant : Obligations.StepKeepsTheInvariant :=
  fun _ _ hs ht => hs.step ht

/-- Settles O14: the fault needs a PBUF smaller than R10 admits. -/
theorem noStepFaults : Obligations.NoStepFaults := by
  intro s f hs hf
  have hsmall := step_fault_pbufTooSmall hf
  obtain ⟨-, -, hcap⟩ := hs.capacities
  omega

/-- Settles O42: each of the five commands stops as its input Sequence does. -/
theorem sequenceCommandErrors : Obligations.SequenceCommandErrors := by
  intro i hi s
  refine ⟨fun hlt => ?_, fun hcap => ⟨fun A hA hn => ?_, fun ⟨k, hk, hno⟩ => ?_⟩⟩
  · rw [exec_of_inputSequence_error hi (inputSequence_capacityExceeded hlt), settle_raise,
      raise_of_not_fatal s rfl]
    rfl
  · rw [exec_of_inputSequence_error hi (inputSequence_unsupportedValue hcap hA hn), settle_raise,
      raise_of_not_fatal s rfl]
    rfl
  · obtain ⟨j, hj⟩ := inputSequence_noValue hcap hk hno
    exact ⟨j, by rw [exec_of_inputSequence_error hi hj]; rfl⟩

/-- Settles O12: the reset state has the invariant, and Config's capacities are admissible. -/
theorem invariantHoldsAtReset : Obligations.InvariantHoldsAtReset :=
  ⟨fun _ _ => inv_resetWith, inv_resetWith (by decide)⟩

end Sys2Proof.Machine
end

section
/-! PROOFS. The statements of 10_state.md: what the host reads and writes and what is refused, the
frame of every command, and why what stands in a register that holds no value cannot be seen. -/

namespace Sys2Proof.Machine

open Sys2Proof

/-! ## The host's transactions, one rule each -/

theorem regOfIndex_regIndex (r : Reg) : regOfIndex (regIndex r) = some r := by
  cases r <;> rfl

theorem regOfIndex_above {i : Nat} (h : 0x0D < i) : regOfIndex i = none := by
  unfold regOfIndex
  split <;> first | omega | rfl

/-- A host read of a register (R22, R39). -/
theorem step_readReg {s : State} {r : Reg} {rest : List Event}
    (h : s.pending = .readReg (regIndex r) :: rest) :
    step s = .next { s with
      pending := rest
      readData := some (readRegister s r)
      noValueRead := s.noValueRead || decide (r ∈ s.noValue) } := by
  rw [step_cons h]
  simp only [perform, regOfIndex_regIndex, hostReadReg]
  cases r <;> rfl

/-- A host write of a register (R22, R39). -/
theorem step_writeReg {s : State} {r : Reg} {v : Word} {rest : List Event}
    (h : s.pending = .writeReg (regIndex r) v :: rest) :
    step s = hostWriteReg { s with pending := rest } r v := by
  rw [step_cons h]
  simp only [perform, regOfIndex_regIndex]

theorem step_noSuchRegister {s : State} {i : Nat} {v : Word} {rest : List Event} (hi : 0x0D < i)
    (h : s.pending = .readReg i :: rest ∨ s.pending = .writeReg i v :: rest) :
    step s = .refused (.noSuchRegister i) := by
  rcases h with h | h
  · rw [step_cons h]
    simp only [perform, regOfIndex_above hi]
  · rw [step_cons h]
    simp only [perform, regOfIndex_above hi]

theorem hostReadMem_next_iff {s t : State} {sp : Space} {i : Nat} :
    hostReadMem s sp i = .next t ↔
      sp.hostReadable = true ∧ i < capacityOf s sp ∧
        ∃ v, (memoryOf s sp).read i = some v ∧ { s with readData := some v } = t := by
  unfold hostReadMem
  split
  · split
    · cases (memoryOf s sp).read i <;> simp_all
    · simp_all
  · simp_all

theorem hostReadMem_noValue {s : State} {sp : Space} {i : Nat} (hsp : sp.hostReadable = true)
    (hi : i < capacityOf s sp) (hno : ¬ (memoryOf s sp).has i) :
    hostReadMem s sp i = .refused (.noValue sp i) := by
  have hread : (memoryOf s sp).read i = none := by simpa [Memory.has] using hno
  simp [hostReadMem, hsp, hi, hread]

theorem hostReadMem_outside {s : State} {sp : Space} {i : Nat} (hsp : sp.hostReadable = true)
    (hi : capacityOf s sp ≤ i) : hostReadMem s sp i = .refused (.outsideSpace sp i) := by
  simp [hostReadMem, hsp, Nat.not_lt.mpr hi]

theorem issue_faulted {s : State} (h : s.faulted = true) (c : Word) : issue s c = .next s := by
  simp [issue, h]

theorem issue_illegal {s : State} {c : Word} {e : Illegal} (h : s.faulted = false)
    (hd : decode c = .error e) : issue s c = .next (s.raise .illegalCommand) := by
  simp [issue, h, hd]

theorem issue_legal {s : State} {c : Word} {i : Instr} (h : s.faulted = false)
    (hd : decode c = .ok i) : issue s c = exec i (s.noteOperands i) := by
  simp [issue, h, hd]

/-- STATUS, bit by bit (R24). -/
theorem statusWord_getLsbD (s : State) (j : Nat) :
    (statusWord s).getLsbD j =
      if j < 4 then s.code.getLsbD j else decide (j = 4) && s.faulted := by
  have hbit : (s.code.toNat + 2 ^ 4 * s.faulted.toNat).testBit j =
      if j < 4 then s.code.getLsbD j else s.faulted.toNat.testBit (j - 4) := by
    rw [Nat.add_comm, Nat.testBit_two_pow_mul_add _ s.code.isLt]
    rfl
  unfold statusWord
  rw [BitVec.getLsbD_ofNat, hbit]
  by_cases h4 : j < 4
  · simp [h4, show j < 32 by omega]
  · by_cases hj : j = 4
    · subst hj
      cases s.faulted <;> rfl
    · have hhigh : s.faulted.toNat.testBit (j - 4) = false :=
        testBit_false_of_lt (n := 1) (by cases s.faulted <;> decide) (by omega)
      simp [h4, hj, hhigh]

/-! ## The frame of every command -/

/-- The operands, the input Sequence, the capacities and the host's side are no command's to write
(R25, R27, R30, R65). -/
theorem exec_frame {i : Instr} {s t : State} (h : exec i s = .next t) :
    t = { s with
      code := t.code
      faulted := t.faulted
      res0 := t.res0
      res1 := t.res1
      pbufLen := t.pbufLen
      seqOutLen := t.seqOutLen
      pbuf := t.pbuf
      seqOut := t.seqOut
      scratch := t.scratch
      noValue := t.noValue } := by
  rcases exec_next_cases h with ⟨u, hu, rfl⟩ | ⟨e, rfl⟩
  · have hfaulted : u.faulted = s.faulted := by rw [hu.frame]
    conv_lhs => rw [hu.frame]
    simp only [State.succeed, hfaulted]
  · rfl

/-- What a command that completes writes (R72, column writes). -/
inductive Effect where
  /-- RES0. -/
  | result (v : Word)
  /-- RES0 and RES1. -/
  | results (v w : Word)
  /-- Bits of PBUF. -/
  | field (m : Memory)
  /-- Bits of PBUF, RES0 and RES1. -/
  | code (m : Memory) (v w : Word)
  /-- PBUF with its length, RES0 and RES1. -/
  | buffer (m : Memory) (words w : Nat)
  /-- The same, and SCRATCH. -/
  | bufferAndScratch (m : Memory) (words w : Nat) (vs : List Word)
  /-- SEQ_OUT with its length, and RES0. -/
  | sequence (vs : List Word)

/-- The state an effect leaves, in the model's own operations. -/
def Effect.apply (s : State) : Effect → State
  | .result v => s.setRes0 v
  | .results v w => (s.setRes0 v).setRes1 w
  | .field m => { s with pbuf := m }
  | .code m v w => (State.setRes0 { s with pbuf := m } v).setRes1 w
  | .buffer m words w => s.compressed m words w
  | .bufferAndScratch m words w vs =>
    { s.compressed m words w with scratch := s.scratch.store 0 vs }
  | .sequence vs => s.decompressed vs

/-- The commands that may have an effect. -/
def Effect.writers : Effect → List Instr
  | .result _ => [.bfExtract, .bfInsert, .fieldRead, .nsGet, .spGet, .ovGet]
  | .results _ _ => [.gammaDec, .wselUniform, .wselOverflow]
  | .field _ => [.fieldWrite]
  | .code _ _ _ => [.gammaEnc]
  | .buffer _ _ _ => [.nsCompress, .spCompress, .ovCompress]
  | .bufferAndScratch _ _ _ _ => [.ovCompress]
  | .sequence _ => [.nsDecompress, .spDecompress, .ovDecompress]

/-- The body of a command from two states: it stops alike, or completes with one effect of that
command. -/
inductive Alike (i : Instr) (s s' : State) : Except Stop State → Except Stop State → Prop where
  | stop (e : Stop) : Alike i s s' (.error e) (.error e)
  | done (e : Effect) (h : i ∈ e.writers := by simp [Effect.writers]) :
    Alike i s s' (.ok (e.apply s)) (.ok (e.apply s'))

/-- A part that answers alike in both states passes the judgement on to what follows it. -/
theorem Alike.bind {α : Type} {i : Instr} {s s' : State} (x : Except Stop α)
    {f f' : α → Except Stop State} (h : ∀ a, Alike i s s' (f a) (f' a)) :
    Alike i s s' (x >>= f) (x >>= f') := by
  cases x with
  | error e => exact .stop e
  | ok a => exact h a

/-- A test of what both states share leaves the branches to be judged. -/
theorem Alike.ite {i : Instr} {s s' : State} {p : Prop} [Decidable p]
    {c c' d d' : Except Stop State} (hc : Alike i s s' c c') (hd : Alike i s s' d d') :
    Alike i s s' (if p then c else d) (if p then c' else d') := by
  by_cases hp : p
  · simpa only [if_pos hp] using hc
  · simpa only [if_neg hp] using hd

/-- `s` with the seven registers that may hold no value standing as in `x`. -/
def State.refill (s x : State) : State :=
  { s with
    a0 := x.a0
    a1 := x.a1
    a2 := x.a2
    a3 := x.a3
    a4 := x.a4
    res0 := x.res0
    res1 := x.res1 }

/-- A command has bodies from `s` and from `s.refill x` that are alike. -/
def EndsAlike (i : Instr) (s x : State) : Prop :=
  ∃ c c', exec i s = settle s c ∧ exec i (s.refill x) = settle (s.refill x) c' ∧
    Alike i s (s.refill x) c c'

/-- A command looks at no register but its operands: with these alike, it stops alike or has one
effect in both states. -/
theorem exec_endsAlike (i : Instr) (s x : State)
    (hop : ∀ r ∈ operandRegs i, readRegister x r = readRegister s r) : EndsAlike i s x := by
  have h0 : .a0 ∈ operandRegs i → x.a0 = s.a0 := hop .a0
  have h1 : .a1 ∈ operandRegs i → x.a1 = s.a1 := hop .a1
  have h2 : .a2 ∈ operandRegs i → x.a2 = s.a2 := hop .a2
  have h3 : .a3 ∈ operandRegs i → x.a3 = s.a3 := hop .a3
  have h4 : .a4 ∈ operandRegs i → x.a4 = s.a4 := hop .a4
  cases i
  case bfExtract =>
    refine ⟨_, _, rfl, rfl, ?_⟩
    simp only [State.refill, h0 (by decide), h1 (by decide), h2 (by decide)]
    exact .bind _ fun v => .done (.result v)
  case bfInsert =>
    refine ⟨_, _, rfl, rfl, ?_⟩
    simp only [State.refill, h0 (by decide), h1 (by decide), h2 (by decide), h3 (by decide),
      h4 (by decide)]
    exact .bind _ fun v => .done (.result v)
  case fieldRead =>
    refine ⟨_, _, rfl, rfl, ?_⟩
    simp only [State.refill, h0 (by decide), h1 (by decide)]
    exact .bind (fieldOperands s) fun _ => .bind _ fun v => .done (.result (BitVec.ofNat 32 v))
  case fieldWrite =>
    refine ⟨_, _, rfl, rfl, ?_⟩
    simp only [State.refill, h0 (by decide), h1 (by decide), h2 (by decide)]
    exact .bind (fieldOperands s) fun _ => .bind _ fun m => .done (.field m)
  case gammaEnc =>
    refine ⟨_, _, rfl, rfl, ?_⟩
    simp only [State.refill, h0 (by decide), h1 (by decide)]
    exact .bind (checkPbuf s) fun _ => .bind _ fun _ => .bind _ fun _ => .bind _ fun _ =>
      .bind _ fun m => .done (.code m _ _)
  case gammaDec =>
    refine ⟨_, _, rfl, rfl, ?_⟩
    simp only [State.refill, h0 (by decide)]
    exact .bind (checkPbuf s) fun _ => .bind _ fun _ => .bind _ fun _ => .bind _ fun nq =>
      .done (.results (BitVec.ofNat 32 nq.1) (BitVec.ofNat 32 nq.2))
  case wselUniform =>
    exact ⟨_, _, rfl, rfl, .bind (inputSequence s) fun A =>
      .done (.results (BitVec.ofNat 32 (uniformWidth A)) 0)⟩
  case wselOverflow =>
    exact ⟨_, _, rfl, rfl, .bind (inputSequence s) fun A =>
      .done (.results (BitVec.ofNat 32 (overflowSelect A).1)
        (BitVec.ofNat 32 (overflowSelect A).2))⟩
  case nsCompress =>
    exact ⟨_, _, rfl, rfl, .bind (inputSequence s) fun A =>
      .ite (.done (.buffer s.pbuf 0 0))
        (.bind (packBuffer s _ _) fun m => .done (.buffer m _ _))⟩
  case spCompress =>
    exact ⟨_, _, rfl, rfl, .bind (inputSequence s) fun A =>
      .ite (.done (.buffer s.pbuf 0 0))
        (.bind (packBuffer s _ _) fun m => .done (.buffer m _ _))⟩
  case ovCompress =>
    exact ⟨_, _, rfl, rfl, .bind (inputSequence s) fun A =>
      .ite (.done (.buffer s.pbuf 0 0))
        (.bind (packBuffer s _ _) fun m => .done (.bufferAndScratch m _ _ _))⟩
  case nsDecompress =>
    exact ⟨_, _, rfl, rfl, .bind (checkPbuf s) fun _ => .bind (nsHeader s) fun _ => .bind _ fun _ =>
      .bind (collect (nsElement s _) _ _) fun vs => .done (.sequence vs)⟩
  case spDecompress =>
    exact ⟨_, _, rfl, rfl, .bind (checkPbuf s) fun _ => .bind (spHeader s) fun _ => .bind _ fun _ =>
      .bind (collect (spElement s _) _ _) fun vs => .done (.sequence vs)⟩
  case ovDecompress =>
    exact ⟨_, _, rfl, rfl, .bind (checkPbuf s) fun _ => .bind (ovHeader s) fun _ => .bind _ fun _ =>
      .bind (collect (ovElement s _) _ _) fun vs => .done (.sequence vs)⟩
  case nsGet =>
    refine ⟨_, _, rfl, rfl, ?_⟩
    simp only [State.refill, h0 (by decide)]
    exact .bind (checkPbuf s) fun _ => .bind (nsHeader s) fun _ => .bind _ fun _ =>
      .bind (nsElement s _ _) fun v => .done (.result v)
  case spGet =>
    refine ⟨_, _, rfl, rfl, ?_⟩
    simp only [State.refill, h0 (by decide)]
    exact .bind (checkPbuf s) fun _ => .bind (spHeader s) fun _ => .bind _ fun _ =>
      .bind (spElement s _ _) fun v => .done (.result v)
  case ovGet =>
    refine ⟨_, _, rfl, rfl, ?_⟩
    simp only [State.refill, h0 (by decide)]
    exact .bind (checkPbuf s) fun _ => .bind (ovHeader s) fun _ => .bind _ fun _ =>
      .bind (ovElement s _ _) fun v => .done (.result v)

/-- A command with a next state has had an effect of its own, or has raised an error. -/
theorem exec_next_effect {i : Instr} {s t : State} (h : exec i s = .next t) :
    (∃ e : Effect, i ∈ e.writers ∧ t = (e.apply s).succeed) ∨ ∃ e, t = s.raise e := by
  obtain ⟨c, c', hc, -, hcc⟩ := exec_endsAlike i s s fun _ _ => rfl
  rw [hc] at h
  cases hcc with
  | done e he =>
    cases h
    exact .inl ⟨e, he, rfl⟩
  | stop e =>
    obtain ⟨u, hu, -⟩ | ⟨e, -, rfl⟩ := settle_next_iff.mp h
    · cases hu
    · exact .inr ⟨e, rfl⟩

theorem issue_keeps_capacities {s t : State} {c : Word} (h : issue s c = .next t) :
    t.capN = s.capN ∧ t.capPbuf = s.capPbuf := by
  rcases issue_cases s c with ⟨-, hi⟩ | ⟨-, hi | ⟨i, -, hi⟩⟩ <;> rw [hi] at h
  · cases h
    exact ⟨rfl, rfl⟩
  · cases h
    exact ⟨rfl, rfl⟩
  · rw [exec_frame h]
    exact ⟨rfl, rfl⟩

theorem perform_keeps_capacities {s t : State} {e : Event} (h : perform s e = .next t) :
    t.capN = s.capN ∧ t.capPbuf = s.capPbuf := by
  cases e with
  | readReg i =>
    simp only [perform] at h
    split at h
    · cases h
      exact ⟨rfl, rfl⟩
    · cases h
  | writeReg i v =>
    simp only [perform] at h
    split at h
    · rename_i r _
      cases r with
      | cmd => exact issue_keeps_capacities h
      | a0 | a1 | a2 | a3 | a4 | seqInLen | pbufLen => cases h; exact ⟨rfl, rfl⟩
      | status | res0 | res1 | seqOutLen | capN | capPbuf => cases h
    · cases h
  | readMem sp i =>
    obtain ⟨-, -, v, -, rfl⟩ := hostReadMem_next_iff.mp h
    exact ⟨rfl, rfl⟩
  | writeMem sp i v =>
    rcases hostWriteMem_next h with ⟨-, rfl⟩ | ⟨-, rfl⟩ <;> exact ⟨rfl, rfl⟩
  | reset =>
    cases h
    exact ⟨rfl, rfl⟩

/-! ## Registers that hold no value -/

/-- The registers that may hold no value and do hold one in `s` stand alike in `x` (R37). -/
def HeldAlike (s x : State) : Prop :=
  ∀ r ∈ unspecifiedAtReset, r ∉ s.noValue → readRegister x r = readRegister s r

theorem sameButNoValue_iff {s s' : State} :
    SameButNoValue s s' ↔ ∃ x, s' = s.refill x ∧ HeldAlike s x := by
  constructor
  · rintro ⟨hframe, hread⟩
    exact ⟨s', hframe, fun r _ hno => hread r hno⟩
  · rintro ⟨x, rfl, hx⟩
    refine ⟨rfl, fun r hno => ?_⟩
    cases r with
    | a0 | a1 | a2 | a3 | a4 | res0 | res1 => exact hx _ (by decide) hno
    | cmd | status | seqInLen | pbufLen | seqOutLen | capN | capPbuf => rfl

/-- `HeldAlike` looks at the seven registers and at the list of those without a value alone. -/
theorem HeldAlike.of_same {s x t : State} (hx : HeldAlike s x)
    (ht : t = { t with
      a0 := s.a0
      a1 := s.a1
      a2 := s.a2
      a3 := s.a3
      a4 := s.a4
      res0 := s.res0
      res1 := s.res1
      noValue := s.noValue }) : HeldAlike t x := by
  intro r hr hno
  rw [ht] at hno ⊢
  cases r with
  | a0 | a1 | a2 | a3 | a4 | res0 | res1 => exact hx _ hr hno
  | cmd | status | seqInLen | pbufLen | seqOutLen | capN | capPbuf =>
    exact absurd hr (by decide)

theorem HeldAlike.same {s x : State} (hx : HeldAlike s x) : SameButNoValue s (s.refill x) :=
  sameButNoValue_iff.mpr ⟨x, rfl, hx⟩

/-- The model's write of a register that may hold no value, by the register's name. -/
def State.setReg (s : State) (r : Reg) (v : Word) : State :=
  match r with
  | .a0 => s.setA0 v
  | .a1 => s.setA1 v
  | .a2 => s.setA2 v
  | .a3 => s.setA3 v
  | .a4 => s.setA4 v
  | .res0 => s.setRes0 v
  | .res1 => s.setRes1 v
  | .cmd | .status | .seqInLen | .pbufLen | .seqOutLen | .capN | .capPbuf => s

theorem readRegister_setReg_same {r : Reg} (hr : r ∈ unspecifiedAtReset) (s : State) (v : Word) :
    readRegister (s.setReg r v) r = v := by
  cases r with
  | a0 | a1 | a2 | a3 | a4 | res0 | res1 => rfl
  | cmd | status | seqInLen | pbufLen | seqOutLen | capN | capPbuf =>
    exact absurd hr (by decide)

theorem readRegister_setReg_ne {q r : Reg} (h : q ≠ r) (s : State) (v : Word) :
    readRegister (s.setReg r v) q = readRegister s q := by
  cases r <;> cases q <;> first | rfl | exact absurd rfl h

theorem noValue_setReg {r : Reg} (hr : r ∈ unspecifiedAtReset) (s : State) (v : Word) :
    (s.setReg r v).noValue = s.noValue.filter (· ≠ r) := by
  cases r with
  | a0 | a1 | a2 | a3 | a4 | res0 | res1 => rfl
  | cmd | status | seqInLen | pbufLen | seqOutLen | capN | capPbuf =>
    exact absurd hr (by decide)

theorem refill_setReg (s x : State) (r : Reg) (v : Word) :
    (s.refill x).setReg r v = (s.setReg r v).refill (x.setReg r v) := by
  cases r <;> rfl

/-- A register written alike in two states that were the same leaves them the same. -/
theorem SameButNoValue.setReg {s s' : State} (h : SameButNoValue s s') {r : Reg}
    (hr : r ∈ unspecifiedAtReset) (v : Word) : SameButNoValue (s.setReg r v) (s'.setReg r v) := by
  obtain ⟨x, rfl, hx⟩ := sameButNoValue_iff.mp h
  refine sameButNoValue_iff.mpr ⟨_, refill_setReg s x r v, fun q hq hno => ?_⟩
  by_cases hqr : q = r
  · subst hqr
    rw [readRegister_setReg_same hr, readRegister_setReg_same hr]
  · rw [readRegister_setReg_ne hqr, readRegister_setReg_ne hqr]
    refine hx q hq fun hmem => hno ?_
    rw [noValue_setReg hr]
    exact List.mem_filter.mpr ⟨hmem, by simpa using hqr⟩

/-- One effect on two states that are the same leaves them the same. -/
theorem HeldAlike.effect {s x : State} (hx : HeldAlike s x) (e : Effect) :
    SameButNoValue (e.apply s).succeed (e.apply (s.refill x)).succeed := by
  have hbase : ∀ (buf scr out : Memory) (n l : Word),
      SameButNoValue
        { s with
          code := codeOk, pbuf := buf, scratch := scr, seqOut := out, pbufLen := n, seqOutLen := l }
        { s.refill x with
          code := codeOk, pbuf := buf, scratch := scr, seqOut := out, pbufLen := n,
          seqOutLen := l } :=
    fun _ _ _ _ _ => (hx.of_same rfl).same
  have hres0 : Reg.res0 ∈ unspecifiedAtReset := by decide
  have hres1 : Reg.res1 ∈ unspecifiedAtReset := by decide
  cases e with
  | result v => exact (hbase _ _ _ _ _).setReg hres0 v
  | results v w => exact ((hbase _ _ _ _ _).setReg hres0 v).setReg hres1 w
  | field m => exact hbase m _ _ _ _
  | code m v w => exact ((hbase m _ _ _ _).setReg hres0 v).setReg hres1 w
  | buffer m words w => exact ((hbase m _ _ _ _).setReg hres0 _).setReg hres1 _
  | bufferAndScratch m words w vs => exact ((hbase m _ _ _ _).setReg hres0 _).setReg hres1 _
  | sequence vs => exact (hbase _ _ _ _ _).setReg hres0 _

theorem operandRegs_unspecified {i : Instr} {r : Reg} (h : r ∈ operandRegs i) :
    r ∈ unspecifiedAtReset := by
  revert r
  cases i <;> decide

/-- A command whose operands hold values ends the same from two states that are the same. -/
theorem exec_same {i : Instr} {s x t : State} (hx : HeldAlike s x)
    (hop : ∀ r ∈ operandRegs i, r ∉ s.noValue) (ht : exec i s = .next t) :
    ∃ t', exec i (s.refill x) = .next t' ∧ SameButNoValue t t' := by
  have hread : ∀ r ∈ operandRegs i, readRegister x r = readRegister s r := fun r hr =>
    hx r (operandRegs_unspecified hr) (hop r hr)
  obtain ⟨c, c', hc, hc', halike⟩ := exec_endsAlike i s x hread
  rw [hc] at ht
  rw [hc']
  cases halike with
  | done e _ =>
    cases ht
    exact ⟨_, rfl, hx.effect e⟩
  | stop e =>
    obtain ⟨u, hu, -⟩ | ⟨e, he, rfl⟩ := settle_next_iff.mp ht
    · cases hu
    · cases he
      exact ⟨_, rfl, (hx.of_same rfl).same⟩

/-- A write of CMD in a run that stays unmarked: the operands of its command hold values. -/
theorem issue_same {s x t : State} {c : Word} (hx : HeldAlike s x) (ht : issue s c = .next t)
    (hmark : t.noValueRead = false) :
    ∃ t', issue (s.refill x) c = .next t' ∧ SameButNoValue t t' := by
  cases hf : s.faulted with
  | true =>
    rw [issue_faulted hf] at ht
    cases ht
    exact ⟨_, issue_faulted (s := s.refill x) hf c, (hx.of_same rfl).same⟩
  | false =>
    cases hd : decode c with
    | error e =>
      rw [issue_illegal hf hd] at ht
      cases ht
      exact ⟨_, issue_illegal (s := s.refill x) hf hd, (hx.of_same rfl).same⟩
    | ok i =>
      rw [issue_legal hf hd] at ht
      rw [issue_legal (s := s.refill x) hf hd]
      have hkeep : t.noValueRead = (s.noteOperands i).noValueRead := by rw [exec_frame ht]
      have hop : ∀ r ∈ operandRegs i, r ∉ s.noValue := by
        rw [hkeep] at hmark
        simpa using (Bool.or_eq_false_iff.mp hmark).2
      exact exec_same (hx.of_same rfl : HeldAlike (s.noteOperands i) x) hop ht

/-- A host write of a register in a run that stays unmarked. -/
theorem hostWriteReg_same {s x t : State} {r : Reg} {v : Word} (hx : HeldAlike s x)
    (ht : hostWriteReg s r v = .next t) (hmark : t.noValueRead = false) :
    ∃ t', hostWriteReg (s.refill x) r v = .next t' ∧ SameButNoValue t t' := by
  cases r with
  | cmd => exact issue_same hx ht hmark
  | a0 => cases ht; exact ⟨_, rfl, hx.same.setReg (r := .a0) (by decide) v⟩
  | a1 => cases ht; exact ⟨_, rfl, hx.same.setReg (r := .a1) (by decide) v⟩
  | a2 => cases ht; exact ⟨_, rfl, hx.same.setReg (r := .a2) (by decide) v⟩
  | a3 => cases ht; exact ⟨_, rfl, hx.same.setReg (r := .a3) (by decide) v⟩
  | a4 => cases ht; exact ⟨_, rfl, hx.same.setReg (r := .a4) (by decide) v⟩
  | seqInLen | pbufLen => cases ht; exact ⟨_, rfl, (hx.of_same rfl).same⟩
  | status | res0 | res1 | seqOutLen | capN | capPbuf => cases ht

theorem memoryOf_refill (s x : State) (sp : Space) : memoryOf (s.refill x) sp = memoryOf s sp := by
  cases sp <;> rfl

/-- A host read that leaves the run unmarked returns the same value. -/
theorem hostReadReg_same {s x t : State} {r : Reg} (hx : HeldAlike s x)
    (ht : hostReadReg s r = .next t) (hmark : t.noValueRead = false) :
    ∃ t', hostReadReg (s.refill x) r = .next t' ∧ SameButNoValue t t' := by
  cases ht
  have hheld : r ∉ s.noValue := by simpa using (Bool.or_eq_false_iff.mp hmark).2
  have hread : readRegister (s.refill x) r = readRegister s r := hx.same.2 r hheld
  refine ⟨_, rfl, ?_⟩
  rw [hread]
  exact (hx.of_same rfl).same

/-- An event in a run that stays unmarked. -/
theorem perform_same {s x t : State} {e : Event} (hx : HeldAlike s x)
    (ht : perform s e = .next t) (hmark : t.noValueRead = false) :
    ∃ t', perform (s.refill x) e = .next t' ∧ SameButNoValue t t' := by
  cases e with
  | readReg i =>
    cases hr : regOfIndex i with
    | some r =>
      simp only [perform, hr] at ht ⊢
      exact hostReadReg_same hx ht hmark
    | none =>
      simp only [perform, hr] at ht
      cases ht
  | writeReg i v =>
    cases hr : regOfIndex i with
    | some r =>
      simp only [perform, hr] at ht ⊢
      exact hostWriteReg_same hx ht hmark
    | none =>
      simp only [perform, hr] at ht
      cases ht
  | readMem sp i =>
    obtain ⟨hsp, hi, v, hv, rfl⟩ := hostReadMem_next_iff.mp ht
    have hv' : (memoryOf (s.refill x) sp).read i = some v := by rw [memoryOf_refill, hv]
    exact ⟨_, hostReadMem_next_iff.mpr ⟨hsp, hi, v, hv', rfl⟩, (hx.of_same rfl).same⟩
  | writeMem sp i v =>
    cases sp with
    | seqIn | pbuf =>
      simp only [perform, hostWriteMem] at ht ⊢
      split at ht
      · rename_i hi
        cases ht
        exact ⟨_, if_pos hi, (hx.of_same rfl).same⟩
      · cases ht
    | seqOut | scratch => cases ht
  | reset =>
    cases ht
    exact ⟨_, rfl, sameButNoValue_iff.mpr ⟨s.hardReset, rfl, fun _ _ _ => rfl⟩⟩

/-! ## The obligations -/

/-- Settles O15: a step performs one event, and none writes a capacity register. -/
theorem capacityRegistersAreConstant : Obligations.CapacityRegistersAreConstant := by
  intro s t h
  cases hp : s.pending with
  | nil =>
    simp only [step, advance, hp] at h
    cases h
    exact ⟨rfl, rfl⟩
  | cons e rest =>
    rw [step_cons hp] at h
    exact (perform_keeps_capacities h :)

/-- Settles O26: the frame of every command. -/
theorem commandsKeepOperandsAndInput : Obligations.CommandsKeepOperandsAndInput := by
  intro i s t h
  rw [exec_frame h]
  exact ⟨rfl, rfl, rfl, rfl, rfl, rfl, rfl, rfl, rfl, rfl, rfl, rfl⟩

/-- Settles O27: what each effect writes, by the commands that have it. -/
theorem onlyNamedCommandsWrite : Obligations.OnlyNamedCommandsWrite := by
  intro i s t h
  rcases exec_next_effect h with ⟨e, hi, rfl⟩ | ⟨e, rfl⟩
  · cases e with
    | result v =>
      have hw : i ≠ .fieldWrite := by rintro rfl; simp [Effect.writers] at hi
      exact ⟨fun _ => rfl, fun _ => rfl, fun _ => ⟨rfl, rfl⟩, fun _ => rfl, fun h => absurd h hw,
        fun _ => rfl⟩
    | results v w =>
      simp only [Effect.writers, List.mem_cons, List.not_mem_nil, or_false] at hi
      rcases hi with rfl | rfl | rfl <;> simp [Effect.apply]
    | buffer m words w =>
      simp only [Effect.writers, List.mem_cons, List.not_mem_nil, or_false] at hi
      rcases hi with rfl | rfl | rfl <;> simp [Effect.apply]
    | sequence vs =>
      simp only [Effect.writers, List.mem_cons, List.not_mem_nil, or_false] at hi
      rcases hi with rfl | rfl | rfl <;> simp [Effect.apply]
    | field m | code m v w | bufferAndScratch m words w vs =>
      obtain rfl := List.mem_singleton.mp hi
      simp [Effect.apply]
  · simp

/-- Settles O60: in an unmarked run every register that is looked at holds a value, and those hold
the same one in both states. -/
theorem unwrittenRegistersDoNotMatter : Obligations.UnwrittenRegistersDoNotMatter := by
  intro s s' t h ht hmark
  obtain ⟨x, rfl, hx⟩ := sameButNoValue_iff.mp h
  cases hp : s.pending with
  | nil =>
    simp only [step, advance, hp] at ht
    cases ht
    exact ⟨_, by simp only [step, advance, State.refill, hp], h⟩
  | cons e rest =>
    rw [step_cons hp] at ht
    rw [step_cons (s := s.refill x) hp]
    exact perform_same (hx.of_same rfl : HeldAlike { s with pending := rest } x) ht hmark

/-- Settles O4: `noteOperands` sets the mark that the statement writes out. -/
theorem stepRunsTheDecodedCommand : Obligations.StepRunsTheDecodedCommand := by
  intro s c rest i h hf hd
  rw [step_writeReg (r := .cmd) h]
  exact issue_legal hf hd

/-- Settles O10: every value is the one `resetWith` writes, and no memory lists a word. -/
theorem resetStateValues : Obligations.ResetStateValues := by
  rintro nMax pbufMax s rfl
  refine ⟨rfl, rfl, rfl, rfl, rfl, rfl, rfl, rfl, rfl, fun _ => Iff.rfl, fun _ => ?_⟩
  simp [Memory.has]

/-- Settles O16: a row of the register table is its register's index and value. -/
theorem hostReadsEveryRegister : Obligations.HostReadsEveryRegister := by
  intro s rest x hx h
  have hrow : x.1 = regIndex x.2.1 ∧ x.2.2 = readRegister s x.2.1 := by
    simp only [List.mem_cons, List.not_mem_nil, or_false] at hx
    rcases hx with rfl | rfl | rfl | rfl | rfl | rfl | rfl | rfl | rfl | rfl | rfl | rfl | rfl | rfl
    all_goals exact ⟨rfl, rfl⟩
  obtain ⟨hindex, hvalue⟩ := hrow
  rw [hindex] at h
  rw [hvalue]
  exact step_readReg h

/-- Settles O17: the three ranges of the STATUS word's bits. -/
theorem statusWordLayout : Obligations.StatusWordLayout := by
  refine fun s => ⟨fun j hj => ?_, ?_, fun j hj => ?_⟩
  · rw [statusWord_getLsbD, if_pos hj]
  · rw [statusWord_getLsbD]; rfl
  · rw [statusWord_getLsbD, if_neg (by omega), decide_eq_false (by omega), Bool.false_and]

/-- Settles O18: the model's write of each register is the state the statement writes out. -/
theorem hostWritesRegisters : Obligations.HostWritesRegisters := by
  intro s v rest
  exact ⟨step_writeReg (r := .a0), step_writeReg (r := .a1), step_writeReg (r := .a2),
    step_writeReg (r := .a3), step_writeReg (r := .a4), step_writeReg (r := .seqInLen),
    step_writeReg (r := .pbufLen)⟩

/-- Settles O19: no register above the table, and a refusal for each register marked R only. -/
theorem outsideRegisterAccessesAreRefused : Obligations.OutsideRegisterAccessesAreRefused := by
  intro s v rest
  refine ⟨fun i hi h => step_noSuchRegister hi h, fun i hi h => ?_, fun h => ?_⟩
  · simp only [List.mem_cons, List.not_mem_nil, or_false] at hi
    rcases hi with rfl | rfl | rfl | rfl | rfl | rfl
    · exact ⟨.status, rfl, step_writeReg (r := .status) h⟩
    · exact ⟨.res0, rfl, step_writeReg (r := .res0) h⟩
    · exact ⟨.res1, rfl, step_writeReg (r := .res1) h⟩
    · exact ⟨.seqOutLen, rfl, step_writeReg (r := .seqOutLen) h⟩
    · exact ⟨.capN, rfl, step_writeReg (r := .capN) h⟩
    · exact ⟨.capPbuf, rfl, step_writeReg (r := .capPbuf) h⟩
  · exact ⟨_, step_readReg (r := .cmd) h, rfl⟩

/-- Settles O20: each of the three memories is one the host reads. -/
theorem hostReadsMemory : Obligations.HostReadsMemory := by
  intro s i rest x hx h hi
  have hrow : x.1.hostReadable = true ∧ x.2.1 = memoryOf s x.1 ∧
      x.2.2.toNat = capacityOf s x.1 := by
    simp only [List.mem_cons, List.not_mem_nil, or_false] at hx
    rcases hx with rfl | rfl | rfl
    all_goals exact ⟨rfl, rfl, rfl⟩
  obtain ⟨hsp, hmem, hcap⟩ := hrow
  rw [hcap] at hi
  rw [hmem, step_cons h]
  exact ⟨fun v hv => hostReadMem_next_iff.mpr ⟨hsp, hi, v, hv, rfl⟩,
    fun hno => hostReadMem_noValue (s := { s with pending := rest }) hsp hi hno⟩

/-- Settles O21: the new memory is the old one with the word written. -/
theorem hostWritesMemory : Obligations.HostWritesMemory := by
  intro s i v rest
  refine ⟨fun h hi => ⟨s.seqIn.write i v, ?_, Memory.read_write_same _ i v,
      fun j hj => Memory.read_write_ne _ v hj⟩,
    fun h hi => ⟨s.pbuf.write i v, ?_, Memory.read_write_same _ i v,
      fun j hj => Memory.read_write_ne _ v hj⟩⟩
  · rw [step_cons h]
    exact if_pos hi
  · rw [step_cons h]
    exact if_pos hi

/-- Settles O22: the space is judged before the index, and the index against the capacity. -/
theorem outsideMemoryAccessesAreRefused : Obligations.OutsideMemoryAccessesAreRefused := by
  intro s i v rest
  refine ⟨fun h => ?_, fun h => step_cons h, fun hi sp hsp h => ?_, fun hi h => ?_, fun hi h => ?_,
    fun hi h => ?_⟩
  · rcases h with h | h <;> exact step_cons h
  · rw [step_cons h]
    simp only [List.mem_cons, List.not_mem_nil, or_false] at hsp
    rcases hsp with rfl | rfl
    · exact hostReadMem_outside rfl hi
    · exact hostReadMem_outside rfl hi
  · rw [step_cons h]
    exact hostReadMem_outside rfl hi
  · rw [step_cons h]
    exact if_neg (Nat.not_lt.mpr hi)
  · rw [step_cons h]
    exact if_neg (Nat.not_lt.mpr hi)

end Sys2Proof.Machine
end

section
/-! PROOFS. The statements of 30_encoding.md: which words are commands and what an illegal one does,
and the transactions of LOADSEQ. -/

namespace Sys2Proof.Machine

open Sys2Proof

/-! ## Command words -/

@[simp] theorem toNat_encode (i : Instr) : (encode i).toNat = opc i := by
  cases i <;> rfl

/-- Each command has one word (R75, R76). -/
theorem decode_ok_iff_eq_encode {c : Word} {i : Instr} : decode c = .ok i ↔ c = encode i := by
  rw [decode_ok_iff, ← toNat_encode, BitVec.toNat_inj]

@[simp] theorem decode_encode (i : Instr) : decode (encode i) = .ok i :=
  decode_ok_iff_eq_encode.mpr rfl

/-- The opcode map has no gap (R72). -/
theorem exists_opc_eq_iff {n : Nat} : (∃ i, n = opc i) ↔ 1 ≤ n ∧ n ≤ 0x11 := by
  constructor
  · rintro ⟨i, rfl⟩
    cases i <;> decide
  · rintro ⟨hpos, hle⟩
    have hmap : ∀ m ≤ 0x11, 1 ≤ m → (instrOfOpc m).isSome = true := by decide
    obtain ⟨i, hi⟩ := Option.isSome_iff_exists.mp (hmap n hle hpos)
    exact ⟨i, instrOfOpc_eq_some_iff.mp hi⟩

theorem exists_decode_ok_iff {c : Word} :
    (∃ i, decode c = .ok i) ↔ 1 ≤ c.toNat ∧ c.toNat ≤ 0x11 := by
  simp only [decode_ok_iff, exists_opc_eq_iff]

/-- RSV = 0, bit by bit, says that OPC is the whole word (R70). -/
theorem reservedBits_clear_iff {c : Word} :
    (∀ j, 8 ≤ j → c.getLsbD j = false) ↔ c.toNat < 2 ^ 8 :=
  ⟨lt_two_pow_of_bits, fun h _ hj => testBit_false_of_lt h hj⟩

/-- R70 in the fields of the word. -/
theorem exists_decode_ok_iff_fields {c : Word} :
    (∃ i, decode c = .ok i) ↔
      (∀ j, 8 ≤ j → c.getLsbD j = false) ∧ 1 ≤ c.toNat % 256 ∧ c.toNat % 256 ≤ 0x11 := by
  rw [exists_decode_ok_iff, reservedBits_clear_iff]
  omega

/-- Decoding is total (R76): a word that is no command is judged illegal. -/
theorem decode_error_of_not_ok {c : Word} (h : ¬ ∃ i, decode c = .ok i) :
    ∃ e, decode c = .error e := by
  cases hd : decode c with
  | error e => exact ⟨e, rfl⟩
  | ok i => exact absurd ⟨i, hd⟩ h

/-- R73: the error of an illegal word is recoverable, so the latch stays and CODE alone changes. -/
theorem step_illegalCommand {s : State} {c : Word} {rest : List Event}
    (h : s.pending = .writeReg 0x00 c :: rest) (hf : s.faulted = false)
    (hc : ¬ ∃ i, decode c = .ok i) : step s = .next { s with pending := rest, code := 7 } := by
  obtain ⟨e, he⟩ := decode_error_of_not_ok hc
  calc step s = issue { s with pending := rest } c := step_writeReg (r := .cmd) h
    _ = .next (State.raise { s with pending := rest } .illegalCommand) := issue_illegal hf he
    _ = .next { s with pending := rest, code := 7 } := by rw [raise_of_not_fatal _ rfl]; rfl

/-! ## The transactions of LOADSEQ -/

theorem run_succ_of_step {s t : State} (h : step s = .next t) (k : Nat) :
    Host.Core.run core (k + 1) s = Host.Core.run core k t := by
  have hcore : core.step s = .next t := h
  simp only [Host.Core.run, hcore]

/-- A host write of a word of SEQ_IN (R32, R39). -/
theorem step_writeSeqIn {s : State} {i : Nat} {v : Word} {rest : List Event}
    (h : s.pending = .writeMem .seqIn i v :: rest) (hi : i < s.capN.toNat) :
    step s = .next { s with pending := rest, seqIn := s.seqIn.write i v } := by
  rw [step_cons h]
  exact if_pos hi

/-- A run of `MW SEQ_IN` below the capacity stores its words, one a step (R78, R79). -/
theorem run_writeRun_seqIn {s : State} {i : Nat} {vs : List Int} {rest : List Event}
    (h : s.pending = writeRun .seqIn i vs ++ rest) (hcap : i + vs.length ≤ s.capN.toNat) (k : Nat) :
    Host.Core.run core (vs.length + k) s =
      Host.Core.run core k
        { s with pending := rest, seqIn := s.seqIn.store i (vs.map (BitVec.ofInt 32)) } := by
  induction vs generalizing s i with
  | nil =>
    obtain rfl : s.pending = rest := h
    rw [List.length_nil, Nat.zero_add]
    rfl
  | cons v vs ih =>
    rw [List.length_cons] at hcap ⊢
    have hi : i < s.capN.toNat := by omega
    rw [writeRun, List.cons_append, writeWord_of_lt _ _ (hi.trans s.capN.isLt)] at h
    rw [Nat.add_right_comm, run_succ_of_step (step_writeSeqIn h hi)]
    exact ih rfl (by simp only; omega)

theorem assemble_loadSeq (vs : List Int) :
    assemble [⟨none, some (.pseudo (.loadSeq vs))⟩] =
      writeRun .seqIn 0 vs ++ [.writeReg (regIndex .seqInLen) (BitVec.ofNat 32 vs.length)] := by
  simp only [assemble, assembleLine, assembleStmt, expand, writeTo, immediate,
    BitVec.ofInt_natCast, List.flatMap_cons, List.flatMap_nil, List.append_nil]

/-- A Sequence stored from index 0 with its length in SEQ_IN_LEN is the one SEQ_IN holds (R27). -/
theorem holdsSequence_store {s : State} {m : Memory} {A : List Word} (hmem : s.seqIn = m.store 0 A)
    (hlen : s.seqInLen.toNat = A.length) : HoldsSequence s A := by
  refine ⟨hlen.symm, fun i hi => ?_⟩
  rw [hmem, Memory.read_store, if_pos ⟨Nat.zero_le i, by omega⟩, Nat.sub_zero]

/-! ## The obligations -/

/-- Settles O1: a word is its value, and the value of a command's word is its opcode. -/
theorem decodeEncodeRoundTrip : Obligations.DecodeEncodeRoundTrip :=
  fun _ _ => decode_ok_iff_eq_encode

/-- Settles O2: the opcodes are 1 to 0x11 with no gap. -/
theorem legalWordsAreTheSeventeenOpcodes : Obligations.LegalWordsAreTheSeventeenOpcodes :=
  fun _ => exists_decode_ok_iff_fields

/-- Settles O23: the run of writes stores the values, and the write of SEQ_IN_LEN their number. -/
theorem loadSeqPlacesTheSequence : Obligations.LoadSeqPlacesTheSequence := by
  intro s vs hcap h
  rw [assemble_loadSeq] at h
  have hlen : (BitVec.ofNat 32 vs.length).toNat = (vs.map (BitVec.ofInt 32)).length := by
    rw [List.length_map, BitVec.toNat_ofNat, Nat.mod_eq_of_lt (hcap.trans_lt s.capN.isLt)]
  refine ⟨{ s with
    pending := []
    seqIn := s.seqIn.store 0 (vs.map (BitVec.ofInt 32))
    seqInLen := BitVec.ofNat 32 vs.length }, ?_, rfl, holdsSequence_store rfl hlen,
    rfl, rfl, rfl, rfl, rfl⟩
  rw [run_writeRun_seqIn h (by omega), run_succ_of_step (step_writeReg (r := .seqInLen) rfl)]
  rfl

/-- Settles O3: each word of the map is its command's encoding. -/
theorem opcodeMapWordsDecode : Obligations.OpcodeMapWordsDecode :=
  ⟨decode_encode .bfExtract, decode_encode .bfInsert, decode_encode .fieldRead,
    decode_encode .fieldWrite, decode_encode .gammaEnc, decode_encode .gammaDec,
    decode_encode .wselUniform, decode_encode .wselOverflow, decode_encode .nsCompress,
    decode_encode .nsDecompress, decode_encode .nsGet, decode_encode .spCompress,
    decode_encode .spDecompress, decode_encode .spGet, decode_encode .ovCompress,
    decode_encode .ovDecompress, decode_encode .ovGet⟩

/-- Settles O5: each of the three kinds of word fails R70. -/
theorem illegalCommandSetsOnlyTheCode : Obligations.IllegalCommandSetsOnlyTheCode := by
  intro s c rest h hf hc
  refine step_illegalCommand h hf fun hlegal => ?_
  obtain ⟨hrsv, hpos, hle⟩ := exists_decode_ok_iff_fields.mp hlegal
  rcases hc with ⟨j, hj, hbit⟩ | hzero | habove
  · rw [hrsv j hj] at hbit
    cases hbit
  · omega
  · omega

end Sys2Proof.Machine
end

section
/-! PROOFS. The statements of 40_bitfield.md: the bit-range primitives, the cross-word field, and
the laws of R108 on the commands. -/

namespace Sys2Proof.Machine

open Sys2Proof

/-! ## The bit-range primitives -/

/-- R100, malformed range. -/
theorem extractBits_malformed (x : Word) {lo hi : Int} (h : lo < 0 ∨ 31 < hi ∨ hi < lo) :
    extractBits x lo hi = none :=
  if_pos (by omega)

/-- R100, legal range, bit by bit. -/
theorem extractBits_legal (x : Word) {lo hi : Int} (h0 : 0 ≤ lo) (hle : lo ≤ hi) (h31 : hi ≤ 31) :
    ∃ v, extractBits x lo hi = some v ∧ ∀ j : Nat, j < 32 →
      v.getLsbD j = (decide (lo + j ≤ hi) && x.getLsbD (lo.toNat + j)) := by
  refine ⟨_, if_neg (by omega), fun j hj => ?_⟩
  have hrange : j < (hi - lo + 1).toNat ↔ lo + j ≤ hi := by omega
  simp only [ofNat_getLsbD _ _ hj, bitsOf_testBit, hrange]

/-- R101, malformed source or destination range. -/
theorem insertBits_malformed (dest source : Word) {dl sl sh : Int}
    (h : sl < 0 ∨ 31 < sh ∨ sh < sl ∨ dl < 0 ∨ 31 < dl + (sh - sl)) :
    insertBits dest dl source sl sh = none := by
  unfold insertBits
  split
  · rfl
  · exact if_pos (by omega)

/-- R101, legal ranges, bit by bit. -/
theorem insertBits_legal (dest source : Word) {dl sl sh : Int} (hs0 : 0 ≤ sl) (hle : sl ≤ sh)
    (hs31 : sh ≤ 31) (hd0 : 0 ≤ dl) (hd31 : dl + (sh - sl) ≤ 31) :
    ∃ v, insertBits dest dl source sl sh = some v ∧ ∀ j : Nat, j < 32 →
      v.getLsbD j = if dl ≤ j ∧ j ≤ dl + (sh - sl) then source.getLsbD (sl.toNat + (j - dl.toNat))
        else dest.getLsbD j := by
  refine ⟨_, (if_neg (by omega)).trans (if_neg (by omega)), fun j hj => ?_⟩
  have hrange : (dl.toNat ≤ j ∧ j < dl.toNat + (sh - sl + 1).toNat) ↔
      (dl ≤ j ∧ j ≤ dl + (sh - sl)) := by omega
  simp only [putBits_getLsbD _ _ _ _ _ hj, hrange, bitsOf_testBit]
  split
  · have hbit : j - dl.toNat < (sh - sl + 1).toNat := by omega
    simp only [hbit, decide_true, Bool.true_and]
  · rfl

/-- A fatal error sets the code and the latch alone (R213, R214, R216). -/
theorem raise_of_fatal (s : State) {e : ErrorCode} (h : isFatal e = true) :
    s.raise e = { s with code := codeOf e, faulted := true } := by
  simp only [State.raise, h, Bool.or_true]

/-- A command that leaves a primitive's answer in RES0 completes with it (R104, R105). -/
theorem settle_orInvalidRange_some {s : State} {r : Option Word} {v : Word} (h : r = some v) :
    settle s (orInvalidRange r >>= fun v => pure (s.setRes0 v)) =
      .next { s with res0 := v, noValue := s.noValue.filter (· ≠ .res0), code := 0 } := by
  rw [h]
  rfl

/-- Where the primitive fails, so does the command (R104, R105). -/
theorem settle_orInvalidRange_none {s : State} {r : Option Word} (h : r = none) :
    settle s (orInvalidRange r >>= fun v => pure (s.setRes0 v)) =
      .next { s with code := 1, faulted := true } := by
  rw [h]
  exact congrArg _ (raise_of_fatal s rfl)

/-- BF_EXTRACT ends as its primitive answers (R104). -/
theorem exec_bfExtract (s : State) : exec .bfExtract s =
    settle s (orInvalidRange (extractBits s.a0 s.a1.toInt s.a2.toInt) >>=
      fun v => pure (s.setRes0 v)) := rfl

/-- BF_INSERT ends as its primitive answers (R105). -/
theorem exec_bfInsert (s : State) : exec .bfInsert s =
    settle s (orInvalidRange (insertBits s.a0 s.a1.toInt s.a2 s.a3.toInt s.a4.toInt) >>=
      fun v => pure (s.setRes0 v)) := rfl

/-- The signed reading of the last bit of a range of `y` to `z` moved to `x`, where it is in the
word. -/
theorem toInt_add_sub {x y z : Word} (h0 : 0 ≤ x.toInt + (z.toInt - y.toInt))
    (h31 : x.toInt + (z.toInt - y.toInt) ≤ 31) :
    (x + (z - y)).toInt = x.toInt + (z.toInt - y.toInt) := by
  rw [BitVec.toInt_add, BitVec.toInt_sub, Int.add_bmod_bmod]
  exact Int.bmod_eq_of_le (by omega) (by omega)

/-! ## The checks of the field commands -/

/-- The commands that work on a field of the buffer (R106, R107). -/
def IsFieldCommand (i : Instr) : Prop := i = .fieldRead ∨ i = .fieldWrite

theorem exec_of_fieldOperands_error {i : Instr} (hi : IsFieldCommand i) {s : State} {e : Stop}
    (h : fieldOperands s = .error e) : exec i s = settle s (.error e) := by
  rcases hi with rfl | rfl
  · simp only [exec, execFieldRead, h, error_bind]
  · simp only [exec, execFieldWrite, h, error_bind]

/-- The first check: the buffer within its capacity (R68). -/
theorem exec_field_capacityExceeded {i : Instr} (hi : IsFieldCommand i) {s : State}
    (h : s.capPbuf.toNat < s.pbufLen.toNat) : exec i s = .next { s with code := 6 } := by
  have hcheck : fieldOperands s = .error (.raise .capacityExceeded) := by
    simp only [fieldOperands, checkPbuf, gt_iff_lt, check_pos h, error_bind]
  rw [exec_of_fieldOperands_error hi hcheck, settle_raise, raise_of_not_fatal s rfl]
  rfl

/-- A buffer within its capacity passes the first check. -/
theorem checkPbuf_ok {s : State} (h : s.pbufLen.toNat ≤ s.capPbuf.toNat) : checkPbuf s = .ok () :=
  check_neg (Nat.not_lt.mpr h) _

/-- The second check: the position and the width. -/
theorem exec_field_invalidRange {i : Instr} (hi : IsFieldCommand i) {s : State}
    (hcap : s.pbufLen.toNat ≤ s.capPbuf.toNat)
    (h : s.a0.toInt < 0 ∨ s.a1.toInt < 1 ∨ 32 < s.a1.toInt) :
    exec i s = .next { s with code := 1, faulted := true } := by
  have hcheck : fieldOperands s = .error (.raise .invalidRange) := by
    simp only [fieldOperands, checkPbuf_ok hcap, ok_bind, gt_iff_lt, check_pos h, error_bind]
  rw [exec_of_fieldOperands_error hi hcheck, settle_raise, raise_of_fatal s rfl]
  rfl

/-- The third check: the end of the field. -/
theorem exec_field_invalidArgument {i : Instr} (hi : IsFieldCommand i) {s : State}
    (hcap : s.pbufLen.toNat ≤ s.capPbuf.toNat) (h0 : 0 ≤ s.a0.toInt) (h1 : 1 ≤ s.a1.toInt)
    (h32 : s.a1.toInt ≤ 32) (h : 32 * s.pbufLen.toNat < s.a0.toInt + s.a1.toInt) :
    exec i s = .next { s with code := 4, faulted := true } := by
  have hrange : ¬ (s.a0.toInt < 0 ∨ s.a1.toInt < 1 ∨ 32 < s.a1.toInt) := by omega
  have hcheck : fieldOperands s = .error (.raise .invalidArgument) := by
    simp only [fieldOperands, checkPbuf_ok hcap, ok_bind, gt_iff_lt, check_neg hrange, check_pos h,
      error_bind]
  rw [exec_of_fieldOperands_error hi hcheck, settle_raise, raise_of_fatal s rfl]
  rfl

/-- The operands of a field command pass its checks, and name the field of `n` bits at stream
position `p` (R106, R107). -/
structure NamesField (s : State) (p n : Nat) : Prop where
  capacity : s.pbufLen.toNat ≤ s.capPbuf.toNat
  position : s.a0.toInt = p
  width : s.a1.toInt = n
  one_le : 1 ≤ n
  le_32 : n ≤ 32
  fits : p + n ≤ 32 * s.pbufLen.toNat

/-- The operands as the statements write them, in their signed readings. -/
theorem namesField_of_toInt {s : State} (hcap : s.pbufLen.toNat ≤ s.capPbuf.toNat)
    (h0 : 0 ≤ s.a0.toInt) (h1 : 1 ≤ s.a1.toInt) (h32 : s.a1.toInt ≤ 32)
    (hfits : s.a0.toInt + s.a1.toInt ≤ 32 * s.pbufLen.toNat) :
    NamesField s s.a0.toInt.toNat s.a1.toInt.toNat where
  capacity := hcap
  position := by omega
  width := by omega
  one_le := by omega
  le_32 := by omega
  fits := by omega

section NamesField

variable {s : State} {p n : Nat}

theorem NamesField.fieldOperands_eq (h : NamesField s p n) : fieldOperands s = .ok (p, n) := by
  obtain ⟨hcap, hp, hn, h1, h32, hfits⟩ := h
  have hrange : ¬ ((p : Int) < 0 ∨ (n : Int) < 1 ∨ 32 < (n : Int)) := by omega
  have hend : ¬ (32 * (s.pbufLen.toNat : Int) < p + n) := by omega
  simp only [fieldOperands, checkPbuf_ok hcap, ok_bind, hp, hn, gt_iff_lt, check_neg hrange,
    check_neg hend, pure_ok, Int.toNat_natCast]

/-! ## The field itself -/

theorem NamesField.exec_fieldRead (h : NamesField s p n) : exec .fieldRead s =
    settle s (readField s.pbuf p n >>= fun v => pure (s.setRes0 (BitVec.ofNat 32 v))) := by
  simp only [exec, execFieldRead, h.fieldOperands_eq, ok_bind]

theorem NamesField.exec_fieldWrite (h : NamesField s p n) : exec .fieldWrite s =
    settle s (writeField s.pbuf p n s.a2.toNat >>= fun m => pure { s with pbuf := m }) := by
  simp only [exec, execFieldWrite, h.fieldOperands_eq, ok_bind]

/-- FIELD_READ of words that hold values (R102, R106). -/
theorem NamesField.exec_fieldRead_field (h : NamesField s p n)
    (hh : ∀ q, p ≤ q → q < p + n → s.pbuf.has (q / 32)) :
    exec .fieldRead s = .next { s with
      res0 := BitVec.ofNat 32 (s.pbuf.field p n)
      noValue := s.noValue.filter (· ≠ .res0)
      code := 0 } := by
  rw [h.exec_fieldRead, readField_eq h.one_le h.le_32 hh]
  rfl

/-- FIELD_READ of a word that holds none (R37). -/
theorem NamesField.exec_fieldRead_noValue (h : NamesField s p n) {q : Nat} (hp : p ≤ q)
    (hq : q < p + n) (hno : ¬ s.pbuf.has (q / 32)) :
    ∃ k, exec .fieldRead s = .refused (.noValue .pbuf k) := by
  rw [h.exec_fieldRead]
  cases hr : readField s.pbuf p n with
  | ok v => exact absurd (readField_ok_has hr h.le_32 hp hq) hno
  | error e =>
    obtain ⟨k, rfl, -⟩ := readField_error hr
    exact ⟨k, rfl⟩

/-- FIELD_WRITE into words that hold values: the field takes the value's low bits, and neither
another bit nor which words hold values changes (R103, R107). -/
theorem NamesField.exec_fieldWrite_field (h : NamesField s p n)
    (hh : ∀ q, p ≤ q → q < p + n → s.pbuf.has (q / 32)) :
    ∃ m : Memory, exec .fieldWrite s = .next { s with pbuf := m, code := 0 } ∧
      (∀ q, m.bit q = if p ≤ q ∧ q < p + n then s.a2.getLsbD (q - p) else s.pbuf.bit q) ∧
      ∀ i, m.has i ↔ s.pbuf.has i := by
  have h1 := h.one_le
  obtain ⟨m, hm⟩ := writeField_exists s.a2.toNat h1 h.le_32 (hh p le_rfl (by omega))
    (hh (p + n - 1) (by omega) (by omega))
  obtain ⟨hhas, -, hbits⟩ := writeField_spec hm h.le_32
  refine ⟨m, ?_, hbits, hhas⟩
  rw [h.exec_fieldWrite, hm]
  rfl

/-- FIELD_WRITE into a word that holds none (R37). -/
theorem NamesField.exec_fieldWrite_noValue (h : NamesField s p n) {q : Nat} (hp : p ≤ q)
    (hq : q < p + n) (hno : ¬ s.pbuf.has (q / 32)) :
    ∃ k, exec .fieldWrite s = .refused (.noValue .pbuf k) := by
  rw [h.exec_fieldWrite]
  cases hr : writeField s.pbuf p n s.a2.toNat with
  | ok m => exact absurd (writeField_ok_has hr h.le_32 hp hq) hno
  | error e =>
    obtain ⟨k, rfl, -⟩ := writeField_error hr
    exact ⟨k, rfl⟩

end NamesField

/-- A word that holds no bit of a field of at most 32 bits reads as before where no other bit
changed. -/
theorem Memory.read_eq_of_outside {m m' : Memory} {p n i : Nat} (hn : n ≤ 32)
    (hbit : ∀ q, ¬ (p ≤ q ∧ q < p + n) → m'.bit q = m.bit q) (hhas : ∀ j, m'.has j ↔ m.has j)
    (hfirst : i ≠ p / 32) (hlast : i ≠ (p + n - 1) / 32) : m'.read i = m.read i :=
  Memory.read_congr (hhas i) fun j hj => hbit _ (by omega)

/-! ## The obligations -/

/-- Settles O29: the command ends as the primitive answers. -/
theorem bfExtractReturnsTheRange : Obligations.BfExtractReturnsTheRange := by
  refine ⟨rfl, fun s => ⟨fun h0 hle h31 => ?_, fun hmal => ?_⟩⟩
  · obtain ⟨v, hv, hbits⟩ := extractBits_legal s.a0 h0 hle h31
    exact ⟨v, (exec_bfExtract s).trans (settle_orInvalidRange_some hv), hbits⟩
  · exact (exec_bfExtract s).trans (settle_orInvalidRange_none (extractBits_malformed _ hmal))

/-- Settles O30: the command ends as the primitive answers. -/
theorem bfInsertReplacesTheRange : Obligations.BfInsertReplacesTheRange := by
  refine ⟨rfl, ?_⟩
  rintro s _ _ _ rfl rfl rfl
  refine ⟨fun hs0 hle hs31 hd0 hd31 => ?_, fun hmal => ?_⟩
  · obtain ⟨v, hv, hbits⟩ := insertBits_legal s.a0 s.a2 hs0 hle hs31 hd0 hd31
    exact ⟨v, (exec_bfInsert s).trans (settle_orInvalidRange_some hv), hbits⟩
  · exact (exec_bfInsert s).trans (settle_orInvalidRange_none (insertBits_malformed _ _ hmal))

/-- Settles O31: both results of BF_EXTRACT have the same bits, by what the two commands return. -/
theorem extractAfterInsert : Obligations.ExtractAfterInsert := by
  intro s hs0 hle hs31 hd0 hd31
  have hlast := toInt_add_sub (x := s.a1) (y := s.a3) (z := s.a4) (by omega) hd31
  obtain ⟨r, ht, hr⟩ := (bfInsertReplacesTheRange.2 s _ _ _ rfl rfl rfl).1 hs0 hle hs31 hd0 hd31
  obtain ⟨x, hu, hx⟩ := (bfExtractReturnsTheRange.2 { s with
    res0 := r, noValue := s.noValue.filter (· ≠ .res0), code := 0
    a0 := r, a2 := s.a1 + (s.a4 - s.a3) }).1 hd0 (by simp only; omega) (by simp only; omega)
  obtain ⟨y, hv, hy⟩ := (bfExtractReturnsTheRange.2
    { s with a0 := s.a2, a1 := s.a3, a2 := s.a4 }).1 hs0 hle hs31
  simp only [hlast] at hx
  refine ⟨_, _, _, ht, hu, hv, rfl, rfl, BitVec.eq_of_getLsbD_eq fun j hj => ?_, fun j hj => ?_⟩
  · rw [hx j hj, hy j hj]
    by_cases hin : s.a3.toInt + j ≤ s.a4.toInt
    · have hin' : s.a1.toInt + j ≤ s.a1.toInt + (s.a4.toInt - s.a3.toInt) := by omega
      simp only [hin, hin', decide_true, Bool.true_and]
      rw [hr _ (by omega), if_pos (by omega), Nat.add_sub_cancel_left]
    · have hin' : ¬ s.a1.toInt + j ≤ s.a1.toInt + (s.a4.toInt - s.a3.toInt) := by omega
      simp only [hin, hin', decide_false, Bool.false_and]
  · by_cases h32 : j < 32
    · rw [hr j h32, if_neg (by omega)]
    · rw [BitVec.getLsbD_of_ge _ _ (by omega), BitVec.getLsbD_of_ge _ _ (by omega)]

/-- Settles O32: the checks in order, then the field or the word that stops its read. -/
theorem fieldReadReturnsTheField : Obligations.FieldReadReturnsTheField := by
  refine ⟨rfl, ?_⟩
  rintro s _ _ rfl rfl
  have hi : IsFieldCommand .fieldRead := .inl rfl
  refine ⟨exec_field_capacityExceeded hi, exec_field_invalidRange hi,
    exec_field_invalidArgument hi, fun hcap h0 h1 h32 hfits => ?_⟩
  have hf := namesField_of_toInt hcap h0 h1 h32 hfits
  refine ⟨fun hh => hf.exec_fieldRead_field fun q hp hq => hh q (by omega) (by omega), ?_⟩
  rintro ⟨q, hp, hq, hno⟩
  exact hf.exec_fieldRead_noValue (by omega) (by omega) hno

/-- Settles O33: the checks in order, then the buffer with the field written or the word that stops
the write. -/
theorem fieldWriteChangesOnlyTheField : Obligations.FieldWriteChangesOnlyTheField := by
  refine ⟨rfl, ?_⟩
  rintro s _ _ rfl rfl
  have hi : IsFieldCommand .fieldWrite := .inr rfl
  refine ⟨exec_field_capacityExceeded hi, exec_field_invalidRange hi,
    exec_field_invalidArgument hi, fun hcap h0 h1 h32 hfits => ?_⟩
  have hf := namesField_of_toInt hcap h0 h1 h32 hfits
  refine ⟨fun hh => ?_, ?_⟩
  · obtain ⟨m, hm, hbit, hhas⟩ :=
      hf.exec_fieldWrite_field fun q hp hq => hh q (by omega) (by omega)
    refine ⟨m, hm, fun q => ?_, fun i => ?_, hhas⟩
    · rw [hbit q]
      exact if_congr (by omega) rfl rfl
    · exact Memory.read_eq_of_outside hf.le_32 (fun q hq => (hbit q).trans (if_neg hq)) hhas
  · rintro ⟨q, hp, hq, hno⟩
    exact hf.exec_fieldWrite_noValue (by omega) (by omega) hno

/-- Settles O34: the write leaves the operands and which words hold values, so the read answers the
field, whose bits are the value's low ones. -/
theorem fieldReadAfterFieldWrite : Obligations.FieldReadAfterFieldWrite := by
  rintro s ⟨hcap, hready⟩ h0 h1 h32 hfits
  have hf := namesField_of_toInt hcap h0 h1 h32 hfits
  have hend := hf.fits
  obtain ⟨m, hm, hbit, hhas⟩ := hf.exec_fieldWrite_field fun q _ _ => hready _ (by omega)
  have hf' : NamesField { s with pbuf := m, code := 0 } s.a0.toInt.toNat s.a1.toInt.toNat :=
    namesField_of_toInt hcap h0 h1 h32 hfits
  have hfield : m.field s.a0.toInt.toNat s.a1.toInt.toNat = s.a2.toNat % 2 ^ s.a1.toInt.toNat :=
    Memory.field_of_bits (Nat.mod_lt _ (by positivity)) fun j hj => by
      rw [hbit, if_pos (by omega), Nat.add_sub_cancel_left, Nat.testBit_mod_two_pow]
      simp only [hj, decide_true, Bool.true_and]
      rfl
  refine ⟨_, _, hm, hf'.exec_fieldRead_field fun q _ _ => (hhas _).mpr (hready _ (by omega)),
    rfl, ?_⟩
  calc (BitVec.ofNat 32 (m.field s.a0.toInt.toNat s.a1.toInt.toNat)).toNat
      _ = s.a2.toNat % 2 ^ s.a1.toInt.toNat % 2 ^ 32 := by rw [BitVec.toNat_ofNat, hfield]
      _ = s.a2.toNat % 2 ^ s.a1.toInt.toNat :=
        Nat.mod_eq_of_lt ((Nat.mod_le _ _).trans_lt s.a2.isLt)

end Sys2Proof.Machine
end

section
/-! PROOFS. The statements of 41_gamma.md: GAMMA_ENC writes the code, GAMMA_DEC reads it back, and
the errors of both. -/

namespace Sys2Proof.Machine

open Sys2Proof

/-! ## The errors -/

/-- A fatal error ends a command with the code and the latch alone (R213, R214, R216). -/
theorem settle_fatal (s : State) {e : ErrorCode} (h : isFatal e = true) :
    settle s (.error (.raise e)) = .next { s with code := codeOf e, faulted := true } := by
  rw [settle_raise, raise_of_fatal s h]

/-- The first check of both commands: the buffer within its capacity (R68, R123, R124). -/
theorem exec_gamma_capacityExceeded {i : Instr} (hi : i = .gammaEnc ∨ i = .gammaDec) {s : State}
    (h : s.capPbuf.toNat < s.pbufLen.toNat) : exec i s = .next { s with code := 6 } := by
  have hcheck : checkPbuf s = .error (.raise .capacityExceeded) := check_pos h _
  have hexec : exec i s = settle s (.error (.raise .capacityExceeded)) := by
    rcases hi with rfl | rfl
    · simp only [exec, execGammaEnc, hcheck, error_bind]
    · simp only [exec, execGammaDec, hcheck, error_bind]
  rw [hexec, settle_raise, raise_of_not_fatal s rfl]
  rfl

/-- GAMMA_ENC's second check: the number (R123). -/
theorem exec_gammaEnc_of_nonpos {s : State} (hcap : s.pbufLen.toNat ≤ s.capPbuf.toNat)
    (hn : s.a0.toInt ≤ 0) : exec .gammaEnc s = .next { s with code := 4, faulted := true } := by
  simp only [exec, execGammaEnc, checkPbuf_ok hcap, ok_bind, check_pos hn, error_bind,
    settle_fatal s (e := .invalidArgument) rfl, codeOf]

/-- GAMMA_ENC's third check: the position (R123). -/
theorem exec_gammaEnc_of_neg {s : State} (hcap : s.pbufLen.toNat ≤ s.capPbuf.toNat)
    (hn : 0 < s.a0.toInt) (hp : s.a1.toInt < 0) :
    exec .gammaEnc s = .next { s with code := 1, faulted := true } := by
  simp only [exec, execGammaEnc, checkPbuf_ok hcap, ok_bind, check_neg (Int.not_le.mpr hn),
    check_pos hp, error_bind, settle_fatal s (e := .invalidRange) rfl, codeOf]

/-- GAMMA_ENC's fourth check: the end of the code (R123). -/
theorem exec_gammaEnc_of_past_end {s : State} (hcap : s.pbufLen.toNat ≤ s.capPbuf.toNat)
    (hn : 0 < s.a0.toInt) (hp : 0 ≤ s.a1.toInt)
    (hend : 32 * s.pbufLen.toNat < s.a1.toInt + gammaLen s.a0.toInt.toNat) :
    exec .gammaEnc s = .next { s with code := 4, faulted := true } := by
  simp only [exec, execGammaEnc, checkPbuf_ok hcap, ok_bind, check_neg (Int.not_le.mpr hn),
    check_neg (Int.not_lt.mpr hp), gt_iff_lt, check_pos hend, error_bind,
    settle_fatal s (e := .invalidArgument) rfl, codeOf]

/-- GAMMA_DEC's second check: the position (R124). -/
theorem exec_gammaDec_of_neg {s : State} (hcap : s.pbufLen.toNat ≤ s.capPbuf.toNat)
    (hp : s.a0.toInt < 0) : exec .gammaDec s = .next { s with code := 1, faulted := true } := by
  simp only [exec, execGammaDec, checkPbuf_ok hcap, ok_bind, check_pos hp, error_bind,
    settle_fatal s (e := .invalidRange) rfl, codeOf]

/-! ## The code GAMMA_ENC writes -/

/-- The count of zeros of R120 is the logarithm the model computes. -/
theorem log2_eq_of_bounds {k n : Nat} (hlo : 2 ^ k ≤ n) (hhi : n < 2 ^ (k + 1)) :
    Nat.log2 n = k :=
  (Nat.log2_eq_iff ((Nat.two_pow_pos k).trans_le hlo).ne').mpr ⟨hlo, hhi⟩

theorem gammaLen_eq_of_bounds {k n : Nat} (hlo : 2 ^ k ≤ n) (hhi : n < 2 ^ (k + 1)) :
    gammaLen n = 2 * k + 1 := by
  rw [gammaLen, log2_eq_of_bounds hlo hhi]

/-- The operands of GAMMA_ENC pass its checks (R123): the code of `n`, with `k` leading zeros, has
room at stream position `p`. -/
structure NamesCode (s : State) (n p k : Nat) : Prop where
  capacity : s.pbufLen.toNat ≤ s.capPbuf.toNat
  number : s.a0.toInt = n
  position : s.a1.toInt = p
  low : 2 ^ k ≤ n
  high : n < 2 ^ (k + 1)
  fits : p + (2 * k + 1) ≤ 32 * s.pbufLen.toNat

section NamesCode

variable {s : State} {n p k : Nat}

theorem NamesCode.ne_zero (h : NamesCode s n p k) : n ≠ 0 :=
  ((Nat.two_pow_pos k).trans_le h.low).ne'

theorem NamesCode.log2_eq (h : NamesCode s n p k) : Nat.log2 n = k :=
  log2_eq_of_bounds h.low h.high

theorem NamesCode.gammaLen_eq (h : NamesCode s n p k) : gammaLen n = 2 * k + 1 :=
  gammaLen_eq_of_bounds h.low h.high

/-- GAMMA_ENC, its checks passed. -/
theorem NamesCode.exec_gammaEnc (h : NamesCode s n p k) : exec .gammaEnc s =
    settle s (writeFields s.pbuf (gammaFields p n) >>= fun m =>
      pure ((State.setRes0 { s with pbuf := m } (BitVec.ofNat 32 (p + (2 * k + 1)))).setRes1
        (BitVec.ofNat 32 (2 * k + 1)))) := by
  have hlen := h.gammaLen_eq
  have hpos := h.ne_zero
  obtain ⟨hcap, hn, hp, -, -, hfits⟩ := h
  have hnpos : ¬ (n : Int) ≤ 0 := by omega
  have hppos : ¬ (p : Int) < 0 := by omega
  have hend : ¬ 32 * (s.pbufLen.toNat : Int) < p + (2 * k + 1 : Nat) := by omega
  simp only [exec, execGammaEnc, checkPbuf_ok hcap, ok_bind, hn, hp, check_neg hnpos,
    check_neg hppos, Int.toNat_natCast, hlen, gt_iff_lt, check_neg hend]

/-- GAMMA_ENC into words that hold values: the code stands at the position, and neither another bit
nor which words hold values changes (R121, R123). -/
theorem NamesCode.exec_gammaEnc_code (h : NamesCode s n p k)
    (hh : ∀ q, p ≤ q → q < p + (2 * k + 1) → s.pbuf.has (q / 32)) :
    ∃ m : Memory, exec .gammaEnc s = .next { s with
        pbuf := m
        res0 := BitVec.ofNat 32 (p + (2 * k + 1))
        res1 := BitVec.ofNat 32 (2 * k + 1)
        noValue := (s.noValue.filter (· ≠ .res0)).filter (· ≠ .res1)
        code := 0 } ∧
      GammaCodeAt m p k n ∧
      (∀ q, q < p ∨ p + (2 * k + 1) ≤ q → m.bit q = s.pbuf.bit q) ∧
      ∀ i, m.has i ↔ s.pbuf.has i := by
  have hcovers : ∀ {q}, (∃ f ∈ gammaFields p n, f.covers q) ↔ p ≤ q ∧ q < p + (2 * k + 1) :=
    fun {q} => h.gammaLen_eq ▸ gammaFields_covers
  obtain ⟨m, hm⟩ : ∃ m, writeFields s.pbuf (gammaFields p n) = .ok m := by
    refine writeFields_exists (fun f hf => ?_) fun f hf q hq => ?_
    · rw [gammaFields_width hf]
      omega
    · obtain ⟨hlo, hhi⟩ := hcovers.mp ⟨f, hf, hq⟩
      exact hh q hlo hhi
  obtain ⟨hhas, -, hout, hin⟩ := writeFields_spec hm fun f hf => by
    rw [gammaFields_width hf]
    omega
  refine ⟨m, ?_, ?_, fun q hq => hout q fun f hf hc => ?_, hhas⟩
  · rw [h.exec_gammaEnc, hm]
    rfl
  · exact h.log2_eq ▸ gammaCodeAt_of_fields h.ne_zero (hin (gammaFields_pairwise p n))
  · have := hcovers.mp ⟨f, hf, hc⟩
    omega

/-- GAMMA_ENC into a word that holds none (R37). -/
theorem NamesCode.exec_gammaEnc_noValue (h : NamesCode s n p k) {q : Nat} (hp : p ≤ q)
    (hq : q < p + (2 * k + 1)) (hno : ¬ s.pbuf.has (q / 32)) :
    ∃ i, exec .gammaEnc s = .refused (.noValue .pbuf i) := by
  have hwidth : ∀ f ∈ gammaFields p n, f.width ≤ 32 := fun f hf => by
    rw [gammaFields_width hf]
    omega
  rw [h.exec_gammaEnc]
  cases hw : writeFields s.pbuf (gammaFields p n) with
  | ok m =>
    obtain ⟨f, hf, hc⟩ := gammaFields_covers.mpr ⟨hp, h.gammaLen_eq ▸ hq⟩
    exact absurd (writeFields_ok_has hw hwidth hf hc) hno
  | error e =>
    obtain ⟨i, rfl, -⟩ := writeFields_error hw hwidth
    exact ⟨i, rfl⟩

end NamesCode

/-! ## What GAMMA_DEC answers -/

section GammaDec

variable {s : State} {p : Nat}

/-- GAMMA_DEC, its checks passed, ends as `gamma_read` answers (R124). -/
theorem exec_gammaDec_eq (hcap : s.pbufLen.toNat ≤ s.capPbuf.toNat) (hp : s.a0.toInt = p) :
    exec .gammaDec s = settle s (gammaRead s.pbuf p (32 * s.pbufLen.toNat) >>= fun r =>
      orInvalidArgument r >>= fun nq =>
        pure ((s.setRes0 (BitVec.ofNat 32 nq.1)).setRes1 (BitVec.ofNat 32 nq.2))) := by
  have hppos : ¬ (p : Int) < 0 := by omega
  simp only [exec, execGammaDec, checkPbuf_ok hcap, ok_bind, hp, check_neg hppos,
    Int.toNat_natCast]

/-- GAMMA_DEC where a code of at most 31 zeros stands (R122, R124). -/
theorem exec_gammaDec_code (hcap : s.pbufLen.toNat ≤ s.capPbuf.toNat) (hp : s.a0.toInt = p)
    {k n : Nat} (hk : k ≤ 31) (hfits : p + (2 * k + 1) ≤ 32 * s.pbufLen.toNat)
    (hh : ∀ q, p ≤ q → q < p + (2 * k + 1) → s.pbuf.has (q / 32))
    (hcode : GammaCodeAt s.pbuf p k n) :
    exec .gammaDec s = .next { s with
      res0 := BitVec.ofNat 32 n
      res1 := BitVec.ofNat 32 (p + (2 * k + 1))
      noValue := (s.noValue.filter (· ≠ .res0)).filter (· ≠ .res1)
      code := 0 } := by
  rw [exec_gammaDec_eq hcap hp, gammaRead_value hcode hk hfits hh]
  rfl

/-- GAMMA_DEC where `gamma_read` answers no value (R124). -/
theorem exec_gammaDec_of_fails (hcap : s.pbufLen.toNat ≤ s.capPbuf.toNat) (hp : s.a0.toInt = p)
    {r : GammaRead} (hr : gammaRead s.pbuf p (32 * s.pbufLen.toNat) = .ok r)
    (hfail : ∀ n q, r ≠ .value n q) :
    exec .gammaDec s = .next { s with code := 4, faulted := true } := by
  have herr : orInvalidArgument r = .error (.raise .invalidArgument) := by
    cases r with
    | value n q => exact absurd rfl (hfail n q)
    | unterminated => rfl
    | tooLong => rfl
  rw [exec_gammaDec_eq hcap hp, hr, ok_bind, herr, error_bind, settle_fatal s rfl]
  rfl

/-- GAMMA_DEC where it reads a word that holds no value (R37). -/
theorem exec_gammaDec_noValue (hcap : s.pbufLen.toNat ≤ s.capPbuf.toNat) (hp : s.a0.toInt = p)
    {q : Nat} (hq : GammaReads s.pbuf p (32 * s.pbufLen.toNat) q) (hno : ¬ s.pbuf.has (q / 32)) :
    ∃ k, exec .gammaDec s = .refused (.noValue .pbuf k) := by
  rw [exec_gammaDec_eq hcap hp]
  cases hr : gammaRead s.pbuf p (32 * s.pbufLen.toNat) with
  | ok r => exact absurd (gammaRead_ok_has hr hq) hno
  | error e =>
    obtain ⟨q', -, rfl, -⟩ := gammaRead_error hr
    exact ⟨q' / 32, rfl⟩

end GammaDec

/-! ## The obligations -/

/-- Settles O35: the checks in order, then the buffer with the code written or the word that stops
the write. -/
theorem gammaEncWritesTheCode : Obligations.GammaEncWritesTheCode := by
  refine ⟨rfl, ?_⟩
  rintro s _ _ rfl rfl
  refine ⟨exec_gamma_capacityExceeded (.inl rfl), exec_gammaEnc_of_nonpos, exec_gammaEnc_of_neg,
    fun k hlo hhi hcap hn hp => ⟨fun hend => ?_, fun hfits => ?_⟩⟩
  · refine exec_gammaEnc_of_past_end hcap hn hp ?_
    rw [gammaLen_eq_of_bounds hlo hhi]
    omega
  · have hc : NamesCode s s.a0.toInt.toNat s.a1.toInt.toNat k :=
      ⟨hcap, by omega, by omega, hlo, hhi, by omega⟩
    refine ⟨fun hh => ?_, ?_⟩
    · obtain ⟨m, hm, hcode, hout, hhas⟩ :=
        hc.exec_gammaEnc_code fun q hlo hhi => hh q (by omega) (by omega)
      exact ⟨m, hm, hcode, fun q hq => hout q (by omega), hhas⟩
    · rintro ⟨q, hlo, hhi, hno⟩
      exact hc.exec_gammaEnc_noValue (by omega) (by omega) hno

/-- Settles O36: `gamma_read` answers the code's number, or stops at a word it reads. -/
theorem gammaDecReturnsTheNumber : Obligations.GammaDecReturnsTheNumber := by
  refine ⟨rfl, fun s p hp hcap => ⟨fun k n => exec_gammaDec_code hcap hp, ?_⟩⟩
  rintro ⟨q, hq, hno⟩
  exact exec_gammaDec_noValue hcap hp hq hno

/-- Settles O37: the checks in order, then `gamma_read` of a run of zeros, or of a first 1 that
comes too late. -/
theorem gammaDecErrors : Obligations.GammaDecErrors := by
  rintro s _ rfl
  refine ⟨exec_gamma_capacityExceeded (.inr rfl), exec_gammaDec_of_neg, fun hcap h0 hno => ?_⟩
  have hp : s.a0.toInt = s.a0.toInt.toNat := by omega
  rcases hno with hzeros | ⟨k, hk, hlate, hzeros, hone, hh⟩
  · exact exec_gammaDec_of_fails hcap hp
      (gammaRead_zeros fun q hlo hhi => hzeros q (by omega) hhi) (by simp)
  · obtain ⟨r, hr, hfail⟩ := gammaRead_late (m := s.pbuf) (p := s.a0.toInt.toNat) (k := k)
      (limit := 32 * s.pbufLen.toNat) (by omega) (by omega)
      (fun j hj => hzeros _ (by omega) (by omega)) hone fun q hlo hhi => hh q (by omega) (by omega)
    exact exec_gammaDec_of_fails hcap hp hr hfail

/-- Settles O38: the encoder leaves the code and which words hold values, so the decoder answers its
number, a word and so one of at most 31 zeros. -/
theorem gammaDecAfterGammaEnc : Obligations.GammaDecAfterGammaEnc := by
  rintro s k ⟨hcap, hready⟩ hn hp hlo hhi hfits
  have hnum : s.a0.toInt = s.a0.toNat :=
    BitVec.toInt_eq_toNat_of_lt (BitVec.toInt_pos_iff.mp hn.le)
  have hc : NamesCode s s.a0.toNat s.a1.toInt.toNat k :=
    ⟨hcap, hnum, by omega, hlo, hhi, by omega⟩
  have hend := hc.fits
  have hk : k ≤ 31 := Nat.le_of_lt_succ
    ((Nat.pow_lt_pow_iff_right one_lt_two).mp (hlo.trans_lt s.a0.isLt))
  obtain ⟨m, hm, hcode, -, hhas⟩ := hc.exec_gammaEnc_code fun q _ _ => hready _ (by omega)
  have hdec := exec_gammaDec_code (s := { s with
      pbuf := m
      res0 := BitVec.ofNat 32 (s.a1.toInt.toNat + (2 * k + 1))
      res1 := BitVec.ofNat 32 (2 * k + 1)
      noValue := (s.noValue.filter (· ≠ .res0)).filter (· ≠ .res1)
      code := 0
      a0 := s.a1 })
    hcap hc.position hk hend (fun q _ _ => (hhas _).mpr (hready _ (by omega))) hcode
  exact ⟨_, _, hm, hdec, rfl, (BitVec.ofNat_toNat 32 s.a0).trans s.a0.setWidth_eq, rfl⟩

end Sys2Proof.Machine
end

section
/-! PROOFS. The statements of 42_width_selector.md: what the two selectors answer, and the bounds on
the overflow selector's choice. -/

namespace Sys2Proof.Machine

open Sys2Proof

/-! ## The commands -/

section Commands

variable {s : State} {A : List Word}

/-- WSEL_UNIFORM on an admitted Sequence answers the uniform width (R135). -/
theorem exec_wselUniform_of_input (h : Input s A) :
    exec .wselUniform s = .next
      (((s.setRes0 (BitVec.ofNat 32 (uniformWidth A))).setRes1 0).succeed) := by
  simp only [exec, execWselUniform, inputSequence_eq h, ok_bind, pure_ok, settle_ok]

/-- WSEL_OVERFLOW on an admitted Sequence answers the overflow selector's pair (R136). -/
theorem exec_wselOverflow_of_input (h : Input s A) :
    exec .wselOverflow s = .next
      (((s.setRes0 (BitVec.ofNat 32 (overflowSelect A).1)).setRes1
        (BitVec.ofNat 32 (overflowSelect A).2)).succeed) := by
  simp only [exec, execWselOverflow, inputSequence_eq h, ok_bind, pure_ok, settle_ok]

/-- A number below `2^32` is the value of the word that answers it. -/
theorem toNat_ofNat_of_lt {n : Nat} (h : n < 2 ^ 32) : (BitVec.ofNat 32 n).toNat = n := by
  rw [BitVec.toNat_ofNat, Nat.mod_eq_of_lt h]

/-- The Sequence of a command's input has fewer elements than a word has values. -/
theorem length_lt_of_input (h : Input s A) : A.length < 2 ^ 32 := by
  obtain ⟨-, -, hcap⟩ := h
  exact hcap.trans_lt s.capN.isLt

end Commands

/-! ## The cost of a width with no outlier -/

section Bounds

variable {A : List Word} {v w : Nat}

/-- The outliers are the elements whose bit-width exceeds the width (R131). -/
theorem outlierCount_eq_countP_bitWidth (h1 : 1 ≤ w) :
    outlierCount A w = A.countP (fun a => decide (w < bitWidth a.toNat)) := by
  refine List.countP_congr fun a _ => ?_
  rw [decide_eq_true_iff, decide_eq_true_iff, ← not_le, ← not_lt, bitWidth_le_iff h1]

/-- No element overflows a width of at least the uniform one (R137). -/
theorem outlierCount_of_uniformWidth_le (hv : uniformWidth A ≤ v) : outlierCount A v = 0 := by
  obtain ⟨⟨-, hfits, -⟩, -⟩ := uniformWidth_spec A
  refine List.countP_eq_zero.mpr fun a ha => ?_
  have hpow : 2 ^ uniformWidth A ≤ 2 ^ v := Nat.pow_le_pow_right two_pos hv
  simpa using (hfits a ha).trans_le hpow

/-- The uniform width is an eligible candidate (R133, R137). -/
theorem uniformWidth_eligible (A : List Word) :
    outlierCount A (uniformWidth A) ≤ 2 ^ uniformWidth A := by
  rw [outlierCount_of_uniformWidth_le le_rfl]
  exact Nat.zero_le _

theorem overflowSize_of_no_outlier (h : outlierCount A v = 0) :
    overflowSize A v = (A.length * (v + 1) + 11 + 31) / 32 * 32 := by
  simp [overflowSize, h, Nat.log2_def]

/-- From the uniform width on, a wider candidate costs no less (R137). -/
theorem overflowSize_mono_of_uniformWidth_le (hw : uniformWidth A ≤ w) (hv : w ≤ v) :
    overflowSize A w ≤ overflowSize A v := by
  rw [overflowSize_of_no_outlier (outlierCount_of_uniformWidth_le hw),
    overflowSize_of_no_outlier (outlierCount_of_uniformWidth_le (hw.trans hv))]
  gcongr

/-- A width of at most 31 without outliers costs at most one word more than the Sequence has
elements (R137). -/
theorem overflowSize_le_of_no_outlier (h : outlierCount A v = 0) (hv : v ≤ 31) :
    overflowSize A v ≤ 32 * (A.length + 1) := by
  have hbits : A.length * (v + 1) ≤ A.length * 32 := Nat.mul_le_mul_left _ (by omega)
  rw [overflowSize_of_no_outlier h]
  omega

/-- The width of least size is not above the uniform one, which costs no more than any width above
it: a tie goes to the smaller (R137). -/
theorem IsOverflowWidth.le_uniformWidth (hA : Admitted A) (h : IsOverflowWidth A w) :
    w ≤ uniformWidth A := by
  obtain ⟨⟨h1, -⟩, h31, -⟩ := uniformWidth_spec A
  obtain ⟨-, -, -, hleast⟩ := h
  by_contra hlt
  have hless := (hleast _ h1 (h31 hA) (uniformWidth_eligible A)).2 (by omega)
  have hmono := overflowSize_mono_of_uniformWidth_le (A := A) le_rfl (Nat.le_of_not_le hlt)
  omega

end Bounds

/-! ## The obligations -/

/-- Settles O39: the machine's uniform width is the least that holds every element. -/
theorem wselUniformReturnsTheLeastWidth : Obligations.WselUniformReturnsTheLeastWidth := by
  refine ⟨rfl, fun s A hin => ?_⟩
  obtain ⟨hspec, h31, -⟩ := uniformWidth_spec A
  have ⟨_, hA, _⟩ := hin
  exact ⟨uniformWidth A, hspec, h31 hA, exec_wselUniform_of_input hin⟩

/-- Settles O40: the machine's selected width is the eligible one of least size, and its count that
of the outliers. -/
theorem wselOverflowReturnsTheCheapestWidth : Obligations.WselOverflowReturnsTheCheapestWidth := by
  refine ⟨rfl, fun s A hin => ?_⟩
  have ⟨_, hA, _⟩ := hin
  obtain ⟨hspec, hoc⟩ := overflowSelect_spec hA
  refine ⟨(overflowSelect A).1, hspec, ?_⟩
  rw [← hoc]
  exact exec_wselOverflow_of_input hin

/-- Settles O41: the machine's counts and costs are those of the specification, and the selected
width's least size is no more than the size of the uniform width, which has no outlier. -/
theorem overflowChoiceIsBounded : Obligations.OverflowChoiceIsBounded := by
  rintro A w oc W hA hsel rfl
  obtain rfl : (overflowSelect A).1 = w := congrArg Prod.fst hsel
  obtain rfl : (overflowSelect A).2 = oc := congrArg Prod.snd hsel
  obtain ⟨⟨hW1, -⟩, hW31, -⟩ := uniformWidth_spec A
  have hW31 := hW31 hA
  have hW0 : outlierCount A (uniformWidth A) = 0 := outlierCount_of_uniformWidth_le le_rfl
  obtain ⟨hwidth, hoc⟩ := overflowSelect_spec hA
  have hle := hwidth.le_uniformWidth hA
  obtain ⟨h1, h31, heligible, hleast⟩ := hwidth
  rw [overflowCount_eq hW1 (by omega), cost_eq hW1 (by omega), cost_eq h1 (by omega), hoc]
  refine ⟨⟨hW1, hW31, hW0⟩, ⟨h1, hle, heligible⟩, fun v hv hv31 => ?_,
    ⟨(hleast _ hW1 hW31 (uniformWidth_eligible A)).1, overflowSize_of_no_outlier hW0,
      overflowSize_le_of_no_outlier hW0 hW31⟩,
    outlierCount_eq_countP_bitWidth h1, fun s hin => ?_⟩
  · rw [overflowCount_eq (by omega) (by omega), cost_eq (by omega) (by omega)]
    exact ⟨outlierCount_of_uniformWidth_le hv.le,
      overflowSize_mono_of_uniformWidth_le le_rfl hv.le⟩
  · have hlen : outlierCount A (overflowSelect A).1 < 2 ^ 32 :=
      (outlierCount_le_length A _).trans_lt (length_lt_of_input hin)
    refine ⟨_, _, exec_wselUniform_of_input hin, exec_wselOverflow_of_input hin,
      toNat_ofNat_of_lt (by omega), toNat_ofNat_of_lt (by omega), ?_⟩
    rw [← hoc] at hlen ⊢
    exact toNat_ofNat_of_lt hlen

end Sys2Proof.Machine
end

section
/-! PROOFS. The statements of 43_nonspanning.md: the buffer NS_COMPRESS leaves, what NS_DECOMPRESS
and NS_GET answer for any buffer, and the round trip. -/

namespace Sys2Proof.Machine

open Sys2Proof

/-! ## The layout -/

/-- The words of a memory from 0 on hold the non-spanning buffer of `A` at width `w`: the Header,
the elements in their slots, and 0 in every other bit (R140 to R144). -/
structure HoldsNs (m : Memory) (A : List Word) (w : Nat) : Prop where
  words : ∀ i, i < nsWords w A.length → m.has i
  width : m.field 0 5 = w
  padding : m.field 5 5 = nsPad w A.length
  element : ∀ (i : Nat) (a : Word), A[i]? = some a → m.field (nsElementPos w i) w = a.toNat
  zero : ∀ q, 10 ≤ q → q < 32 * nsWords w A.length →
    (∀ i, i < A.length → ¬ (nsElementPos w i ≤ q ∧ q < nsElementPos w i + w)) → m.bit q = false

section Layout

variable {s : State} {A : List Word} {w : Nat} {m : Memory}

theorem mem_nsFields {f : Field} :
    f ∈ nsFields A w ↔ f = ⟨0, 5, w⟩ ∨ f = ⟨5, 5, nsPad w A.length⟩ ∨
      ∃ (i : Nat) (h : i < A.length), f = ⟨nsElementPos w i, w, A[i].toNat⟩ := by
  rw [nsFields, List.mem_append, mem_headerFields, mem_elementFields, or_assoc]
  simp only [Nat.zero_add]

/-- The fields of the layout, packed, are the layout, and the words above it stay (R66). -/
theorem holdsNs_of_packBuffer (h1 : 1 ≤ w) (h31 : w ≤ 31) (hfit : ∀ a ∈ A, a.toNat < 2 ^ w)
    (h : packBuffer s (nsWords w A.length) (nsFields A w) = .ok m) :
    HoldsNs m A w ∧ ∀ i, nsWords w A.length ≤ i → m.read i = s.pbuf.read i := by
  obtain ⟨hwidth, hin, hdisjoint⟩ := nsFields_ok (A := A) h1 h31
  obtain ⟨-, -, -, -, hpad, -⟩ := ns_words A.length h1 h31
  obtain ⟨-, hhas, -, hzero, habove, hfields⟩ :=
    packBuffer_ok h (fun f hf => (hwidth f hf).2) hin
  have hfield : ∀ f ∈ nsFields A w, f.value < 2 ^ f.width → m.field f.pos f.width = f.value :=
    fun f hf hv => field_of_holds hv (hfields hdisjoint f hf)
  refine ⟨⟨fun i hi => (hhas i).mpr (.inl hi), ?width, ?padding, fun i a hi => ?element,
    fun q h10 hq hout => hzero q hq fun f hf hc => ?zero⟩, habove⟩
  case width =>
    exact hfield ⟨0, 5, w⟩ (mem_nsFields.mpr (.inl rfl)) (show w < 32 by omega)
  case padding =>
    exact hfield ⟨5, 5, nsPad w A.length⟩ (mem_nsFields.mpr (.inr (.inl rfl))) hpad
  case element =>
    obtain ⟨hlt, rfl⟩ := List.getElem?_eq_some_iff.mp hi
    exact hfield ⟨nsElementPos w i, w, A[i].toNat⟩ (mem_nsFields.mpr (.inr (.inr ⟨i, hlt, rfl⟩)))
      (hfit _ (List.getElem_mem hlt))
  case zero =>
    rcases mem_nsFields.mp hf with rfl | rfl | ⟨i, hi, rfl⟩
    · simp only [Field.covers] at hc; omega
    · simp only [Field.covers] at hc; omega
    · exact hout i hi hc

/-- The buffer has room for the Header and the fields (R149(d)). -/
theorem ns_room (n : Nat) (h1 : 1 ≤ w) (h31 : w ≤ 31) : n * w + 10 ≤ 32 * nsWords w n := by
  obtain ⟨-, -, hword, hheader, -⟩ := ns_slots h1 h31
  obtain ⟨hslots, -⟩ := ns_words n h1 h31
  calc n * w + 10 ≤ n * w + nsHeaderSlots w * w := by omega
    _ = (n + nsHeaderSlots w) * w := (Nat.add_mul _ _ _).symm
    _ ≤ nsWords w n * nsCpw w * w := Nat.mul_le_mul_right w hslots
    _ = nsWords w n * (nsCpw w * w) := Nat.mul_assoc _ _ _
    _ ≤ nsWords w n * 32 := Nat.mul_le_mul_left _ hword
    _ = 32 * nsWords w n := Nat.mul_comm _ _

end Layout

/-! ## NS_COMPRESS -/

section Compress

variable {s : State} {A : List Word}

/-- NS_COMPRESS of the empty Sequence (R145). -/
theorem exec_nsCompress_nil (hin : Input s []) :
    exec .nsCompress s = .next s.compressedEmpty.succeed := by
  simp only [exec, execNsCompress, inputSequence_eq hin, ok_bind, if_true, pure_ok, settle_ok]

/-- The buffer of a Sequence in SEQ_IN fits PBUF (R10, R142). -/
theorem nsWords_le_capPbuf (hcap : Config.Admissible s.capN s.capPbuf) (hin : Input s A) :
    nsWords (uniformWidth A) A.length ≤ s.capPbuf.toNat := by
  obtain ⟨-, hA, hlen⟩ := hin
  obtain ⟨-, -, hroom⟩ := hcap
  obtain ⟨⟨h1, -⟩, h31, -⟩ := uniformWidth_spec A
  obtain ⟨-, -, hwords, -⟩ := ns_words A.length h1 (h31 hA)
  omega

/-- NS_COMPRESS of a non-empty Sequence packs its fields at the uniform width, and the buffer then
holds the layout (R145). -/
theorem exec_nsCompress_holdsNs (hcap : Config.Admissible s.capN s.capPbuf) (hin : Input s A)
    (hne : A ≠ []) :
    ∃ m : Memory, exec .nsCompress s = .next
        (s.compressed m (nsWords (uniformWidth A) A.length) (uniformWidth A)).succeed ∧
      HoldsNs m A (uniformWidth A) ∧
      ∀ i, nsWords (uniformWidth A) A.length ≤ i → m.read i = s.pbuf.read i := by
  obtain ⟨⟨h1, hfit, -⟩, h31, -⟩ := uniformWidth_spec A
  have ⟨_, hA, _⟩ := hin
  obtain ⟨hwidth, hcovers, -⟩ := nsFields_ok (A := A) h1 (h31 hA)
  obtain ⟨m, hm⟩ := packBuffer_exists (nsWords_le_capPbuf hcap hin) hwidth hcovers
  refine ⟨m, ?_, holdsNs_of_packBuffer h1 (h31 hA) hfit hm⟩
  rw [nsFields] at hm
  simp only [exec, execNsCompress, inputSequence_eq hin, ok_bind, if_neg hne, hm, pure_ok,
    settle_ok]

end Compress

/-! ## The Header of the two decoders -/

/-- The commands that read a non-spanning buffer (R147, R148). -/
def IsNsDecoder (i : Instr) : Prop := i = .nsDecompress ∨ i = .nsGet

section Header

variable {i : Instr} {s : State} {w L : Nat}

/-- A recoverable error ends a command with the code alone (R213, R216). -/
theorem settle_recoverable (s : State) {e : ErrorCode} (h : isFatal e = false) :
    settle s (.error (.raise e)) = .next { s with code := codeOf e } := by
  rw [settle_raise, raise_of_not_fatal s h]

/-- Both decoders stop where their Header does. -/
theorem exec_of_nsHeader_error (hi : IsNsDecoder i) (hcap : s.pbufLen.toNat ≤ s.capPbuf.toNat)
    {e : Stop} (h : nsHeader s = .error e) : exec i s = settle s (.error e) := by
  rcases hi with rfl | rfl
  · simp only [exec, execNsDecompress, checkPbuf_ok hcap, ok_bind, h, error_bind]
  · simp only [exec, execNsGet, checkPbuf_ok hcap, ok_bind, h, error_bind]

/-- Word 0 without a value stops both decoders (R37, R146). -/
theorem exec_nsDecoder_noHeader (hi : IsNsDecoder i) (hcap : s.pbufLen.toNat ≤ s.capPbuf.toNat)
    (hl : s.pbufLen ≠ 0) (hno : ¬ s.pbuf.has 0) : exec i s = .refused (.noValue .pbuf 0) := by
  have hread : readField s.pbuf 0 5 = .error (.refuse (.noValue .pbuf 0)) := by
    cases hr : readField s.pbuf 0 5 with
    | ok v => exact absurd (readField_ok_has hr (by omega) le_rfl (by omega)) hno
    | error e => rw [(readField_word0_error (by omega) (by omega) hr).1]
  have hheader : nsHeader s = .error (.refuse (.noValue .pbuf 0)) := by
    have hlen : uint s.pbufLen ≠ 0 := BitVec.toNat_ne.mp hl
    rw [nsHeader, if_neg hlen, hread, error_bind]
  rw [exec_of_nsHeader_error hi hcap hheader]
  rfl

/-- A Header that is not good is MALFORMED_BUFFER in both decoders (R146). -/
theorem exec_nsDecoder_malformed (hi : IsNsDecoder i) (hcap : s.pbufLen.toNat ≤ s.capPbuf.toNat)
    (hl : s.pbufLen ≠ 0) (h0 : s.pbuf.has 0)
    (h : s.pbuf.field 0 5 = 0 ∨ s.pbufLen.toNat * nsCpw (s.pbuf.field 0 5) <
      nsHeaderSlots (s.pbuf.field 0 5) + s.pbuf.field 5 5) :
    exec i s = .next { s with code := 3 } := by
  rw [exec_of_nsHeader_error hi hcap (nsHeader_malformed (BitVec.toNat_ne.mp hl) h0 h)]
  exact settle_recoverable s rfl

/-- The width of a good Header is one that its five bits hold. -/
theorem NsGoodHeader.width_bounds (h : NsGoodHeader s w L) : 1 ≤ w ∧ w ≤ 31 := by
  obtain ⟨-, rfl, hw, -⟩ := h
  exact ⟨Nat.one_le_iff_ne_zero.mpr hw, Nat.le_of_lt_succ (Memory.field_lt s.pbuf 0 5)⟩

/-- A word that holds no value reads as a width of 0, so a good Header stands in a word that holds
one. -/
theorem NsGoodHeader.has_zero (h : NsGoodHeader s w L) : s.pbuf.has 0 := by
  obtain ⟨-, rfl, hw, -⟩ := h
  by_contra hno
  refine hw (Memory.field_of_bits (by omega) fun j hj => ?_)
  have hnone : s.pbuf.read 0 = none := by simpa [Memory.has] using hno
  have hword : (0 + j) / 32 = 0 := by omega
  rw [Nat.zero_testBit, Memory.bit, hword, hnone]

/-- What a good Header tells (R146). -/
theorem NsGoodHeader.nsHeader_eq (h : NsGoodHeader s w L) : nsHeader s = .ok ⟨w, L⟩ := by
  have h0 := h.has_zero
  obtain ⟨hl, rfl, hw, hlen⟩ := h
  exact Machine.nsHeader_eq (BitVec.toNat_ne.mp hl) h0 hw hlen

/-- The slots of the elements lie in the buffer. -/
theorem NsGoodHeader.slots_le (h : NsGoodHeader s w L) :
    nsHeaderSlots w + L ≤ s.pbufLen.toNat * nsCpw w := by
  obtain ⟨-, -, -, hlen⟩ := h
  have : L + nsHeaderSlots w + s.pbuf.field 5 5 = s.pbufLen.toNat * nsCpw w := hlen
  omega

/-- Element `i` as a word: the field of slot `h + i` (R140, R141). -/
def nsValue (m : Memory) (w i : Nat) : Word := BitVec.ofNat 32 (m.field (nsElementPos w i) w)

theorem NsGoodHeader.nsElement_eq (h : NsGoodHeader s w L) {j : Nat} (hj : j < L)
    (hh : ∀ k, k < s.pbufLen.toNat → s.pbuf.has k) :
    nsElement s w j = .ok (nsValue s.pbuf w j) :=
  Machine.nsElement_eq h.width_bounds.1 h.width_bounds.2 h.slots_le hj hh

/-- An element stops only where its one word holds no value. -/
theorem NsGoodHeader.nsElement_error (h : NsGoodHeader s w L) {j : Nat} (hj : j < L) {e : Stop}
    (he : nsElement s w j = .error e) :
    ∃ k, NsElementWord w j k ∧ e = .refuse (.noValue .pbuf k) := by
  obtain ⟨h1, h31⟩ := h.width_bounds
  obtain ⟨k, -, hk, rfl, -⟩ := Machine.nsElement_error h1 h31 h.slots_le hj he
  exact ⟨k, hk, rfl⟩

/-- An element whose word holds no value stops at that word (R37). -/
theorem NsGoodHeader.nsElement_noValue (h : NsGoodHeader s w L) {j k : Nat} (hj : j < L)
    (hk : NsElementWord w j k) (hno : ¬ s.pbuf.has k) :
    nsElement s w j = .error (.refuse (.noValue .pbuf k)) := by
  obtain ⟨h1, h31⟩ := h.width_bounds
  cases he : nsElement s w j with
  | ok v => exact absurd (nsElement_ok_has h1 h31 he hk) hno
  | error e =>
    obtain ⟨k', hk', rfl⟩ := h.nsElement_error hj he
    rw [show k' = k from hk'.trans hk.symm]

end Header

/-! ## NS_DECOMPRESS -/

section Decompress

variable {s : State} {w L : Nat}

/-- NS_DECOMPRESS, its Header read (R147). -/
theorem exec_nsDecompress_of_header (hcap : s.pbufLen.toNat ≤ s.capPbuf.toNat)
    (h : nsHeader s = .ok ⟨w, L⟩) :
    exec .nsDecompress s = settle s (check (s.capN.toNat < L) .capacityExceeded >>= fun _ =>
      collect (nsElement s w) 0 L >>= fun vs => pure (s.decompressed vs)) := by
  simp only [exec, execNsDecompress, checkPbuf_ok hcap, ok_bind, h, gt_iff_lt]

/-- NS_DECOMPRESS of more elements than SEQ_OUT holds (R67, R147). -/
theorem exec_nsDecompress_capacityExceeded (hcap : s.pbufLen.toNat ≤ s.capPbuf.toNat)
    (h : nsHeader s = .ok ⟨w, L⟩) (hL : s.capN.toNat < L) :
    exec .nsDecompress s = .next { s with code := 6 } := by
  rw [exec_nsDecompress_of_header hcap h, check_pos hL, error_bind]
  exact settle_recoverable s rfl

/-- NS_DECOMPRESS of elements that are all answered (R67, R147). -/
theorem exec_nsDecompress_elements (hcap : s.pbufLen.toNat ≤ s.capPbuf.toNat)
    (h : nsHeader s = .ok ⟨w, L⟩) (hL : L ≤ s.capN.toNat) {v : Nat → Word}
    (hv : ∀ j, j < L → nsElement s w j = .ok (v j)) :
    exec .nsDecompress s = .next { s with
      seqOut := s.seqOut.store 0 ((List.range L).map v)
      seqOutLen := BitVec.ofNat 32 L
      res0 := BitVec.ofNat 32 L
      noValue := s.noValue.filter (· ≠ .res0)
      code := 0 } := by
  have hcollect : collect (nsElement s w) 0 L = .ok ((List.range L).map v) := by
    rw [collect_ok_iff]
    refine ⟨by simp, fun j hj => ?_⟩
    rw [Nat.zero_add, hv j (by simpa using hj)]
    simp
  rw [exec_nsDecompress_of_header hcap h, check_neg (Nat.not_lt.mpr hL), ok_bind, hcollect, ok_bind,
    pure_ok, settle_ok, State.decompressed, List.length_map, List.length_range]
  rfl

/-- NS_DECOMPRESS where the word of an element holds no value (R37). -/
theorem exec_nsDecompress_noValue (hcap : s.pbufLen.toNat ≤ s.capPbuf.toNat)
    (h : NsGoodHeader s w L) (hL : L ≤ s.capN.toNat) {j k : Nat} (hj : j < L)
    (hk : NsElementWord w j k) (hno : ¬ s.pbuf.has k) :
    ∃ k, exec .nsDecompress s = .refused (.noValue .pbuf k) := by
  rw [exec_nsDecompress_of_header hcap h.nsHeader_eq, check_neg (Nat.not_lt.mpr hL), ok_bind]
  cases hc : collect (nsElement s w) 0 L with
  | ok vs =>
    obtain ⟨rfl, hvs⟩ := collect_ok_iff.mp hc
    have hok := hvs j hj
    rw [Nat.zero_add, h.nsElement_noValue hj hk hno] at hok
    cases hok
  | error e =>
    obtain ⟨j', hj', he⟩ := collect_error hc
    rw [Nat.zero_add] at he
    obtain ⟨k', -, rfl⟩ := h.nsElement_error hj' he
    exact ⟨k', rfl⟩

/-- What SEQ_OUT reads as after a decompress of `L` values (R67). -/
theorem read_store_range (m : Memory) (L : Nat) (v : Nat → Word) (i : Nat) :
    (m.store 0 ((List.range L).map v)).read i = if i < L then some (v i) else m.read i := by
  rw [Memory.read_store]
  by_cases hi : i < L
  · simp [hi]
  · simp [hi]

end Decompress

/-! ## NS_GET -/

section Get

variable {s : State} {w L : Nat}

/-- NS_GET, its Header read (R148). -/
theorem exec_nsGet_of_header (hcap : s.pbufLen.toNat ≤ s.capPbuf.toNat)
    (h : nsHeader s = .ok ⟨w, L⟩) :
    exec .nsGet s = settle s (check (s.a0.toInt < 0 ∨ s.a0.toInt ≥ L) .indexOutOfRange >>= fun _ =>
      nsElement s w s.a0.toInt.toNat >>= fun v => pure (s.setRes0 v)) := by
  simp only [exec, execNsGet, checkPbuf_ok hcap, ok_bind, h]

/-- NS_GET of an index that names no element (R148). -/
theorem exec_nsGet_indexOutOfRange (hcap : s.pbufLen.toNat ≤ s.capPbuf.toNat)
    (h : nsHeader s = .ok ⟨w, L⟩) (hi : s.a0.toInt < 0 ∨ (L : Int) ≤ s.a0.toInt) :
    exec .nsGet s = .next { s with code := 2 } := by
  rw [exec_nsGet_of_header hcap h, check_pos hi, error_bind]
  exact settle_recoverable s rfl

/-- NS_GET of an index that names an element ends as the element is answered (R148). -/
theorem exec_nsGet_of_index (hcap : s.pbufLen.toNat ≤ s.capPbuf.toNat)
    (h : nsHeader s = .ok ⟨w, L⟩) {i : Nat} (hi : s.a0.toInt = i) (hL : i < L) :
    exec .nsGet s = settle s (nsElement s w i >>= fun v => pure (s.setRes0 v)) := by
  rw [exec_nsGet_of_header hcap h, check_neg (by omega), ok_bind, hi, Int.toNat_natCast]

/-- NS_GET of a buffer whose words all hold values (R148). -/
theorem exec_nsGet_element (hready : BufferReady s) (h : NsGoodHeader s w L) {i : Nat}
    (hi : s.a0.toInt = i) (hL : i < L) :
    exec .nsGet s = .next (s.setRes0 (nsValue s.pbuf w i)).succeed := by
  obtain ⟨hcap, hh⟩ := hready
  rw [exec_nsGet_of_index hcap h.nsHeader_eq hi hL, h.nsElement_eq hL hh, ok_bind, pure_ok,
    settle_ok]

end Get

/-! ## The buffer of NS_COMPRESS, read back -/

section RoundTrip

variable {s : State} {A : List Word} {w : Nat}

/-- PBUF holds the non-spanning buffer of `A` at width `w`, as NS_COMPRESS leaves it (R145). -/
structure NsBuffer (s : State) (A : List Word) (w : Nat) : Prop where
  one_le : 1 ≤ w
  le_31 : w ≤ 31
  length : s.pbufLen.toNat = nsWords w A.length
  capacity : s.pbufLen.toNat ≤ s.capPbuf.toNat
  layout : HoldsNs s.pbuf A w

/-- What stands in A0 is no part of the buffer. -/
theorem NsBuffer.withA0 (h : NsBuffer s A w) (v : Word) : NsBuffer { s with a0 := v } A w :=
  ⟨h.one_le, h.le_31, h.length, h.capacity, h.layout⟩

theorem NsBuffer.ready (h : NsBuffer s A w) : BufferReady s :=
  ⟨h.capacity, fun i hi => h.layout.words i (h.length ▸ hi)⟩

/-- The Header is good, with the Sequence's length (R143, R146). -/
theorem NsBuffer.goodHeader (h : NsBuffer s A w) : NsGoodHeader s w A.length := by
  obtain ⟨h1, h31, hlen, -, hns⟩ := h
  obtain ⟨-, -, -, hpos, -, hpad⟩ := ns_words A.length h1 h31
  refine ⟨fun hl => ?_, hns.width.symm, Nat.one_le_iff_ne_zero.mp h1, ?_⟩
  · rw [← hlen, hl] at hpos
    exact absurd hpos (by decide)
  · show A.length + nsHeaderSlots w + s.pbuf.field 5 5 = s.pbufLen.toNat * nsCpw w
    rw [hns.padding, hlen]
    omega

/-- The elements of the layout are the Sequence's. -/
theorem HoldsNs.nsValue_eq {m : Memory} (h : HoldsNs m A w) {i : Nat} {a : Word}
    (ha : A[i]? = some a) : nsValue m w i = a := by
  rw [nsValue, h.element i a ha]
  exact (BitVec.ofNat_toNat 32 a).trans a.setWidth_eq

theorem HoldsNs.map_nsValue {m : Memory} (h : HoldsNs m A w) :
    (List.range A.length).map (nsValue m w) = A := by
  refine List.ext_getElem (by simp) fun i _ hi => ?_
  rw [List.getElem_map, List.getElem_range]
  exact h.nsValue_eq (List.getElem?_eq_getElem hi)

/-- NS_DECOMPRESS gives the Sequence back (R149(a)). -/
theorem NsBuffer.exec_nsDecompress (h : NsBuffer s A w) (hL : A.length ≤ s.capN.toNat) :
    exec .nsDecompress s = .next { s with
      seqOut := s.seqOut.store 0 A
      seqOutLen := BitVec.ofNat 32 A.length
      res0 := BitVec.ofNat 32 A.length
      noValue := s.noValue.filter (· ≠ .res0)
      code := 0 } := by
  obtain ⟨hcap, hh⟩ := h.ready
  rw [exec_nsDecompress_elements hcap h.goodHeader.nsHeader_eq hL
    fun j hj => h.goodHeader.nsElement_eq hj hh, h.layout.map_nsValue]

/-- NS_GET gives the element its index names (R149(b)). -/
theorem NsBuffer.exec_nsGet (h : NsBuffer s A w) {i : Nat} {a : Word} (hi : s.a0.toInt = i)
    (ha : A[i]? = some a) : exec .nsGet s = .next (s.setRes0 a).succeed := by
  obtain ⟨hlt, -⟩ := List.getElem?_eq_some_iff.mp ha
  rw [exec_nsGet_element h.ready h.goodHeader hi hlt, h.layout.nsValue_eq ha]

/-- An index below a capacity that R10 admits reads the same signed and unsigned. -/
theorem toInt_ofNat_index {n i : Nat} (hn : n ≤ 2 ^ 31 - 1) (hi : i < n) :
    (BitVec.ofNat 32 i).toInt = i := by
  have hval : (BitVec.ofNat 32 i).toNat = i := toNat_ofNat_of_lt (by omega)
  rw [BitVec.toInt_eq_toNat_of_lt (by omega), hval]

/-- SEQ_OUT_LEN after the Sequence in SEQ_IN was stored in SEQ_OUT. -/
theorem ofNat_length_of_input (h : Input s A) : BitVec.ofNat 32 A.length = s.seqInLen := by
  obtain ⟨⟨hlen, -⟩, -⟩ := h
  rw [hlen]
  exact (BitVec.ofNat_toNat 32 _).trans s.seqInLen.setWidth_eq

theorem read_store_self (m : Memory) (i : Nat) (hi : i < A.length) :
    (m.store 0 A).read i = A[i]? := by
  rw [Memory.read_store, if_pos (by omega), Nat.sub_zero]

/-- NS_COMPRESS of a non-empty Sequence leaves its buffer in PBUF, and its width in RES1 (R145). -/
theorem exec_nsCompress_nsBuffer (hcap : Config.Admissible s.capN s.capPbuf) (hin : Input s A)
    (hne : A ≠ []) :
    ∃ t, exec .nsCompress s = .next t ∧ t.code = 0 ∧ t.capN = s.capN ∧
      t.res1.toNat = uniformWidth A ∧ NsBuffer t A (uniformWidth A) := by
  obtain ⟨m, hm, hns, -⟩ := exec_nsCompress_holdsNs hcap hin hne
  have ⟨_, hA, _⟩ := hin
  obtain ⟨⟨h1, -⟩, h31, -⟩ := uniformWidth_spec A
  have h31 := h31 hA
  have hfits := nsWords_le_capPbuf hcap hin
  have hlen : (BitVec.ofNat 32 (nsWords (uniformWidth A) A.length)).toNat =
      nsWords (uniformWidth A) A.length := toNat_ofNat_of_lt (hfits.trans_lt s.capPbuf.isLt)
  exact ⟨_, hm, rfl, rfl, toNat_ofNat_of_lt (by omega), h1, h31, hlen, hlen.trans_le hfits, hns⟩

end RoundTrip

/-! ## The obligations -/

/-- Settles O45: the layout is packed at the uniform width into a buffer that fits PBUF. -/
theorem nsCompressLaysOutTheBuffer : Obligations.NsCompressLaysOutTheBuffer := by
  refine ⟨rfl, fun s A hcap hin hne => ?_⟩
  have ⟨_, hA, _⟩ := hin
  obtain ⟨hspec, h31, -⟩ := uniformWidth_spec A
  obtain ⟨-, -, hwords, -, -, hpad⟩ := ns_words A.length hspec.1 (h31 hA)
  obtain ⟨m, hm, hns, habove⟩ := exec_nsCompress_holdsNs hcap hin hne
  exact ⟨m, uniformWidth A, nsCpw (uniformWidth A), nsHeaderSlots (uniformWidth A),
    nsWords (uniformWidth A) A.length, hspec, rfl, rfl, rfl, hwords, hm, hns.width,
    by rw [hns.padding, hpad], hns.element, hns.zero, hns.words, habove⟩

/-- Settles O46: the Header is judged first, then the length, and then every element is answered or
the word of one stops the command. -/
theorem nsDecompressReadsEveryElement : Obligations.NsDecompressReadsEveryElement := by
  refine ⟨rfl, fun s hl hcap => ⟨exec_nsDecoder_noHeader (.inl rfl) hcap hl,
    fun w L j k hgood hL => exec_nsDecompress_noValue hcap hgood hL⟩, ?_⟩
  rintro s _ _ _ _ ⟨hcap, hh⟩ hl rfl rfl rfl rfl
  have h0 : s.pbuf.has 0 := hh 0 (Nat.pos_of_ne_zero (BitVec.toNat_ne.mp hl))
  refine ⟨exec_nsDecoder_malformed (.inl rfl) hcap hl h0, fun L hw hlen => ?_⟩
  have hgood : NsGoodHeader s (s.pbuf.field 0 5) L := ⟨hl, rfl, hw, hlen⟩
  refine ⟨exec_nsDecompress_capacityExceeded hcap hgood.nsHeader_eq, fun hL => ?_⟩
  refine ⟨_, exec_nsDecompress_elements hcap hgood.nsHeader_eq hL
    fun j hj => hgood.nsElement_eq hj hh, fun i hi => ?_, fun i hi => ?_⟩
  · rw [read_store_range, if_pos hi]
    rfl
  · rw [read_store_range, if_neg (Nat.not_lt.mpr hi)]

/-- Settles O47: the Header is judged first, then the index, and then the element is answered or its
word stops the command. -/
theorem nsGetReadsOneElement : Obligations.NsGetReadsOneElement := by
  refine ⟨rfl, fun s hl hcap => ⟨exec_nsDecoder_noHeader (.inr rfl) hcap hl, ?_⟩, ?_⟩
  · intro w L j k hgood hj hi hk hno
    rw [exec_nsGet_of_index hcap hgood.nsHeader_eq hi hj, hgood.nsElement_noValue hj hk hno]
    rfl
  · rintro s _ _ _ _ ⟨hcap, hh⟩ hl rfl rfl rfl rfl
    have h0 : s.pbuf.has 0 := hh 0 (Nat.pos_of_ne_zero (BitVec.toNat_ne.mp hl))
    refine ⟨exec_nsDecoder_malformed (.inr rfl) hcap hl h0, fun L hw hlen => ?_⟩
    have hgood : NsGoodHeader s (s.pbuf.field 0 5) L := ⟨hl, rfl, hw, hlen⟩
    exact ⟨exec_nsGet_indexOutOfRange hcap hgood.nsHeader_eq,
      fun i hi hL => exec_nsGet_element ⟨hcap, hh⟩ hgood hi hL⟩

/-- Settles O48: NS_COMPRESS leaves the Sequence's buffer, or the empty one, and the decoders read
it. -/
theorem nonSpanningRoundTrip : Obligations.NonSpanningRoundTrip := by
  intro s A hcap hin
  have ⟨_, hA, hL⟩ := hin
  have ⟨_, hN31, _⟩ := hcap
  rw [← ofNat_length_of_input hin]
  by_cases hne : A = []
  · subst hne
    have hdec := exec_nsDecompress_elements (s := s.compressedEmpty.succeed) (v := fun _ => 0)
      (Nat.zero_le _) (nsHeader_empty rfl) (Nat.zero_le _) (by simp)
    exact ⟨_, _, exec_nsCompress_nil hin, rfl, hdec, rfl, rfl, by simp, by simp, by simp⟩
  · obtain ⟨hspec, h31, -⟩ := uniformWidth_spec A
    obtain ⟨t, ht, hcode, hcapN, hwidth, hbuf⟩ := exec_nsCompress_nsBuffer hcap hin hne
    refine ⟨t, _, ht, hcode, hbuf.exec_nsDecompress (hcapN ▸ hL), rfl, rfl,
      read_store_self t.seqOut, fun i a ha => ?_, fun _ => ?_⟩
    · obtain ⟨hlt, -⟩ := List.getElem?_eq_some_iff.mp ha
      have hget := (hbuf.withA0 (BitVec.ofNat 32 i)).exec_nsGet
        (toInt_ofNat_index hN31 (hlt.trans_le hL)) ha
      exact ⟨_, hget, rfl, rfl⟩
    · rw [hwidth, hbuf.length]
      exact ⟨hspec, ns_room A.length hspec.1 (h31 hA)⟩

end Sys2Proof.Machine
end

section
/-! PROOFS. The statements of 44_spanning.md: the buffer SP_COMPRESS leaves, what SP_DECOMPRESS and
SP_GET answer for any buffer, and the round trip. -/

namespace Sys2Proof.Machine

open Sys2Proof

/-! ## The layout -/

/-- The words of a memory from 0 on hold the spanning buffer of `A` at width `w`: the Header, the
elements one after the other, and 0 in the unused bits (R160 to R163). -/
structure HoldsSp (m : Memory) (A : List Word) (w : Nat) : Prop where
  words : ∀ i, i < spWords w A.length → m.has i
  width : m.field 0 5 = w
  unused : m.field 5 5 = spUnused w A.length
  element : ∀ (i : Nat) (a : Word), A[i]? = some a → m.field (spElementPos w i) w = a.toNat
  zero : ∀ q, 10 + A.length * w ≤ q → q < 32 * spWords w A.length → m.bit q = false

section Layout

variable {s : State} {A : List Word} {w : Nat} {m : Memory} {f : Field}

theorem mem_spFields :
    f ∈ spFields A w ↔ f = ⟨0, 5, w⟩ ∨ f = ⟨5, 5, spUnused w A.length⟩ ∨
      ∃ (i : Nat) (h : i < A.length), f = ⟨spElementPos w i, w, A[i].toNat⟩ := by
  rw [spFields, List.mem_append, mem_headerFields, mem_elementFields, or_assoc]
  simp only [Nat.zero_add]

/-- No field of the layout reaches the unused bits (R162). -/
theorem covers_lt_of_mem_spFields (hf : f ∈ spFields A w) {q : Nat} (hq : f.covers q) :
    q < 10 + A.length * w := by
  rcases List.mem_append.mp hf with hheader | helement
  · exact (headerFields_covers.mp ⟨f, hheader, hq⟩).trans_le (Nat.le_add_right _ _)
  · obtain ⟨j, hj, -, hlt⟩ := elementFields_covers.mp ⟨f, helement, hq⟩
    rw [Nat.zero_add] at hlt
    exact hlt.trans_le (spElementPos_bounds hj).2

/-- Every value of the layout fits its field. -/
theorem value_lt_of_mem_spFields (h31 : w ≤ 31) (hfit : ∀ a ∈ A, a.toNat < 2 ^ w)
    (hf : f ∈ spFields A w) : f.value < 2 ^ f.width := by
  obtain ⟨-, hunused, -⟩ := sp_words (n := A.length) h31
  rcases mem_spFields.mp hf with rfl | rfl | ⟨i, hi, rfl⟩
  · exact Nat.lt_succ_of_le h31
  · exact hunused
  · exact hfit _ (List.getElem_mem hi)

/-- The fields of the layout, packed, are the layout, and the words above it stay (R66). -/
theorem holdsSp_of_packBuffer (h1 : 1 ≤ w) (h31 : w ≤ 31) (hfit : ∀ a ∈ A, a.toNat < 2 ^ w)
    (h : packBuffer s (spWords w A.length) (spFields A w) = .ok m) :
    HoldsSp m A w ∧ ∀ i, spWords w A.length ≤ i → m.read i = s.pbuf.read i := by
  obtain ⟨hwidth, hin, hdisjoint⟩ := spFields_ok (A := A) h1 h31
  obtain ⟨-, hhas, -, hzero, habove, hfields⟩ :=
    packBuffer_ok h (fun f hf => (hwidth f hf).2) hin
  have hfield : ∀ f ∈ spFields A w, m.field f.pos f.width = f.value := fun f hf =>
    field_of_holds (value_lt_of_mem_spFields h31 hfit hf) (hfields hdisjoint f hf)
  refine ⟨⟨fun i hi => (hhas i).mpr (.inl hi), hfield _ (mem_spFields.mpr (.inl rfl)),
    hfield _ (mem_spFields.mpr (.inr (.inl rfl))), fun i a ha => ?element,
    fun q hq hlt => hzero q hlt fun f hf hc => ?zero⟩, habove⟩
  case element =>
    obtain ⟨hi, rfl⟩ := List.getElem?_eq_some_iff.mp ha
    exact hfield _ (mem_spFields.mpr (.inr (.inr ⟨i, hi, rfl⟩)))
  case zero => exact absurd (covers_lt_of_mem_spFields hf hc) (Nat.not_lt.mpr hq)

/-- No smaller buffer has room for the Header and the fields (R161, R168(d)). -/
theorem spWords_le {n k : Nat} (h : n * w + 10 ≤ 32 * k) : spWords w n ≤ k := by
  rw [spWords, cdiv]
  omega

/-- Element `i` as a word: the field at `10 + w*i` (R160). -/
def spValue (m : Memory) (w i : Nat) : Word := BitVec.ofNat 32 (m.field (spElementPos w i) w)

/-- The elements of the layout are the Sequence's. -/
theorem HoldsSp.spValue_eq (h : HoldsSp m A w) {i : Nat} {a : Word} (ha : A[i]? = some a) :
    spValue m w i = a := by
  rw [spValue, h.element i a ha]
  exact BitVec.eq_of_toNat_eq (toNat_ofNat_of_lt a.isLt)

theorem HoldsSp.map_spValue (h : HoldsSp m A w) : (List.range A.length).map (spValue m w) = A :=
  List.ext_getElem (by simp) fun i _ hi => by
    rw [List.getElem_map, List.getElem_range, h.spValue_eq (List.getElem?_eq_getElem hi)]

end Layout

/-! ## SP_COMPRESS -/

section Compress

variable {s : State} {A : List Word}

/-- SP_COMPRESS of the empty Sequence (R165). -/
theorem exec_spCompress_nil (hin : Input s []) :
    exec .spCompress s = .next s.compressedEmpty.succeed := by
  simp only [exec, execSpCompress, inputSequence_eq hin, ok_bind, if_true, pure_ok, settle_ok]

/-- The buffer of a Sequence in SEQ_IN fits PBUF (R10, R161). -/
theorem spWords_le_capPbuf (hcap : Config.Admissible s.capN s.capPbuf) (hin : Input s A) :
    spWords (uniformWidth A) A.length ≤ s.capPbuf.toNat := by
  obtain ⟨-, hA, hlen⟩ := hin
  obtain ⟨-, -, hroom⟩ := hcap
  obtain ⟨-, h31, -⟩ := uniformWidth_spec A
  obtain ⟨-, -, hwords, -⟩ := sp_words (n := A.length) (h31 hA)
  omega

/-- SP_COMPRESS of a non-empty Sequence packs its fields at the uniform width, and the buffer then
holds the layout (R165). -/
theorem exec_spCompress_holdsSp (hcap : Config.Admissible s.capN s.capPbuf) (hin : Input s A)
    (hne : A ≠ []) :
    ∃ m : Memory, exec .spCompress s = .next
        (s.compressed m (spWords (uniformWidth A) A.length) (uniformWidth A)).succeed ∧
      HoldsSp m A (uniformWidth A) ∧
      ∀ i, spWords (uniformWidth A) A.length ≤ i → m.read i = s.pbuf.read i := by
  obtain ⟨⟨h1, hfit, -⟩, h31, -⟩ := uniformWidth_spec A
  have ⟨_, hA, _⟩ := hin
  obtain ⟨hwidth, hcovers, -⟩ := spFields_ok (A := A) h1 (h31 hA)
  obtain ⟨m, hm⟩ := packBuffer_exists (spWords_le_capPbuf hcap hin) hwidth hcovers
  refine ⟨m, ?_, holdsSp_of_packBuffer h1 (h31 hA) hfit hm⟩
  rw [spFields] at hm
  simp only [exec, execSpCompress, inputSequence_eq hin, ok_bind, if_neg hne, hm, pure_ok,
    settle_ok]

end Compress

/-! ## The Header of the two decoders -/

/-- A word that holds no value reads as 0 everywhere, so a field of word 0 that is not 0 stands in a
word that holds one. -/
theorem has_zero_of_field_ne_zero {m : Memory} {n : Nat} (hn : n ≤ 32) (h : m.field 0 n ≠ 0) :
    m.has 0 := by
  by_contra hno
  have hnone : m.read 0 = none := by simpa using hno
  refine h (Memory.field_of_bits (Nat.two_pow_pos n) fun j hj => ?_)
  have hword : (0 + j) / 32 = 0 := by omega
  rw [Nat.zero_testBit, Memory.bit, hword, hnone]

/-- The commands that read a spanning buffer (R166, R167). -/
def IsSpDecoder (i : Instr) : Prop := i = .spDecompress ∨ i = .spGet

section Header

variable {i : Instr} {s : State} {w L : Nat}

/-- Both decoders stop where their Header does. -/
theorem exec_of_spHeader_error (hi : IsSpDecoder i) (hcap : s.pbufLen.toNat ≤ s.capPbuf.toNat)
    {e : Stop} (h : spHeader s = .error e) : exec i s = settle s (.error e) := by
  rcases hi with rfl | rfl
  · simp only [exec, execSpDecompress, checkPbuf_ok hcap, ok_bind, h, error_bind]
  · simp only [exec, execSpGet, checkPbuf_ok hcap, ok_bind, h, error_bind]

/-- The Header is read before it is judged: word 0 without a value stops it (R37, R164). -/
theorem spHeader_noValue (hl : s.pbufLen ≠ 0) (hno : ¬ s.pbuf.has 0) :
    spHeader s = .error (.refuse (.noValue .pbuf 0)) := by
  have hlen : uint s.pbufLen ≠ 0 := BitVec.toNat_ne.mp hl
  rw [spHeader, if_neg hlen]
  cases hr : readField s.pbuf 0 5 with
  | ok v => exact absurd (readField_ok_has hr (by omega) le_rfl (by omega)) hno
  | error e => rw [(readField_word0_error (by omega) (by omega) hr).1, error_bind]

/-- Word 0 without a value stops both decoders (R37, R164). -/
theorem exec_spDecoder_noHeader (hi : IsSpDecoder i) (hcap : s.pbufLen.toNat ≤ s.capPbuf.toNat)
    (hl : s.pbufLen ≠ 0) (hno : ¬ s.pbuf.has 0) : exec i s = .refused (.noValue .pbuf 0) := by
  rw [exec_of_spHeader_error hi hcap (spHeader_noValue hl hno)]
  rfl

/-- A Header that no SP_COMPRESS could write is MALFORMED_BUFFER in both decoders (R164). -/
theorem exec_spDecoder_malformed (hi : IsSpDecoder i) (hready : BufferReady s) (hl : s.pbufLen ≠ 0)
    (h : s.pbuf.field 0 5 = 0 ∨ 32 * s.pbufLen.toNat < 10 + s.pbuf.field 5 5 ∨
      ∀ L, 10 + s.pbuf.field 5 5 + L * s.pbuf.field 0 5 ≠ 32 * s.pbufLen.toNat) :
    exec i s = .next { s with code := 3 } := by
  obtain ⟨hcap, hh⟩ := hready
  have hlen : s.pbufLen.toNat ≠ 0 := BitVec.toNat_ne.mp hl
  rw [exec_of_spHeader_error hi hcap (spHeader_malformed hlen (hh 0 (Nat.pos_of_ne_zero hlen)) h)]
  exact settle_recoverable s rfl

/-- The width of a good Header is one that its five bits hold. -/
theorem SpGoodHeader.width_bounds (h : SpGoodHeader s w L) : 1 ≤ w ∧ w ≤ 31 := by
  obtain ⟨-, rfl, hw, -⟩ := h
  exact ⟨Nat.one_le_iff_ne_zero.mpr hw, Nat.le_of_lt_succ (Memory.field_lt s.pbuf 0 5)⟩

/-- What a good Header tells (R164). -/
theorem SpGoodHeader.spHeader_eq (h : SpGoodHeader s w L) : spHeader s = .ok ⟨w, L⟩ := by
  obtain ⟨hl, rfl, hw, hlen⟩ := h
  exact Machine.spHeader_eq (BitVec.toNat_ne.mp hl) (has_zero_of_field_ne_zero (by omega) hw) hw hlen

/-- The elements lie in the buffer (R164). -/
theorem SpGoodHeader.room (h : SpGoodHeader s w L) : 10 + L * w ≤ 32 * s.pbufLen.toNat := by
  obtain ⟨-, -, -, hlen⟩ := h
  omega

theorem SpGoodHeader.spElement_eq (h : SpGoodHeader s w L)
    (hh : ∀ k, k < s.pbufLen.toNat → s.pbuf.has k) {j : Nat} (hj : j < L) :
    spElement s w j = .ok (spValue s.pbuf w j) :=
  Machine.spElement_eq h.width_bounds.1 h.width_bounds.2 h.room hj hh

/-- An element stops only at a word that holds no value (R37). -/
theorem SpGoodHeader.spElement_error (h : SpGoodHeader s w L) {j : Nat} (hj : j < L) {e : Stop}
    (he : spElement s w j = .error e) : ∃ k, e = .refuse (.noValue .pbuf k) := by
  obtain ⟨k, -, -, hrefuse, -⟩ := Machine.spElement_error h.width_bounds.1 h.room hj he
  exact ⟨k, hrefuse⟩

/-- An element of which some word holds no value stops. The word it stops at need not be that one:
an element that crosses a boundary reads its lower word first. -/
theorem SpGoodHeader.spElement_noValue (h : SpGoodHeader s w L) {j k : Nat} (hj : j < L)
    (hk : SpElementWord w j k) (hno : ¬ s.pbuf.has k) :
    ∃ k', spElement s w j = .error (.refuse (.noValue .pbuf k')) := by
  cases he : spElement s w j with
  | ok v => exact absurd (spElement_ok_has h.width_bounds.2 he hk) hno
  | error e =>
    obtain ⟨k', rfl⟩ := h.spElement_error hj he
    exact ⟨k', rfl⟩

end Header

/-! ## SP_DECOMPRESS -/

/-- A run of reads that are all answered answers the list of their values. -/
theorem collect_eq_map_range {α : Type} {f : Nat → Except Stop α} {n : Nat} {v : Nat → α}
    (h : ∀ j, j < n → f j = .ok (v j)) : collect f 0 n = .ok ((List.range n).map v) :=
  collect_ok_iff.mpr ⟨by simp, fun j hj => by
    rw [List.getElem_map, List.getElem_range, Nat.zero_add, h j (by simpa using hj)]⟩

section Decompress

variable {s : State} {w L : Nat}

/-- SP_DECOMPRESS, its Header read (R166). -/
theorem exec_spDecompress_of_header (hcap : s.pbufLen.toNat ≤ s.capPbuf.toNat)
    (h : spHeader s = .ok ⟨w, L⟩) :
    exec .spDecompress s = settle s (check (s.capN.toNat < L) .capacityExceeded >>= fun _ =>
      collect (spElement s w) 0 L >>= fun vs => pure (s.decompressed vs)) := by
  simp only [exec, execSpDecompress, checkPbuf_ok hcap, ok_bind, h, gt_iff_lt]

/-- SP_DECOMPRESS of more elements than SEQ_OUT holds (R67, R166). -/
theorem exec_spDecompress_capacityExceeded (hcap : s.pbufLen.toNat ≤ s.capPbuf.toNat)
    (h : spHeader s = .ok ⟨w, L⟩) (hL : s.capN.toNat < L) :
    exec .spDecompress s = .next { s with code := 6 } := by
  rw [exec_spDecompress_of_header hcap h, check_pos hL, error_bind]
  exact settle_recoverable s rfl

/-- SP_DECOMPRESS of elements that are all answered (R67, R166). -/
theorem exec_spDecompress_elements (hcap : s.pbufLen.toNat ≤ s.capPbuf.toNat)
    (h : spHeader s = .ok ⟨w, L⟩) (hL : L ≤ s.capN.toNat) {v : Nat → Word}
    (hv : ∀ j, j < L → spElement s w j = .ok (v j)) :
    exec .spDecompress s = .next (s.decompressed ((List.range L).map v)).succeed := by
  rw [exec_spDecompress_of_header hcap h, check_neg (Nat.not_lt.mpr hL), ok_bind,
    collect_eq_map_range hv, ok_bind, pure_ok, settle_ok]

/-- SP_DECOMPRESS where a word of an element holds no value (R37). -/
theorem exec_spDecompress_noValue (hcap : s.pbufLen.toNat ≤ s.capPbuf.toNat)
    (h : SpGoodHeader s w L) (hL : L ≤ s.capN.toNat) {j k : Nat} (hj : j < L)
    (hk : SpElementWord w j k) (hno : ¬ s.pbuf.has k) :
    ∃ k, exec .spDecompress s = .refused (.noValue .pbuf k) := by
  rw [exec_spDecompress_of_header hcap h.spHeader_eq, check_neg (Nat.not_lt.mpr hL), ok_bind]
  cases hc : collect (spElement s w) 0 L with
  | ok vs =>
    obtain ⟨rfl, hvs⟩ := collect_ok_iff.mp hc
    obtain ⟨k', he⟩ := h.spElement_noValue hj hk hno
    have hok := hvs j hj
    rw [Nat.zero_add, he] at hok
    cases hok
  | error e =>
    obtain ⟨j', hj', he⟩ := collect_error hc
    rw [Nat.zero_add] at he
    obtain ⟨k', rfl⟩ := h.spElement_error hj' he
    exact ⟨k', rfl⟩

end Decompress

/-! ## SP_GET -/

section Get

variable {s : State} {w L i : Nat}

/-- SP_GET, its Header read (R167). -/
theorem exec_spGet_of_header (hcap : s.pbufLen.toNat ≤ s.capPbuf.toNat)
    (h : spHeader s = .ok ⟨w, L⟩) :
    exec .spGet s = settle s (check (s.a0.toInt < 0 ∨ s.a0.toInt ≥ L) .indexOutOfRange >>= fun _ =>
      spElement s w s.a0.toInt.toNat >>= fun v => pure (s.setRes0 v)) := by
  simp only [exec, execSpGet, checkPbuf_ok hcap, ok_bind, h]

/-- SP_GET of an index that names no element (R167). -/
theorem exec_spGet_indexOutOfRange (hcap : s.pbufLen.toNat ≤ s.capPbuf.toNat)
    (h : spHeader s = .ok ⟨w, L⟩) (hi : s.a0.toInt < 0 ∨ (L : Int) ≤ s.a0.toInt) :
    exec .spGet s = .next { s with code := 2 } := by
  rw [exec_spGet_of_header hcap h, check_pos hi, error_bind]
  exact settle_recoverable s rfl

/-- SP_GET of an index that names an element ends as the element is answered (R167). -/
theorem exec_spGet_of_index (hcap : s.pbufLen.toNat ≤ s.capPbuf.toNat)
    (h : spHeader s = .ok ⟨w, L⟩) (hi : s.a0.toInt = i) (hL : i < L) :
    exec .spGet s = settle s (spElement s w i >>= fun v => pure (s.setRes0 v)) := by
  rw [exec_spGet_of_header hcap h, check_neg (by omega), ok_bind, hi, Int.toNat_natCast]

/-- SP_GET of a buffer whose words all hold values (R167). -/
theorem exec_spGet_element (hready : BufferReady s) (h : SpGoodHeader s w L)
    (hi : s.a0.toInt = i) (hL : i < L) :
    exec .spGet s = .next (s.setRes0 (spValue s.pbuf w i)).succeed := by
  obtain ⟨hcap, hh⟩ := hready
  rw [exec_spGet_of_index hcap h.spHeader_eq hi hL, h.spElement_eq hh hL, ok_bind, pure_ok,
    settle_ok]

/-- SP_GET of an element of which some word holds no value (R37). -/
theorem exec_spGet_noValue (hcap : s.pbufLen.toNat ≤ s.capPbuf.toNat) (h : SpGoodHeader s w L)
    (hi : s.a0.toInt = i) (hL : i < L) {k : Nat} (hk : SpElementWord w i k)
    (hno : ¬ s.pbuf.has k) :
    ∃ k, exec .spGet s = .refused (.noValue .pbuf k) := by
  obtain ⟨k', he⟩ := h.spElement_noValue hL hk hno
  refine ⟨k', ?_⟩
  rw [exec_spGet_of_index hcap h.spHeader_eq hi hL, he]
  rfl

end Get

/-! ## The buffer of SP_COMPRESS, read back -/

/-- PBUF holds the spanning buffer of `A` at width `w`, as SP_COMPRESS leaves it (R165). -/
structure SpBuffer (s : State) (A : List Word) (w : Nat) : Prop where
  one_le : 1 ≤ w
  le_31 : w ≤ 31
  length : s.pbufLen.toNat = spWords w A.length
  capacity : s.pbufLen.toNat ≤ s.capPbuf.toNat
  layout : HoldsSp s.pbuf A w

section RoundTrip

variable {s : State} {A : List Word} {w : Nat}

/-- What stands in A0 is no part of the buffer. -/
theorem SpBuffer.withA0 (h : SpBuffer s A w) (v : Word) : SpBuffer { s with a0 := v } A w :=
  ⟨h.one_le, h.le_31, h.length, h.capacity, h.layout⟩

theorem SpBuffer.ready (h : SpBuffer s A w) : BufferReady s :=
  ⟨h.capacity, fun i hi => h.layout.words i (h.length ▸ hi)⟩

/-- The Header is good, with the Sequence's length (R162, R164). -/
theorem SpBuffer.goodHeader (h : SpBuffer s A w) : SpGoodHeader s w A.length := by
  obtain ⟨h1, h31, hlen, -, hsp⟩ := h
  obtain ⟨hunused, -, -, hpos⟩ := sp_words (n := A.length) h31
  refine ⟨BitVec.toNat_ne.mpr ?_, hsp.width.symm, Nat.one_le_iff_ne_zero.mp h1, ?_⟩
  · rw [hlen]
    exact Nat.one_le_iff_ne_zero.mp hpos
  · rw [hsp.unused, hlen]
    omega

/-- SP_DECOMPRESS gives the Sequence back (R168(a)). -/
theorem SpBuffer.exec_spDecompress (h : SpBuffer s A w) (hL : A.length ≤ s.capN.toNat) :
    exec .spDecompress s = .next (s.decompressed A).succeed := by
  obtain ⟨hcap, hh⟩ := h.ready
  rw [exec_spDecompress_elements hcap h.goodHeader.spHeader_eq hL
    fun j hj => h.goodHeader.spElement_eq hh hj, h.layout.map_spValue]

/-- SP_GET gives the element its index names (R168(b)). -/
theorem SpBuffer.exec_spGet (h : SpBuffer s A w) {i : Nat} {a : Word} (hi : s.a0.toInt = i)
    (ha : A[i]? = some a) : exec .spGet s = .next (s.setRes0 a).succeed := by
  obtain ⟨hlt, -⟩ := List.getElem?_eq_some_iff.mp ha
  rw [exec_spGet_element h.ready h.goodHeader hi hlt, h.layout.spValue_eq ha]

/-- SP_COMPRESS of a non-empty Sequence leaves its buffer in PBUF, and its width in RES1 (R165). -/
theorem exec_spCompress_spBuffer (hcap : Config.Admissible s.capN s.capPbuf) (hin : Input s A)
    (hne : A ≠ []) :
    ∃ t, exec .spCompress s = .next t ∧ t.code = 0 ∧ t.capN = s.capN ∧
      t.res1.toNat = uniformWidth A ∧ SpBuffer t A (uniformWidth A) := by
  obtain ⟨m, hm, hsp, -⟩ := exec_spCompress_holdsSp hcap hin hne
  have ⟨_, hA, _⟩ := hin
  obtain ⟨⟨h1, -⟩, h31, hle⟩ := uniformWidth_spec A
  have hfits := spWords_le_capPbuf hcap hin
  have hlen : (BitVec.ofNat 32 (spWords (uniformWidth A) A.length)).toNat =
      spWords (uniformWidth A) A.length := toNat_ofNat_of_lt (hfits.trans_lt s.capPbuf.isLt)
  exact ⟨_, hm, rfl, rfl, toNat_ofNat_of_lt (by omega), h1, h31 hA, hlen, hlen.trans_le hfits, hsp⟩

end RoundTrip

/-! ## The obligations -/

/-- Settles O49: the layout is packed at the uniform width into a buffer that fits PBUF. -/
theorem spCompressLaysOutTheBuffer : Obligations.SpCompressLaysOutTheBuffer := by
  refine ⟨rfl, fun s A hcap hin hne => ?_⟩
  have ⟨_, hA, _⟩ := hin
  obtain ⟨hspec, h31, -⟩ := uniformWidth_spec A
  obtain ⟨hunused, -, hwords, -⟩ := sp_words (n := A.length) (h31 hA)
  obtain ⟨m, hm, hsp, habove⟩ := exec_spCompress_holdsSp hcap hin hne
  exact ⟨m, uniformWidth A, spWords (uniformWidth A) A.length, hspec, rfl, hwords, hm, hsp.width,
    by rw [hsp.unused, hunused], hsp.element, hsp.zero, hsp.words, habove⟩

/-- Settles O50: the Header is judged first, then the length, and then every element is answered or
a word of one stops the command. -/
theorem spDecompressReadsEveryElement : Obligations.SpDecompressReadsEveryElement := by
  refine ⟨rfl, fun s hl hcap => ⟨exec_spDecoder_noHeader (.inl rfl) hcap hl,
    fun w L j k hgood hL => exec_spDecompress_noValue hcap hgood hL⟩, ?_⟩
  rintro s _ _ hready hl rfl rfl
  refine ⟨exec_spDecoder_malformed (.inl rfl) hready hl, fun L hw hlen => ?_⟩
  obtain ⟨hcap, hh⟩ := hready
  have hgood : SpGoodHeader s (s.pbuf.field 0 5) L := ⟨hl, rfl, hw, hlen⟩
  refine ⟨exec_spDecompress_capacityExceeded hcap hgood.spHeader_eq, fun hL => ?_⟩
  refine ⟨s.seqOut.store 0 ((List.range L).map (spValue s.pbuf (s.pbuf.field 0 5))), ?_,
    fun i hi => ?_, fun i hi => ?_⟩
  · rw [exec_spDecompress_elements hcap hgood.spHeader_eq hL fun j hj => hgood.spElement_eq hh hj,
      State.decompressed, List.length_map, List.length_range]
    rfl
  · rw [read_store_range, if_pos hi]
    rfl
  · rw [read_store_range, if_neg (Nat.not_lt.mpr hi)]

/-- Settles O51: the Header is judged first, then the index, and then the element is answered or a
word of it stops the command. -/
theorem spGetReadsOneElement : Obligations.SpGetReadsOneElement := by
  refine ⟨rfl, fun s hl hcap => ⟨exec_spDecoder_noHeader (.inr rfl) hcap hl,
    fun w L j k hgood hj hi hk hno => exec_spGet_noValue hcap hgood hi hj hk hno⟩, ?_⟩
  rintro s _ _ hready hl rfl rfl
  refine ⟨exec_spDecoder_malformed (.inr rfl) hready hl, fun L hw hlen => ?_⟩
  have hgood : SpGoodHeader s (s.pbuf.field 0 5) L := ⟨hl, rfl, hw, hlen⟩
  have ⟨hcap, _⟩ := hready
  exact ⟨exec_spGet_indexOutOfRange hcap hgood.spHeader_eq,
    fun i hi hL => exec_spGet_element hready hgood hi hL⟩

/-- Settles O52: SP_COMPRESS leaves the Sequence's buffer, or the empty one, and the decoders read
it. -/
theorem spanningRoundTrip : Obligations.SpanningRoundTrip := by
  intro s A hcap hin
  have ⟨_, hA, hL⟩ := hin
  have ⟨_, hN31, _⟩ := hcap
  rw [← ofNat_length_of_input hin]
  by_cases hne : A = []
  · subst hne
    have hdec := exec_spDecompress_elements (s := s.compressedEmpty.succeed) (v := fun _ => 0)
      (Nat.zero_le _) (spHeader_empty rfl) (Nat.zero_le _) (by simp)
    exact ⟨_, _, exec_spCompress_nil hin, rfl, hdec, rfl, rfl, by simp, by simp, by simp⟩
  · obtain ⟨hspec, h31, -⟩ := uniformWidth_spec A
    obtain ⟨hwords, -⟩ := sp_words (n := A.length) (h31 hA)
    obtain ⟨t, ht, hcode, hcapN, hwidth, hbuf⟩ := exec_spCompress_spBuffer hcap hin hne
    refine ⟨t, _, ht, hcode, hbuf.exec_spDecompress (hcapN ▸ hL), rfl, rfl,
      read_store_self t.seqOut, fun i a ha => ?_, fun _ => ?_⟩
    · obtain ⟨hlt, -⟩ := List.getElem?_eq_some_iff.mp ha
      have hget := (hbuf.withA0 (BitVec.ofNat 32 i)).exec_spGet
        (toInt_ofNat_index hN31 (hlt.trans_le hL)) ha
      exact ⟨_, hget, rfl, rfl⟩
    · rw [hwidth, hbuf.length]
      exact ⟨hspec, by omega, fun k => spWords_le⟩

end Sys2Proof.Machine
end

section
/-! PROOFS. The statements of 45_overflow.md: the buffer OV_COMPRESS leaves, which headers its
decoders find malformed, what OV_DECOMPRESS and OV_GET answer for any buffer, and the round trip. -/

namespace Sys2Proof.Machine

open Sys2Proof

/-! ## The layout -/

/-- A word that holds a value is known by its stream bits (R53). -/
theorem Memory.read_of_bits {m : Memory} {i : Nat} {a : Word} (h : m.has i)
    (hbits : ∀ j, j < 32 → m.bit (32 * i + j) = a.getLsbD j) : m.read i = some a := by
  obtain ⟨v, hv⟩ := Memory.has_iff.mp h
  have hva : v = a := BitVec.eq_of_getLsbD_eq fun j hj => by
    have hword : m.read ((32 * i + j) / 32) = some v := by
      rwa [show (32 * i + j) / 32 = i by omega]
    rw [← hbits j hj, Memory.bit_of_read hword, show (32 * i + j) % 32 = j by omega]
  rw [hv, hva]

theorem mem_elementFields_of_get {pos : Nat → Nat} {w i : Nat} {A : List Word} {a : Word}
    (ha : A[i]? = some a) : ⟨pos i, w, a.toNat⟩ ∈ elementFields pos w 0 A := by
  obtain ⟨hi, rfl⟩ := List.getElem?_eq_some_iff.mp ha
  exact mem_elementFields.mpr ⟨i, hi, by rw [Nat.zero_add]⟩

/-- The words of a memory from 0 on hold the overflow buffer of `A` at width `w`, of which `oc`
elements are relocated: the Header, the Gamma code of `oc + 1`, each element's marker and payload,
the relocated values from the last word down, and 0 in the unused bits (R180 to R184). -/
structure HoldsOv (m : Memory) (A : List Word) (w oc : Nat) : Prop where
  words : ∀ i, i < ovMainWords w oc A.length + oc → m.has i
  width : m.field 0 5 = w
  unused : m.field 5 5 = ovUnused w oc A.length
  code : GammaCodeAt m 10 (Nat.log2 (oc + 1)) (oc + 1)
  inline : ∀ (i : Nat) (a : Word), A[i]? = some a → a.toNat < 2 ^ w →
    m.bit (ovStreamStart oc + i * (w + 1)) = false ∧
      m.field (ovStreamStart oc + i * (w + 1) + 1) w = a.toNat
  relocated : ∀ (i : Nat) (a : Word), A[i]? = some a → 2 ^ w ≤ a.toNat →
    m.bit (ovStreamStart oc + i * (w + 1)) = true ∧
      m.field (ovStreamStart oc + i * (w + 1) + 1) w = outlierCount (A.take i) w ∧
      outlierCount (A.take i) w < oc ∧
      m.read (ovMainWords w oc A.length + oc - 1 - outlierCount (A.take i) w) = some a
  zero : ∀ q, ovStreamStart oc + A.length * (w + 1) ≤ q → q < 32 * ovMainWords w oc A.length →
    m.bit q = false

/-- Every field of a list stands in the memory with its value. -/
def FieldsHold (m : Memory) (fs : List Field) : Prop :=
  ∀ f ∈ fs, ∀ q, f.covers q → m.bit q = f.value.testBit (q - f.pos)

section Layout

variable {s : State} {A : List Word} {w oc L i : Nat} {a : Word} {m : Memory} {f : Field}

theorem header_mem_ovFields (hf : f = ⟨0, 5, w⟩ ∨ f = ⟨5, 5, ovUnused w oc A.length⟩) :
    f ∈ ovFields A w oc L := by
  simp only [ovFields, List.mem_append]
  exact .inl (.inl (.inl (.inl (mem_headerFields.mpr hf))))

theorem gamma_mem_ovFields (hf : f ∈ gammaFields 10 (oc + 1)) : f ∈ ovFields A w oc L := by
  simp only [ovFields, List.mem_append]
  exact .inl (.inl (.inl (.inr hf)))

/-- The marker of an element is one of the layout's fields (R181). -/
theorem marker_mem_ovFields (h1 : 1 ≤ w) (ha : A[i]? = some a) :
    ⟨ovStreamStart oc + i * (w + 1), 1, if a.toNat < 2 ^ w then 0 else 1⟩ ∈ ovFields A w oc L := by
  have hget : (ovMarkers w A)[i]? = some (if a.toNat < 2 ^ w then 0 else 1) := by
    simp only [ovMarkers, List.getElem?_map, ha, Option.map_some, bitWidth_le_iff h1]
  have hmem := mem_elementFields_of_get
    (pos := fun i => ovStreamStart oc + i * (w + 1)) (w := 1) hget
  rw [apply_ite BitVec.toNat] at hmem
  simp only [ovFields, List.mem_append]
  exact .inl (.inl (.inr hmem))

/-- The payload of an element is one of the layout's fields (R181). -/
theorem payload_mem_ovFields (h1 : 1 ≤ w) (ha : A[i]? = some a) :
    ⟨ovStreamStart oc + i * (w + 1) + 1, w, (if a.toNat < 2 ^ w then a
      else BitVec.ofNat 32 (outlierCount (A.take i) w)).toNat⟩ ∈ ovFields A w oc L := by
  have hget := ovScratch_get (slot := 0) h1 ha
  rw [Nat.zero_add] at hget
  simp only [ovFields, List.mem_append]
  exact .inl (.inr (mem_elementFields_of_get
    (pos := fun i => ovStreamStart oc + i * (w + 1) + 1) hget))

/-- The slot of a relocated element is one of the layout's fields (R182). -/
theorem slot_mem_ovFields (h1 : 1 ≤ w) (ha : A[i]? = some a) (hout : 2 ^ w ≤ a.toNat) :
    ⟨32 * (L - 1 - outlierCount (A.take i) w), 32, a.toNat⟩ ∈ ovFields A w oc L := by
  simp only [ovFields, List.mem_append]
  exact .inr (mem_elementFields_of_get (pos := fun j => 32 * (L - 1 - j))
    (ovOutliers_get h1 ha hout))

/-- The marker of an element tells whether it is relocated (R181). -/
theorem marker_bit (h1 : 1 ≤ w) (hm : FieldsHold m (ovFields A w oc L)) (ha : A[i]? = some a) :
    m.bit (ovStreamStart oc + i * (w + 1)) = decide (2 ^ w ≤ a.toNat) := by
  rw [hm _ (marker_mem_ovFields h1 ha) _ ⟨le_rfl, Nat.lt_succ_self _⟩, Nat.sub_self]
  by_cases hlt : a.toNat < 2 ^ w
  · simp [hlt]
  · simp [hlt, Nat.le_of_not_lt hlt]

/-- The payload of an inline element is its value (R181). -/
theorem payload_inline (h1 : 1 ≤ w) (hm : FieldsHold m (ovFields A w oc L)) (ha : A[i]? = some a)
    (hlt : a.toNat < 2 ^ w) : m.field (ovStreamStart oc + i * (w + 1) + 1) w = a.toNat := by
  have hmem := payload_mem_ovFields (oc := oc) (L := L) h1 ha
  rw [if_pos hlt] at hmem
  exact field_of_holds hlt (hm _ hmem)

/-- The payload of a relocated element is its slot index, which fits the width (R133, R182). -/
theorem payload_relocated (h1 : 1 ≤ w) (hm : FieldsHold m (ovFields A w oc L))
    (ha : A[i]? = some a) (hout : 2 ^ w ≤ a.toNat) (hfits : outlierCount (A.take i) w < 2 ^ w) :
    m.field (ovStreamStart oc + i * (w + 1) + 1) w = outlierCount (A.take i) w := by
  have hmem := payload_mem_ovFields (oc := oc) (L := L) h1 ha
  rw [if_neg (Nat.not_lt.mpr hout),
    toNat_ofNat_of_lt (hfits.trans (hout.trans_lt a.isLt))] at hmem
  exact field_of_holds hfits (hm _ hmem)

/-- The slot of a relocated element is a word of its own (R182). -/
theorem slot_word (h1 : 1 ≤ w) (hm : FieldsHold m (ovFields A w oc L)) (ha : A[i]? = some a)
    (hout : 2 ^ w ≤ a.toNat) (hhas : m.has (L - 1 - outlierCount (A.take i) w)) :
    m.read (L - 1 - outlierCount (A.take i) w) = some a := by
  refine Memory.read_of_bits hhas fun j hj => ?_
  rw [hm _ (slot_mem_ovFields h1 ha hout) _ ⟨Nat.le_add_right _ _, Nat.add_lt_add_left hj _⟩,
    Nat.add_sub_cancel_left, BitVec.testBit_toNat]

/-- The fields of the layout, packed, are the layout, and the words above it stay (R66). -/
theorem holdsOv_of_packBuffer (h1 : 1 ≤ w) (h31 : w ≤ 31) (hoc : oc = outlierCount A w)
    (heligible : oc ≤ 2 ^ w)
    (h : packBuffer s (ovMainWords w oc A.length + oc)
      (ovFields A w oc (ovMainWords w oc A.length + oc)) = .ok m) :
    HoldsOv m A w oc ∧ ∀ i, ovMainWords w oc A.length + oc ≤ i → m.read i = s.pbuf.read i := by
  obtain ⟨hwidth, hin, hdisjoint⟩ := ovFields_ok (A := A) h1 h31 hoc
  obtain ⟨-, hhas, -, hzero, habove, hm⟩ := packBuffer_ok h (fun f hf => (hwidth f hf).2) hin
  have hm : FieldsHold m (ovFields A w oc _) := hm hdisjoint
  obtain ⟨-, hunused, -⟩ := ov_words (A := A) hoc
  have hwords : ∀ i, i < ovMainWords w oc A.length + oc → m.has i := fun i hi =>
    (hhas i).mpr (.inl hi)
  have hslot : ∀ {i : Nat} {a : Word}, A[i]? = some a → 2 ^ w ≤ a.toNat →
      outlierCount (A.take i) w < oc := fun ha hout => hoc ▸ outlierCount_take_lt h1 ha hout
  refine ⟨⟨hwords,
    field_of_holds (Nat.lt_succ_of_le h31) (hm _ (header_mem_ovFields (.inl rfl))),
    field_of_holds hunused (hm _ (header_mem_ovFields (.inr rfl))),
    gammaCodeAt_of_fields (Nat.succ_ne_zero oc) fun f hf => hm f (gamma_mem_ovFields hf),
    fun i a ha hlt => ⟨by simp [marker_bit h1 hm ha, hlt], payload_inline h1 hm ha hlt⟩,
    fun i a ha hout => ⟨by simp [marker_bit h1 hm ha, hout],
      payload_relocated h1 hm ha hout ((hslot ha hout).trans_le heligible), hslot ha hout,
      slot_word h1 hm ha hout (hwords _ ?slot)⟩,
    fun q hq hlt => hzero q (by omega) fun f hf hc => ?zero⟩, habove⟩
  case slot => have := hslot ha hout; omega
  case zero =>
    rcases mem_ovFields_covers h1 hoc ⟨f, hf, hc⟩ with hmain | ⟨j, hj, hslot, -⟩
    · omega
    · omega

end Layout

/-! ## OV_COMPRESS -/

section Compress

variable {s : State} {A : List Word} {w oc : Nat}

/-- What the selector's answer is (R134), and the size of the buffer it leads to (R137). -/
theorem selected_spec (hA : Admitted A) (hsel : overflowSelect A = (w, oc)) :
    IsOverflowWidth A w ∧ oc = outlierCount A w ∧
      ovMainWords w oc A.length + oc ≤ A.length + 1 := by
  have hspec := overflowSelect_spec hA
  have hwords := ovWords_le hA
  rw [hsel] at hspec hwords
  exact ⟨hspec.1, hspec.2, hwords⟩

/-- OV_COMPRESS of the empty Sequence (R185). -/
theorem exec_ovCompress_nil (hin : Input s []) :
    exec .ovCompress s = .next s.compressedEmpty.succeed := by
  simp only [exec, execOvCompress, inputSequence_eq hin, ok_bind, if_true, pure_ok, settle_ok]

/-- The state in which OV_COMPRESS of a non-empty Sequence completes (R185). -/
def State.ovCompressed (s : State) (A : List Word) (w oc : Nat) (m : Memory) : State :=
  { s.compressed m (ovMainWords w oc A.length + oc) w with
    scratch := s.scratch.store 0 (ovScratch w 0 A) }

/-- The buffer of a Sequence in SEQ_IN fits PBUF (R10, R137). -/
theorem ovWords_le_capPbuf (hcap : Config.Admissible s.capN s.capPbuf) (hin : Input s A)
    (hsel : overflowSelect A = (w, oc)) :
    ovMainWords w oc A.length + oc ≤ s.capPbuf.toNat := by
  obtain ⟨-, hA, hlen⟩ := hin
  obtain ⟨-, -, hroom⟩ := hcap
  obtain ⟨-, -, hwords⟩ := selected_spec hA hsel
  omega

/-- OV_COMPRESS of a non-empty Sequence packs its fields at the selected width, and the buffer then
holds the layout (R185). -/
theorem exec_ovCompress_holdsOv (hcap : Config.Admissible s.capN s.capPbuf) (hin : Input s A)
    (hne : A ≠ []) (hsel : overflowSelect A = (w, oc)) :
    ∃ m : Memory, exec .ovCompress s = .next (s.ovCompressed A w oc m).succeed ∧
      HoldsOv m A w oc ∧
      ∀ i, ovMainWords w oc A.length + oc ≤ i → m.read i = s.pbuf.read i := by
  have ⟨_, hA, _⟩ := hin
  obtain ⟨⟨h1, h31, heligible, -⟩, hoc, -⟩ := selected_spec hA hsel
  obtain ⟨hwidth, hcovers, -⟩ := ovFields_ok (A := A) h1 h31 hoc
  obtain ⟨m, hm⟩ := packBuffer_exists (ovWords_le_capPbuf hcap hin hsel) hwidth hcovers
  refine ⟨m, ?_, holdsOv_of_packBuffer h1 h31 hoc (hoc ▸ heligible) hm⟩
  simp only [exec, execOvCompress, inputSequence_eq hin, ok_bind, if_neg hne, hsel, hm, pure_ok,
    settle_ok, State.ovCompressed]

end Compress

/-! ## The header of the two decoders -/

/-- At most one Gamma code stands at a stream position (R120). -/
theorem GammaCodeAt.unique {m : Memory} {p k k' n n' : Nat} (h : GammaCodeAt m p k n)
    (h' : GammaCodeAt m p k' n') : k = k' ∧ n = n' := by
  have hfirst := h.first
  have hfirst' := h'.first
  obtain ⟨-, hlt, hzeros, hdigits⟩ := h
  obtain ⟨-, hlt', hzeros', hdigits'⟩ := h'
  obtain rfl : k = k' := by
    rcases Nat.lt_trichotomy k k' with hk | hk | hk
    · rw [hzeros' k hk] at hfirst; cases hfirst
    · exact hk
    · rw [hzeros k' hk] at hfirst'; cases hfirst'
  refine ⟨rfl, eq_of_digits hlt hlt' fun i hi => ?_⟩
  rw [show k + 1 - 1 - i = k - i by omega, ← hdigits i (by omega), ← hdigits' i (by omega)]

/-- The commands that read an overflow buffer (R188, R189). -/
def IsOvDecoder (i : Instr) : Prop := i = .ovDecompress ∨ i = .ovGet

section Header

variable {i : Instr} {s : State} {w oc E n : Nat}

/-- Both decoders stop where their header does. -/
theorem exec_of_ovHeader_error (hi : IsOvDecoder i) (hcap : s.pbufLen.toNat ≤ s.capPbuf.toNat)
    {e : Stop} (h : ovHeader s = .error e) : exec i s = settle s (.error e) := by
  rcases hi with rfl | rfl
  · simp only [exec, execOvDecompress, checkPbuf_ok hcap, ok_bind, h, error_bind]
  · simp only [exec, execOvGet, checkPbuf_ok hcap, ok_bind, h, error_bind]

/-- The Header is read before it is judged: word 0 without a value stops it (R37, R186). -/
theorem ovHeader_noValue (hl : s.pbufLen ≠ 0) (hno : ¬ s.pbuf.has 0) :
    ovHeader s = .error (.refuse (.noValue .pbuf 0)) := by
  have hlen : uint s.pbufLen ≠ 0 := BitVec.toNat_ne.mp hl
  rw [ovHeader, if_neg hlen]
  cases hr : readField s.pbuf 0 5 with
  | ok v => exact absurd (readField_ok_has hr (by omega) le_rfl (by omega)) hno
  | error e => rw [(readField_word0_error (by omega) (by omega) hr).1, error_bind]

/-- Word 0 without a value stops both decoders (R37, R186). -/
theorem exec_ovDecoder_noHeader (hi : IsOvDecoder i) (hcap : s.pbufLen.toNat ≤ s.capPbuf.toNat)
    (hl : s.pbufLen ≠ 0) (hno : ¬ s.pbuf.has 0) : exec i s = .refused (.noValue .pbuf 0) := by
  rw [exec_of_ovHeader_error hi hcap (ovHeader_noValue hl hno)]
  rfl

/-- Past the width, the header stops where its Gamma code does: a word the decode reads, without a
value, stops it (R37, R122, R186). -/
theorem ovHeader_noCode (hl : s.pbufLen ≠ 0) (hw : s.pbuf.field 0 5 ≠ 0) {q : Nat}
    (hq : GammaReads s.pbuf 10 (32 * s.pbufLen.toNat) q) (hno : ¬ s.pbuf.has (q / 32)) :
    ∃ k, ovHeader s = .error (.refuse (.noValue .pbuf k)) := by
  have hlen : uint s.pbufLen ≠ 0 := BitVec.toNat_ne.mp hl
  have h0 : s.pbuf.has 0 := has_zero_of_field_ne_zero (by omega) hw
  cases hr : gammaRead s.pbuf 10 (32 * s.pbufLen.toNat) with
  | ok r => exact absurd (gammaRead_ok_has hr hq) hno
  | error e =>
    obtain ⟨q', -, rfl, -⟩ := gammaRead_error hr
    refine ⟨q' / 32, ?_⟩
    rw [ovHeader, if_neg hlen, readField_word0 h0 (by omega) (by omega), ok_bind,
      readField_word0 h0 (by omega) (by omega), ok_bind, check_neg hw, ok_bind, hr, error_bind]

/-- A word of the OverflowHeader without a value stops both decoders (R37, R186). -/
theorem exec_ovDecoder_noCode (hi : IsOvDecoder i) (hcap : s.pbufLen.toNat ≤ s.capPbuf.toNat)
    (hl : s.pbufLen ≠ 0) {q : Nat} (hw : s.pbuf.field 0 5 ≠ 0)
    (hq : GammaReads s.pbuf 10 (32 * s.pbufLen.toNat) q) (hno : ¬ s.pbuf.has (q / 32)) :
    ∃ k, exec i s = .refused (.noValue .pbuf k) := by
  obtain ⟨k, hk⟩ := ovHeader_noCode hl hw hq hno
  refine ⟨k, ?_⟩
  rw [exec_of_ovHeader_error hi hcap hk]
  rfl

/-- A header that is answered is a good one (R186). -/
theorem ovGoodHeader_of_ovHeader_ok {hd : OverflowHeader} (hl : s.pbufLen ≠ 0)
    (h : ovHeader s = .ok hd) : OvGoodHeader s hd.width hd.oc hd.start hd.len := by
  rcases ovHeader_ok h with ⟨h0, -⟩ | ⟨-, hw, h1, -, hoc, hn, k, hk, hE, hfits, hcode⟩
  · exact absurd h0 (BitVec.toNat_ne.mp hl)
  · exact ⟨hl, hw, by omega, ⟨k, hk, hE, hcode⟩, hfits, hoc, hn⟩

/-- A header that is not good is MALFORMED_BUFFER in both decoders, where the buffer's words hold
values (R186). -/
theorem exec_ovDecoder_malformed (hi : IsOvDecoder i) (hready : BufferReady s) (hl : s.pbufLen ≠ 0)
    (h : ∀ w oc E n, ¬ OvGoodHeader s w oc E n) : exec i s = .next { s with code := 3 } := by
  obtain ⟨hcap, hh⟩ := hready
  rw [exec_of_ovHeader_error hi hcap
    (ovHeader_malformed hh fun hd hok => h _ _ _ _ (ovGoodHeader_of_ovHeader_ok hl hok))]
  exact settle_recoverable s rfl

/-- The width of a good header is one that its five bits hold. -/
theorem OvGoodHeader.width_bounds (h : OvGoodHeader s w oc E n) : 1 ≤ w ∧ w ≤ 31 := by
  obtain ⟨-, rfl, hw, -⟩ := h
  exact ⟨Nat.one_le_iff_ne_zero.mpr hw, Nat.le_of_lt_succ (Memory.field_lt s.pbuf 0 5)⟩

/-- The elements fill the main area (R183, R186). -/
theorem OvGoodHeader.mainBits (h : OvGoodHeader s w oc E n) :
    s.pbuf.field 5 5 + E + n * (w + 1) = 32 * (s.pbufLen.toNat - oc) := by
  obtain ⟨-, -, -, -, -, -, hn⟩ := h
  exact hn

theorem OvGoodHeader.count_lt (h : OvGoodHeader s w oc E n) : oc < s.pbufLen.toNat := by
  obtain ⟨-, -, -, -, -, hoc, -⟩ := h
  exact hoc

/-- What a good header tells, where the words it stands in hold values (R186). -/
theorem OvGoodHeader.ovHeader_eq (h : OvGoodHeader s w oc E n)
    (hh : ∀ q, q < E → s.pbuf.has (q / 32)) : ovHeader s = .ok ⟨w, oc, E, n⟩ := by
  obtain ⟨hl, rfl, hw, ⟨k, hk, rfl, hcode⟩, hfits, hoc, hn⟩ := h
  exact Machine.ovHeader_eq (BitVec.toNat_ne.mp hl) hh hw hk hfits hcode hoc hn

theorem OvGoodHeader.ovHeader_eq_of_ready (h : OvGoodHeader s w oc E n)
    (hh : ∀ j, j < s.pbufLen.toNat → s.pbuf.has j) : ovHeader s = .ok ⟨w, oc, E, n⟩ := by
  have ⟨_, _, _, _, hfits, _, _⟩ := h
  exact h.ovHeader_eq fun q hq => hh _ (by omega)

/-- A good header is answered, or a word of it that holds no value stops it: bits that hold no value
read as 0, and a code may end in zeros (R37). -/
theorem OvGoodHeader.ovHeader_cases (h : OvGoodHeader s w oc E n) :
    ovHeader s = .ok ⟨w, oc, E, n⟩ ∨ ∃ k, ovHeader s = .error (.refuse (.noValue .pbuf k)) := by
  by_cases hh : ∀ q, q < E → s.pbuf.has (q / 32)
  · exact .inl (h.ovHeader_eq hh)
  · have ⟨hl, hwidth, hw, ⟨k, hk, hE, hcode⟩, hfits, _, _⟩ := h
    push Not at hh
    obtain ⟨q, hq, hno⟩ := hh
    have hwidth0 : s.pbuf.field 0 5 ≠ 0 := hwidth ▸ hw
    have h10 : 10 ≤ q := by
      by_contra hlt
      rw [show q / 32 = 0 by omega] at hno
      exact hno (has_zero_of_field_ne_zero (by omega) hwidth0)
    exact .inr (ovHeader_noCode hl hwidth0 (hcode.reads hk (hE ▸ hfits) h10 (hE ▸ hq)) hno)

end Header

/-! ## The elements -/

/-- What element `i` of an overflow buffer is: the word of its slot where its marker is set, else
its payload (R187). -/
def ovValue (s : State) (w E i : Nat) : Option Word :=
  if s.pbuf.bit (E + i * (w + 1)) = true then
    s.pbuf.read (s.pbufLen.toNat - 1 - s.pbuf.field (E + i * (w + 1) + 1) w)
  else some (BitVec.ofNat 32 (s.pbuf.field (E + i * (w + 1) + 1) w))

/-- Element `i`, where it is relocated, names one of the `oc` slots (R187). -/
def OvSlotGood (s : State) (w oc E i : Nat) : Prop :=
  s.pbuf.bit (E + i * (w + 1)) = true → s.pbuf.field (E + i * (w + 1) + 1) w < oc

section Elements

variable {s : State} {w oc E n i k : Nat}

/-- Every element has a value to be read, where the buffer's words hold values. -/
theorem OvGoodHeader.ovValue_isSome (h : OvGoodHeader s w oc E n)
    (hh : ∀ j, j < s.pbufLen.toNat → s.pbuf.has j) :
    (ovValue s w E i).isSome = true := by
  have hpos : 0 < s.pbufLen.toNat := Nat.zero_lt_of_lt h.count_lt
  rw [ovValue]
  split
  · exact hh _ (by omega)
  · rfl

/-- An element with a good slot is answered with its value (R187). -/
theorem OvGoodHeader.ovElement_eq (h : OvGoodHeader s w oc E n)
    (hh : ∀ j, j < s.pbufLen.toNat → s.pbuf.has j) (hi : i < n) (hslot : OvSlotGood s w oc E i)
    {v : Word} (hv : ovValue s w E i = some v) : ovElement s ⟨w, oc, E, n⟩ i = .ok v := by
  rw [Machine.ovElement_eq (hd := ⟨w, oc, E, n⟩) h.width_bounds.1 h.width_bounds.2 hi h.mainBits hh]
  rw [ovValue] at hv
  by_cases hbit : s.pbuf.bit (E + i * (w + 1)) = true
  · rw [if_pos hbit] at hv
    rw [if_pos hbit, if_neg (Nat.not_le.mpr (hslot hbit)), readWord_ok_iff.mpr hv]
  · rw [if_neg hbit] at hv
    rw [if_neg hbit, Option.some.inj hv]

/-- An element with a slot that is not there is MALFORMED_BUFFER (R187). -/
theorem OvGoodHeader.ovElement_malformed (h : OvGoodHeader s w oc E n)
    (hh : ∀ j, j < s.pbufLen.toNat → s.pbuf.has j) (hi : i < n)
    (hbit : s.pbuf.bit (E + i * (w + 1)) = true)
    (hslot : oc ≤ s.pbuf.field (E + i * (w + 1) + 1) w) :
    ovElement s ⟨w, oc, E, n⟩ i = .error (.raise .malformedBuffer) := by
  rw [Machine.ovElement_eq (hd := ⟨w, oc, E, n⟩) h.width_bounds.1 h.width_bounds.2 hi h.mainBits hh,
    if_pos hbit, if_pos hslot]

/-- An element stops as MALFORMED_BUFFER, for its slot is not there, or at a word that holds no
value (R37, R187). -/
theorem OvGoodHeader.ovElement_error (h : OvGoodHeader s w oc E n) (hi : i < n) {e : Stop}
    (he : ovElement s ⟨w, oc, E, n⟩ i = .error e) :
    (e = .raise .malformedBuffer ∧ ¬ OvSlotGood s w oc E i) ∨
      ∃ k, k < s.pbufLen.toNat ∧ e = .refuse (.noValue .pbuf k) ∧ ¬ s.pbuf.has k := by
  rcases Machine.ovElement_error h.width_bounds.1 h.width_bounds.2 hi h.mainBits he with
    ⟨hraise, hbit, hslot⟩ | ⟨k, hk, -, hrefuse, hno⟩
  · exact .inl ⟨hraise, fun hgood => absurd (hgood hbit) (Nat.not_lt.mpr hslot)⟩
  · exact .inr ⟨k, hk, hrefuse, hno⟩

/-- An element is judged only once its marker and payload have been read (R187). -/
theorem ovElement_raise_has {hd : OverflowHeader} {e : ErrorCode} (h1 : 1 ≤ hd.width)
    (h31 : hd.width ≤ 31) (h : ovElement s hd i = .error (.raise e))
    (hk : FieldWord (hd.start + i * (hd.width + 1)) (hd.width + 1) k) : s.pbuf.has k := by
  have hread : ∀ p m, 1 ≤ m → readField s.pbuf p m ≠ .error (.raise e) := fun p m hm hr => by
    obtain ⟨_, -, hrefuse, -⟩ := readField_error_word hm hr
    cases hrefuse
  simp only [ovElement, bind_error_iff] at h
  rcases h with h | ⟨b, hb, h | ⟨x, hx, -⟩⟩
  · exact absurd h (hread _ _ le_rfl)
  · exact absurd h (hread _ _ h1)
  · obtain ⟨q, hle, hlt, rfl⟩ := hk
    by_cases hq : q = hd.start + i * (hd.width + 1)
    · rw [hq]
      exact (bitField_ok hb).1
    · exact readField_ok_has hx (by omega) (by omega) (by omega)

/-- An element of which some word holds no value stops, as its reads come before its check. The word
it stops at need not be that one (R37, R187). -/
theorem OvGoodHeader.ovElement_noValue (h : OvGoodHeader s w oc E n) (hi : i < n)
    (hk : OvElementWord s w oc E i k) (hno : ¬ s.pbuf.has k) :
    ∃ k', ovElement s ⟨w, oc, E, n⟩ i = .error (.refuse (.noValue .pbuf k')) := by
  obtain ⟨h1, h31⟩ := h.width_bounds
  cases he : ovElement s ⟨w, oc, E, n⟩ i with
  | ok v => exact absurd (ovElement_ok_has h31 he hk) hno
  | error e =>
    rcases h.ovElement_error hi he with ⟨rfl, hslot⟩ | ⟨k', -, rfl, -⟩
    · rcases hk with hfield | ⟨-, hlt, -⟩
      · exact absurd (ovElement_raise_has h1 h31 he hfield) hno
      · exact absurd (fun _ => hlt) hslot
    · exact ⟨k', rfl⟩

end Elements

/-! ## OV_DECOMPRESS -/

/-- A run of reads stops at the first that stops: those before it are answered. -/
theorem collect_error_first {α : Type} {f : Nat → Except Stop α} {i n : Nat} {e : Stop}
    (h : collect f i n = .error e) :
    ∃ j, j < n ∧ f (i + j) = .error e ∧ ∀ l, l < j → ∃ v, f (i + l) = .ok v := by
  induction n generalizing i with
  | zero => cases h
  | succ n ih =>
    rcases bind_error_iff.mp h with h | ⟨v, hv, h⟩
    · exact ⟨0, Nat.succ_pos n, h, fun l hl => absurd hl (Nat.not_lt_zero l)⟩
    · rcases bind_error_iff.mp h with h | ⟨vs, -, h⟩
      · obtain ⟨j, hj, hf, hbefore⟩ := ih h
        refine ⟨j + 1, Nat.succ_lt_succ hj, by rwa [show i + (j + 1) = i + 1 + j by omega],
          fun l hl => ?_⟩
        cases l with
        | zero => exact ⟨v, hv⟩
        | succ l =>
          obtain ⟨u, hu⟩ := hbefore l (Nat.lt_of_succ_lt_succ hl)
          exact ⟨u, by rwa [show i + (l + 1) = i + 1 + l by omega]⟩
      · cases h

section Decompress

variable {s : State} {w oc E n : Nat}

/-- OV_DECOMPRESS, its header read (R188). -/
theorem exec_ovDecompress_of_header (hcap : s.pbufLen.toNat ≤ s.capPbuf.toNat)
    (h : ovHeader s = .ok ⟨w, oc, E, n⟩) :
    exec .ovDecompress s = settle s (check (s.capN.toNat < n) .capacityExceeded >>= fun _ =>
      collect (ovElement s ⟨w, oc, E, n⟩) 0 n >>= fun vs => pure (s.decompressed vs)) := by
  simp only [exec, execOvDecompress, checkPbuf_ok hcap, ok_bind, h, gt_iff_lt]

/-- OV_DECOMPRESS of more elements than SEQ_OUT holds (R67, R188). -/
theorem exec_ovDecompress_capacityExceeded (hcap : s.pbufLen.toNat ≤ s.capPbuf.toNat)
    (h : ovHeader s = .ok ⟨w, oc, E, n⟩) (hn : s.capN.toNat < n) :
    exec .ovDecompress s = .next { s with code := 6 } := by
  rw [exec_ovDecompress_of_header hcap h, check_pos hn, error_bind]
  exact settle_recoverable s rfl

/-- OV_DECOMPRESS of elements that are all answered (R67, R188). -/
theorem exec_ovDecompress_elements (hcap : s.pbufLen.toNat ≤ s.capPbuf.toNat)
    (h : ovHeader s = .ok ⟨w, oc, E, n⟩) (hn : n ≤ s.capN.toNat) {v : Nat → Word}
    (hv : ∀ j, j < n → ovElement s ⟨w, oc, E, n⟩ j = .ok (v j)) :
    exec .ovDecompress s = .next (s.decompressed ((List.range n).map v)).succeed := by
  rw [exec_ovDecompress_of_header hcap h, check_neg (Nat.not_lt.mpr hn), ok_bind,
    collect_eq_map_range hv, ok_bind, pure_ok, settle_ok]

/-- OV_DECOMPRESS of a buffer in which some element names a slot that is not there (R187, R188). -/
theorem exec_ovDecompress_malformed (hready : BufferReady s) (h : OvGoodHeader s w oc E n)
    (hn : n ≤ s.capN.toNat) {i : Nat} (hi : i < n) (hbit : s.pbuf.bit (E + i * (w + 1)) = true)
    (hslot : oc ≤ s.pbuf.field (E + i * (w + 1) + 1) w) :
    exec .ovDecompress s = .next { s with code := 3 } := by
  obtain ⟨hcap, hh⟩ := hready
  rw [exec_ovDecompress_of_header hcap (h.ovHeader_eq_of_ready hh), check_neg (Nat.not_lt.mpr hn),
    ok_bind]
  cases hc : collect (ovElement s ⟨w, oc, E, n⟩) 0 n with
  | ok vs =>
    obtain ⟨rfl, hvs⟩ := collect_ok_iff.mp hc
    have hok := hvs i hi
    rw [Nat.zero_add, h.ovElement_malformed hh hi hbit hslot] at hok
    cases hok
  | error e =>
    obtain ⟨j, hj, he⟩ := collect_error hc
    rw [Nat.zero_add] at he
    rcases h.ovElement_error hj he with ⟨rfl, -⟩ | ⟨k, hk, -, hno⟩
    · exact settle_recoverable s rfl
    · exact absurd (hh k hk) hno

/-- OV_DECOMPRESS where a word of an element before which none is malformed holds no value (R37). -/
theorem exec_ovDecompress_noValue (hcap : s.pbufLen.toNat ≤ s.capPbuf.toNat)
    (h : OvGoodHeader s w oc E n) (hn : n ≤ s.capN.toNat) {j k : Nat} (hj : j < n)
    (hbefore : ∀ i, i < j → OvSlotGood s w oc E i) (hk : OvElementWord s w oc E j k)
    (hno : ¬ s.pbuf.has k) :
    ∃ k, exec .ovDecompress s = .refused (.noValue .pbuf k) := by
  rcases h.ovHeader_cases with hok | ⟨k', hstop⟩
  · obtain ⟨kj, hstop⟩ := h.ovElement_noValue hj hk hno
    rw [exec_ovDecompress_of_header hcap hok, check_neg (Nat.not_lt.mpr hn), ok_bind]
    cases hc : collect (ovElement s ⟨w, oc, E, n⟩) 0 n with
    | ok vs =>
      obtain ⟨rfl, hvs⟩ := collect_ok_iff.mp hc
      have hval := hvs j hj
      rw [Nat.zero_add, hstop] at hval
      cases hval
    | error e =>
      obtain ⟨f, hf, he, hanswered⟩ := collect_error_first hc
      rw [Nat.zero_add] at he
      rcases Nat.lt_trichotomy f j with hlt | rfl | hgt
      · rcases h.ovElement_error hf he with ⟨-, hslot⟩ | ⟨k', -, rfl, -⟩
        · exact absurd (hbefore f hlt) hslot
        · exact ⟨k', rfl⟩
      · obtain rfl := Except.error.inj (hstop.symm.trans he)
        exact ⟨kj, rfl⟩
      · obtain ⟨v, hv⟩ := hanswered j hgt
        rw [Nat.zero_add, hstop] at hv
        cases hv
  · refine ⟨k', ?_⟩
    rw [exec_of_ovHeader_error (.inl rfl) hcap hstop]
    rfl

/-- OV_DECOMPRESS of a buffer without a malformed element writes the elements to SEQ_OUT (R188). -/
theorem exec_ovDecompress_values (hready : BufferReady s) (h : OvGoodHeader s w oc E n)
    (hn : n ≤ s.capN.toNat) (hslots : ∀ i, i < n → OvSlotGood s w oc E i) {v : Nat → Word}
    (hv : ∀ i, i < n → ovValue s w E i = some (v i)) :
    exec .ovDecompress s = .next (s.decompressed ((List.range n).map v)).succeed := by
  obtain ⟨hcap, hh⟩ := hready
  exact exec_ovDecompress_elements hcap (h.ovHeader_eq_of_ready hh) hn fun j hj =>
    h.ovElement_eq hh hj (hslots j hj) (hv j hj)

end Decompress

/-! ## OV_GET -/

section Get

variable {s : State} {w oc E n i : Nat}

/-- OV_GET, its header read (R189). -/
theorem exec_ovGet_of_header (hcap : s.pbufLen.toNat ≤ s.capPbuf.toNat)
    (h : ovHeader s = .ok ⟨w, oc, E, n⟩) :
    exec .ovGet s = settle s (check (s.a0.toInt < 0 ∨ s.a0.toInt ≥ n) .indexOutOfRange >>= fun _ =>
      ovElement s ⟨w, oc, E, n⟩ s.a0.toInt.toNat >>= fun v => pure (s.setRes0 v)) := by
  simp only [exec, execOvGet, checkPbuf_ok hcap, ok_bind, h]

/-- OV_GET of an index that names no element (R189). -/
theorem exec_ovGet_indexOutOfRange (hcap : s.pbufLen.toNat ≤ s.capPbuf.toNat)
    (h : ovHeader s = .ok ⟨w, oc, E, n⟩) (hi : s.a0.toInt < 0 ∨ (n : Int) ≤ s.a0.toInt) :
    exec .ovGet s = .next { s with code := 2 } := by
  rw [exec_ovGet_of_header hcap h, check_pos hi, error_bind]
  exact settle_recoverable s rfl

/-- OV_GET of an index that names an element ends as the element is answered (R189). -/
theorem exec_ovGet_of_index (hcap : s.pbufLen.toNat ≤ s.capPbuf.toNat)
    (h : ovHeader s = .ok ⟨w, oc, E, n⟩) (hi : s.a0.toInt = i) (hn : i < n) :
    exec .ovGet s = settle s (ovElement s ⟨w, oc, E, n⟩ i >>= fun v => pure (s.setRes0 v)) := by
  rw [exec_ovGet_of_header hcap h, check_neg (by omega), ok_bind, hi, Int.toNat_natCast]

/-- OV_GET of an element with a good slot; the other elements do not matter (R189). -/
theorem exec_ovGet_value (hready : BufferReady s) (h : OvGoodHeader s w oc E n)
    (hi : s.a0.toInt = i) (hn : i < n) (hslot : OvSlotGood s w oc E i) {v : Word}
    (hv : ovValue s w E i = some v) : exec .ovGet s = .next (s.setRes0 v).succeed := by
  obtain ⟨hcap, hh⟩ := hready
  rw [exec_ovGet_of_index hcap (h.ovHeader_eq_of_ready hh) hi hn, h.ovElement_eq hh hn hslot hv,
    ok_bind, pure_ok, settle_ok]

/-- OV_GET of an element that names a slot that is not there (R187, R189). -/
theorem exec_ovGet_malformed (hready : BufferReady s) (h : OvGoodHeader s w oc E n)
    (hi : s.a0.toInt = i) (hn : i < n) (hbit : s.pbuf.bit (E + i * (w + 1)) = true)
    (hslot : oc ≤ s.pbuf.field (E + i * (w + 1) + 1) w) :
    exec .ovGet s = .next { s with code := 3 } := by
  obtain ⟨hcap, hh⟩ := hready
  rw [exec_ovGet_of_index hcap (h.ovHeader_eq_of_ready hh) hi hn,
    h.ovElement_malformed hh hn hbit hslot, error_bind]
  exact settle_recoverable s rfl

/-- OV_GET of an element of which some word holds no value (R37). -/
theorem exec_ovGet_noValue (hcap : s.pbufLen.toNat ≤ s.capPbuf.toNat) (h : OvGoodHeader s w oc E n)
    (hn : i < n) (hi : s.a0.toInt = i) {k : Nat} (hk : OvElementWord s w oc E i k)
    (hno : ¬ s.pbuf.has k) : ∃ k, exec .ovGet s = .refused (.noValue .pbuf k) := by
  rcases h.ovHeader_cases with hok | ⟨k', hstop⟩
  · obtain ⟨k', hstop⟩ := h.ovElement_noValue hn hk hno
    refine ⟨k', ?_⟩
    rw [exec_ovGet_of_index hcap hok hi hn, hstop]
    rfl
  · refine ⟨k', ?_⟩
    rw [exec_of_ovHeader_error (.inr rfl) hcap hstop]
    rfl

end Get

/-! ## The buffer of OV_COMPRESS, read back -/

/-- PBUF holds the overflow buffer of `A` at width `w`, as OV_COMPRESS leaves it (R185). -/
structure OvBuffer (s : State) (A : List Word) (w oc : Nat) : Prop where
  selected : IsOverflowWidth A w
  count : oc = outlierCount A w
  length : s.pbufLen.toNat = ovMainWords w oc A.length + oc
  capacity : s.pbufLen.toNat ≤ s.capPbuf.toNat
  layout : HoldsOv s.pbuf A w oc

section RoundTrip

variable {s : State} {A : List Word} {w oc i : Nat} {a : Word}

/-- What stands in A0 is no part of the buffer. -/
theorem OvBuffer.withA0 (h : OvBuffer s A w oc) (v : Word) : OvBuffer { s with a0 := v } A w oc :=
  ⟨h.selected, h.count, h.length, h.capacity, h.layout⟩

theorem OvBuffer.ready (h : OvBuffer s A w oc) : BufferReady s :=
  ⟨h.capacity, fun i hi => h.layout.words i (h.length ▸ hi)⟩

/-- The header is good, with the selected width, its overflow count and the Sequence's length (R183,
R186). -/
theorem OvBuffer.goodHeader (h : OvBuffer s A w oc) :
    OvGoodHeader s w oc (ovStreamStart oc) A.length := by
  obtain ⟨⟨h1, h31, heligible, -⟩, hoc, hlen, -, hov⟩ := h
  obtain ⟨hmain, -, hpos, -⟩ := ov_words (A := A) hoc
  have hpow : 2 ^ w ≤ 2 ^ 31 := Nat.pow_le_pow_right two_pos h31
  have hlog : Nat.log2 (oc + 1) < 32 := (Nat.log2_lt (Nat.succ_ne_zero oc)).mpr (by omega)
  refine ⟨BitVec.toNat_ne.mpr ?_, hov.width.symm, Nat.one_le_iff_ne_zero.mp h1,
    ⟨_, Nat.le_of_lt_succ hlog, rfl, hov.code⟩, by omega, by omega, ?_⟩
  · rw [hlen]
    exact Nat.ne_of_gt (Nat.lt_of_lt_of_le hpos (Nat.le_add_right _ _))
  · rw [hov.unused, hlen, Nat.add_sub_cancel, hmain]

/-- Every relocated element names its slot, and the elements are the Sequence's (R181, R182). -/
theorem OvBuffer.element (h : OvBuffer s A w oc) (ha : A[i]? = some a) :
    OvSlotGood s w oc (ovStreamStart oc) i ∧ ovValue s w (ovStreamStart oc) i = some a := by
  obtain ⟨-, -, hlen, -, hov⟩ := h
  rcases Nat.lt_or_ge a.toNat (2 ^ w) with hlt | hout
  · obtain ⟨hbit, hfield⟩ := hov.inline i a ha hlt
    simp [OvSlotGood, ovValue, hbit, hfield]
  · obtain ⟨hbit, hfield, hslot, hread⟩ := hov.relocated i a ha hout
    simp [OvSlotGood, ovValue, hbit, hfield, hslot, hlen, hread]

/-- OV_DECOMPRESS gives the Sequence back (R190(a)). -/
theorem OvBuffer.exec_ovDecompress (h : OvBuffer s A w oc) (hL : A.length ≤ s.capN.toNat) :
    exec .ovDecompress s = .next (s.decompressed A).succeed := by
  have hget : ∀ i, i < A.length → A[i]? = some (A.getD i 0) := fun i hi => by
    rw [List.getD_eq_getElem?_getD, List.getElem?_eq_getElem hi, Option.getD_some]
  have hrange : (List.range A.length).map (fun i => A.getD i 0) = A :=
    List.ext_getElem (by simp) fun i _ hi => by simp [hi]
  rw [exec_ovDecompress_values h.ready h.goodHeader hL (fun i hi => (h.element (hget i hi)).1)
    fun i hi => (h.element (hget i hi)).2, hrange]

/-- OV_GET gives the element its index names (R190(b)). -/
theorem OvBuffer.exec_ovGet (h : OvBuffer s A w oc) (hi : s.a0.toInt = i) (ha : A[i]? = some a) :
    exec .ovGet s = .next (s.setRes0 a).succeed := by
  obtain ⟨hlt, -⟩ := List.getElem?_eq_some_iff.mp ha
  obtain ⟨hslot, hv⟩ := h.element ha
  exact exec_ovGet_value h.ready h.goodHeader hi hlt hslot hv

/-- OV_COMPRESS of a non-empty Sequence leaves its buffer in PBUF and its width in RES1, and SEQ_IN
alone (R185, R190(e)). -/
theorem exec_ovCompress_ovBuffer (hcap : Config.Admissible s.capN s.capPbuf) (hin : Input s A)
    (hne : A ≠ []) (hsel : overflowSelect A = (w, oc)) :
    ∃ t, exec .ovCompress s = .next t ∧ t.code = 0 ∧ t.capN = s.capN ∧ t.seqIn = s.seqIn ∧
      t.res1.toNat = w ∧ OvBuffer t A w oc := by
  obtain ⟨m, hm, hov, -⟩ := exec_ovCompress_holdsOv hcap hin hne hsel
  have ⟨_, hA, _⟩ := hin
  obtain ⟨hwidth, hoc, -⟩ := selected_spec hA hsel
  have ⟨_, h31, _⟩ := hwidth
  have hfits := ovWords_le_capPbuf hcap hin hsel
  have hlen : (BitVec.ofNat 32 (ovMainWords w oc A.length + oc)).toNat =
      ovMainWords w oc A.length + oc := toNat_ofNat_of_lt (hfits.trans_lt s.capPbuf.isLt)
  exact ⟨_, hm, rfl, rfl, rfl, toNat_ofNat_of_lt (by omega), hwidth, hoc, hlen, hlen.trans_le hfits,
    hov⟩

end RoundTrip

/-! ## The obligations -/

/-- Settles O53: the layout is packed at the selected width into a buffer that fits PBUF. -/
theorem ovCompressLaysOutTheBuffer : Obligations.OvCompressLaysOutTheBuffer := by
  refine ⟨rfl, fun s A hcap hin hne => ?_⟩
  have ⟨_, hA, _⟩ := hin
  rcases hsel : overflowSelect A with ⟨w, oc⟩
  obtain ⟨hwidth, hoc, hwords⟩ := selected_spec hA hsel
  obtain ⟨hmain, -, -, hsize, -⟩ := ov_words (A := A) hoc
  obtain ⟨m, hm, hov, habove⟩ := exec_ovCompress_holdsOv hcap hin hne hsel
  obtain ⟨hlo, hhi⟩ := log2_bounds (Nat.succ_ne_zero oc)
  exact ⟨m, _, w, oc, Nat.log2 (oc + 1), ovStreamStart oc, ovMainWords w oc A.length,
    ovMainWords w oc A.length + oc, hwidth, hoc, hlo, hhi, rfl, rfl, rfl, hsize, hwords, hm,
    hov.width, by rw [hov.unused, hmain], hov.code,
    fun i a ha => ⟨hov.inline i a ha, hov.relocated i a ha⟩, hov.zero, hov.words, habove⟩

/-- Settles O54: none of these buffers has a good header, since the code at position 10 is the only
one there. -/
theorem ovMalformedHeaders : Obligations.OvMalformedHeaders := by
  intro i hi s hready hl h
  have hdecoder : IsOvDecoder i := by simpa [IsOvDecoder] using hi
  refine exec_ovDecoder_malformed hdecoder hready hl ?_
  rintro _ oc _ n ⟨-, rfl, hw, ⟨k, hk, rfl, hcode⟩, hfits, hoc, hn⟩
  rcases h with hwidth | hnone | ⟨k', oc', -, -, hcode', hbad⟩
  · exact hw hwidth
  · exact hnone k (oc + 1) hk hfits hcode
  · obtain ⟨rfl, hcount⟩ := hcode.unique hcode'
    obtain rfl : oc = oc' := Nat.succ.inj hcount
    rcases hbad with hmany | hlen
    · exact Nat.not_le.mpr hoc hmany
    · exact hlen n hn

/-- Settles O55: the header is judged first, then the length, and then every element is answered or
the first that is not stops the command. -/
theorem ovDecompressReadsEveryElement : Obligations.OvDecompressReadsEveryElement := by
  refine ⟨rfl, fun s hl hcap => ⟨exec_ovDecoder_noHeader (.inl rfl) hcap hl,
    fun q => exec_ovDecoder_noCode (.inl rfl) hcap hl,
    fun w oc E n j k hgood hn hj => exec_ovDecompress_noValue hcap hgood hn hj⟩, ?_⟩
  intro s w oc E n hready hgood
  have ⟨hcap, hh⟩ := hready
  refine ⟨exec_ovDecompress_capacityExceeded hcap (hgood.ovHeader_eq_of_ready hh),
    fun hn ⟨i, hi, hbit, hslot⟩ => exec_ovDecompress_malformed hready hgood hn hi hbit hslot,
    fun hn hslots => ?_⟩
  have hv : ∀ i, i < n → ovValue s w E i = some ((ovValue s w E i).getD 0) := fun i _ => by
    rw [Option.getD_of_ne_none (Option.isSome_iff_ne_none.mp (hgood.ovValue_isSome hh))]
  refine ⟨s.seqOut.store 0 ((List.range n).map fun i => (ovValue s w E i).getD 0), ?_,
    fun i hi => ?_, fun i hi => ?_⟩
  · rw [exec_ovDecompress_values hready hgood hn hslots hv, State.decompressed, List.length_map,
      List.length_range]
    rfl
  · rw [read_store_range, if_pos hi, ← hv i hi]
    rfl
  · rw [read_store_range, if_neg (Nat.not_lt.mpr hi)]

/-- Settles O56: the header is judged first, then the index, and then the element is answered or
stops the command. -/
theorem ovGetReadsOneElement : Obligations.OvGetReadsOneElement := by
  refine ⟨rfl, fun s hl hcap => ⟨exec_ovDecoder_noHeader (.inr rfl) hcap hl,
    fun q => exec_ovDecoder_noCode (.inr rfl) hcap hl,
    fun w oc E n j k hgood hj hi => exec_ovGet_noValue hcap hgood hj hi⟩, ?_⟩
  intro s w oc E n hready hgood
  have ⟨hcap, hh⟩ := hready
  refine ⟨exec_ovGet_indexOutOfRange hcap (hgood.ovHeader_eq_of_ready hh), fun i hi hn =>
    ⟨fun hbit => ?inline, exec_ovGet_malformed hready hgood hi hn,
      fun v hbit hslot hread => ?relocated⟩⟩
  case inline =>
    have hslot : OvSlotGood s w oc E i := fun hset => by rw [hbit] at hset; cases hset
    have hv : ovValue s w E i = some (BitVec.ofNat 32 (s.pbuf.field (E + i * (w + 1) + 1) w)) :=
      if_neg (by simp [hbit])
    exact exec_ovGet_value hready hgood hi hn hslot hv
  case relocated =>
    exact exec_ovGet_value hready hgood hi hn (fun _ => hslot) ((if_pos hbit).trans hread)

/-- Settles O57: OV_COMPRESS leaves the Sequence's buffer, or the empty one, and the decoders read
it. -/
theorem overflowRoundTrip : Obligations.OverflowRoundTrip := by
  intro s A hcap hin
  have ⟨_, hA, hL⟩ := hin
  have ⟨_, hN31, _⟩ := hcap
  rw [← ofNat_length_of_input hin]
  by_cases hne : A = []
  · subst hne
    have hdec := exec_ovDecompress_elements (s := s.compressedEmpty.succeed) (v := fun _ => 0)
      (Nat.zero_le _) (ovHeader_empty rfl) (Nat.zero_le _) (by simp)
    exact ⟨_, _, exec_ovCompress_nil hin, rfl, hdec, rfl, rfl, by simp, rfl, rfl, by simp, by simp⟩
  · rcases hsel : overflowSelect A with ⟨w, oc⟩
    obtain ⟨t, ht, hcode, hcapN, hseq, hres, hbuf⟩ := exec_ovCompress_ovBuffer hcap hin hne hsel
    refine ⟨t, _, ht, hcode, hbuf.exec_ovDecompress (hcapN ▸ hL), rfl, rfl,
      read_store_self t.seqOut, hseq, hseq, fun i a ha => ?_, fun _ => ?_⟩
    · obtain ⟨hlt, -⟩ := List.getElem?_eq_some_iff.mp ha
      have hget := (hbuf.withA0 (BitVec.ofNat 32 i)).exec_ovGet
        (toInt_ofNat_index hN31 (hlt.trans_le hL)) ha
      exact ⟨_, hget, rfl, rfl⟩
    · obtain ⟨hwidth, hoc, hlen, -, hov⟩ := hbuf
      have ⟨_, _, heligible, _⟩ := hwidth
      obtain ⟨-, -, -, hsize, -⟩ := ov_words (A := A) hoc
      rw [hres, hlen]
      exact ⟨hwidth, hsize, heligible, _, hoc ▸ hov.code⟩

end Sys2Proof.Machine
end

section
/-! PROOFS. The statements of 60_exceptions.md: which commands raise which error and what an error
changes, the order in which a write of CMD is judged, the latch that only reset clears, and the empty
Sequence. -/

namespace Sys2Proof.Machine

open Sys2Proof

/-! ## The table of causes -/

/-- The commands that raise an error, the table's column raised by (R212). A command raises no
ILLEGAL_COMMAND: that is the write of CMD's own. -/
def ErrorCode.raisers : ErrorCode → List Instr
  | .invalidRange => [.bfExtract, .bfInsert, .fieldRead, .fieldWrite, .gammaEnc, .gammaDec]
  | .indexOutOfRange => [.nsGet, .spGet, .ovGet]
  | .malformedBuffer => [.nsDecompress, .nsGet, .spDecompress, .spGet, .ovDecompress, .ovGet]
  | .invalidArgument => [.fieldRead, .fieldWrite, .gammaEnc, .gammaDec]
  | .unsupportedValue => [.wselUniform, .wselOverflow, .nsCompress, .spCompress, .ovCompress]
  | .capacityExceeded => [.fieldRead, .fieldWrite, .gammaEnc, .gammaDec, .wselUniform,
      .wselOverflow, .nsCompress, .nsDecompress, .nsGet, .spCompress, .spDecompress, .spGet,
      .ovCompress, .ovDecompress, .ovGet]
  | .illegalCommand => []

/-- A part of command `i` raises no error but those the table names the command for. -/
def RaisesAs {α : Type} (i : Instr) (c : Except Stop α) : Prop :=
  ∀ e, c = .error (.raise e) → i ∈ e.raisers

section RaisesAs

variable {α β : Type} {i : Instr}

theorem RaisesAs.pure (a : α) : RaisesAs i (.ok a) := fun e h => by cases h

theorem RaisesAs.bind {x : Except Stop α} {f : α → Except Stop β} (hx : RaisesAs i x)
    (hf : ∀ a, RaisesAs i (f a)) : RaisesAs i (x >>= f) := fun e h => by
  rcases bind_error_iff.mp h with h | ⟨a, -, h⟩
  · exact hx e h
  · exact hf a e h

theorem RaisesAs.ite {p : Prop} [Decidable p] {c d : Except Stop α} (hc : RaisesAs i c)
    (hd : RaisesAs i d) : RaisesAs i (if p then c else d) := by
  by_cases hp : p
  · rwa [if_pos hp]
  · rwa [if_neg hp]

/-- A part that stops with one error alone, where it raises one. -/
theorem RaisesAs.only {c : Except Stop α} {e : ErrorCode} (hi : i ∈ e.raisers)
    (h : ∀ e', c = .error (.raise e') → e' = e) : RaisesAs i c := fun e' he' => h e' he' ▸ hi

/-- A part that stops with nothing but refusals raises no error. -/
theorem RaisesAs.of_refuses {c : Except Stop α} (h : ∀ e, c = .error e → ∃ r, e = .refuse r) :
    RaisesAs i c := fun e he => by
  obtain ⟨r, hr⟩ := h _ he
  cases hr

theorem check_raisesAs (p : Prop) [Decidable p] {e : ErrorCode}
    (hi : i ∈ e.raisers := by decide) : RaisesAs i (check p e) :=
  .only hi fun _ h => by
    obtain ⟨-, he⟩ := check_error_iff.mp h
    exact Stop.raise.inj he

theorem readWord_raisesAs (sp : Space) (m : Memory) (k : Nat) : RaisesAs i (readWord sp m k) :=
  .of_refuses fun _ h => ⟨_, (readWord_error_iff.mp h).2⟩

theorem readField_raisesAs (m : Memory) (p n : Nat) : RaisesAs i (readField m p n) :=
  .of_refuses fun _ h => by
    obtain ⟨k, hk, -⟩ := readField_error h
    exact ⟨_, hk⟩

theorem writeField_raisesAs (m : Memory) (p n v : Nat) : RaisesAs i (writeField m p n v) :=
  .of_refuses fun _ h => by
    obtain ⟨k, hk, -⟩ := writeField_error h
    exact ⟨_, hk⟩

theorem writeFields_raisesAs (m : Memory) (fs : List Field) : RaisesAs i (writeFields m fs) := by
  induction fs generalizing m with
  | nil => exact .pure m
  | cons f fs ih => exact (writeField_raisesAs m f.pos f.width f.value).bind ih

/-- A buffer that does not fit PBUF is the model's fault, not an error of the block's. -/
theorem packBuffer_raisesAs (s : State) (words : Nat) (fs : List Field) :
    RaisesAs i (packBuffer s words fs) :=
  .ite (fun _ h => by cases h) (writeFields_raisesAs _ fs)

theorem collect_raisesAs {f : Nat → Except Stop α} (hf : ∀ k, RaisesAs i (f k)) (k n : Nat) :
    RaisesAs i (collect f k n) := fun e h => by
  obtain ⟨j, -, hj⟩ := collect_error h
  exact hf _ e hj

theorem gammaRead_raisesAs (m : Memory) (p limit : Nat) : RaisesAs i (gammaRead m p limit) :=
  .of_refuses fun _ h => by
    obtain ⟨q, -, hq, -⟩ := gammaRead_error h
    exact ⟨_, hq⟩

theorem orInvalidRange_raisesAs (v : Option Word)
    (hi : i ∈ ErrorCode.invalidRange.raisers := by decide) : RaisesAs i (orInvalidRange v) :=
  .only hi fun _ h => by
    cases v with
    | none => cases h; rfl
    | some v => cases h

theorem orInvalidArgument_raisesAs (r : GammaRead)
    (hi : i ∈ ErrorCode.invalidArgument.raisers := by decide) :
    RaisesAs i (orInvalidArgument r) :=
  .only hi fun _ h => by
    cases r with
    | value n q => cases h
    | unterminated | tooLong => cases h; rfl

/-- The input Sequence is judged by its length and its values (R68, R12). -/
theorem inputSequence_raisesAs (s : State)
    (hcap : i ∈ ErrorCode.capacityExceeded.raisers := by decide)
    (hval : i ∈ ErrorCode.unsupportedValue.raisers := by decide) :
    RaisesAs i (inputSequence s) :=
  (check_raisesAs _ hcap).bind fun _ => (collect_raisesAs (readWord_raisesAs _ _) _ _).bind
    fun _ => (check_raisesAs _ hval).bind fun _ => .pure _

theorem checkPbuf_raisesAs (s : State)
    (hi : i ∈ ErrorCode.capacityExceeded.raisers := by decide) : RaisesAs i (checkPbuf s) :=
  check_raisesAs _ hi

/-- The errors of a field's operands, in the order of their checks (R106, R107). -/
theorem fieldOperands_raisesAs (s : State)
    (hcap : i ∈ ErrorCode.capacityExceeded.raisers := by decide)
    (hrange : i ∈ ErrorCode.invalidRange.raisers := by decide)
    (harg : i ∈ ErrorCode.invalidArgument.raisers := by decide) :
    RaisesAs i (fieldOperands s) :=
  (checkPbuf_raisesAs s hcap).bind fun _ => (check_raisesAs _ hrange).bind fun _ =>
    (check_raisesAs _ harg).bind fun _ => .pure _

theorem nsHeader_raisesAs (s : State)
    (hi : i ∈ ErrorCode.malformedBuffer.raisers := by decide) : RaisesAs i (nsHeader s) :=
  .only hi fun _ h => by
    rcases nsHeader_error h with he | ⟨-, he, -⟩
    · exact Stop.raise.inj he
    · cases he

theorem spHeader_raisesAs (s : State)
    (hi : i ∈ ErrorCode.malformedBuffer.raisers := by decide) : RaisesAs i (spHeader s) :=
  .only hi fun _ h => by
    rcases spHeader_error h with he | ⟨-, he, -⟩
    · exact Stop.raise.inj he
    · cases he

theorem ovHeader_raisesAs (s : State)
    (hi : i ∈ ErrorCode.malformedBuffer.raisers := by decide) : RaisesAs i (ovHeader s) :=
  .only hi fun _ h => by
    rcases ovHeader_error h with he | ⟨k, -, -, he, -⟩
    · exact Stop.raise.inj he
    · cases he

theorem nsElement_raisesAs (s : State) (w k : Nat) : RaisesAs i (nsElement s w k) :=
  (readField_raisesAs _ _ _).bind fun _ => .pure _

theorem spElement_raisesAs (s : State) (w k : Nat) : RaisesAs i (spElement s w k) :=
  (readField_raisesAs _ _ _).bind fun _ => .pure _

/-- A slot index that names no slot is a malformed buffer (R187). -/
theorem ovElement_raisesAs (s : State) (hd : OverflowHeader) (k : Nat)
    (hi : i ∈ ErrorCode.malformedBuffer.raisers := by decide) : RaisesAs i (ovElement s hd k) :=
  (readField_raisesAs _ _ _).bind fun _ => (readField_raisesAs _ _ _).bind fun _ =>
    .ite (.pure _) ((check_raisesAs _ hi).bind fun _ => readWord_raisesAs _ _ _)

end RaisesAs

/-- Every command keeps to the table of causes: each part of its rule raises an error the table names
it for. -/
theorem exec_raisesAs (i : Instr) (s : State) : ∃ c, exec i s = settle s c ∧ RaisesAs i c := by
  cases i
  case bfExtract => exact ⟨_, rfl, (orInvalidRange_raisesAs _).bind fun _ => .pure _⟩
  case bfInsert => exact ⟨_, rfl, (orInvalidRange_raisesAs _).bind fun _ => .pure _⟩
  case fieldRead =>
    exact ⟨_, rfl, (fieldOperands_raisesAs s).bind fun _ => (readField_raisesAs _ _ _).bind
      fun _ => .pure _⟩
  case fieldWrite =>
    exact ⟨_, rfl, (fieldOperands_raisesAs s).bind fun _ => (writeField_raisesAs _ _ _ _).bind
      fun _ => .pure _⟩
  case gammaEnc =>
    exact ⟨_, rfl, (checkPbuf_raisesAs s).bind fun _ => (check_raisesAs _).bind fun _ =>
      (check_raisesAs _).bind fun _ => (check_raisesAs _).bind fun _ =>
        (writeFields_raisesAs _ _).bind fun _ => .pure _⟩
  case gammaDec =>
    exact ⟨_, rfl, (checkPbuf_raisesAs s).bind fun _ => (check_raisesAs _).bind fun _ =>
      (gammaRead_raisesAs _ _ _).bind fun _ => (orInvalidArgument_raisesAs _).bind fun _ =>
        .pure _⟩
  case wselUniform => exact ⟨_, rfl, (inputSequence_raisesAs s).bind fun _ => .pure _⟩
  case wselOverflow => exact ⟨_, rfl, (inputSequence_raisesAs s).bind fun _ => .pure _⟩
  case nsCompress =>
    exact ⟨_, rfl, (inputSequence_raisesAs s).bind fun _ => .ite (.pure _)
      ((packBuffer_raisesAs s _ _).bind fun _ => .pure _)⟩
  case spCompress =>
    exact ⟨_, rfl, (inputSequence_raisesAs s).bind fun _ => .ite (.pure _)
      ((packBuffer_raisesAs s _ _).bind fun _ => .pure _)⟩
  case ovCompress =>
    exact ⟨_, rfl, (inputSequence_raisesAs s).bind fun _ => .ite (.pure _)
      ((packBuffer_raisesAs s _ _).bind fun _ => .pure _)⟩
  case nsDecompress =>
    exact ⟨_, rfl, (checkPbuf_raisesAs s).bind fun _ => (nsHeader_raisesAs s).bind fun _ =>
      (check_raisesAs _).bind fun _ => (collect_raisesAs (nsElement_raisesAs s _) _ _).bind
        fun _ => .pure _⟩
  case spDecompress =>
    exact ⟨_, rfl, (checkPbuf_raisesAs s).bind fun _ => (spHeader_raisesAs s).bind fun _ =>
      (check_raisesAs _).bind fun _ => (collect_raisesAs (spElement_raisesAs s _) _ _).bind
        fun _ => .pure _⟩
  case ovDecompress =>
    exact ⟨_, rfl, (checkPbuf_raisesAs s).bind fun _ => (ovHeader_raisesAs s).bind fun _ =>
      (check_raisesAs _).bind fun _ =>
        (collect_raisesAs (fun k => ovElement_raisesAs s _ k) _ _).bind fun _ => .pure _⟩
  case nsGet =>
    exact ⟨_, rfl, (checkPbuf_raisesAs s).bind fun _ => (nsHeader_raisesAs s).bind fun _ =>
      (check_raisesAs _).bind fun _ => (nsElement_raisesAs s _ _).bind fun _ => .pure _⟩
  case spGet =>
    exact ⟨_, rfl, (checkPbuf_raisesAs s).bind fun _ => (spHeader_raisesAs s).bind fun _ =>
      (check_raisesAs _).bind fun _ => (spElement_raisesAs s _ _).bind fun _ => .pure _⟩
  case ovGet =>
    exact ⟨_, rfl, (checkPbuf_raisesAs s).bind fun _ => (ovHeader_raisesAs s).bind fun _ =>
      (check_raisesAs _).bind fun _ => (ovElement_raisesAs s _ _).bind fun _ => .pure _⟩

/-! ## STATUS after a command -/

theorem codeOf_ne_zero (e : ErrorCode) : codeOf e ≠ 0 := by cases e <;> decide

theorem codeOf_injective : Function.Injective codeOf := by
  intro e e' h
  cases e <;> cases e' <;> simp [codeOf] at h ⊢

/-- Code 7 is no command's (R211, R212). -/
theorem codeOf_le_six {i : Instr} {e : ErrorCode} (hi : i ∈ e.raisers) :
    (codeOf e).toNat ≤ 6 := by
  cases e with
  | illegalCommand => cases hi
  | _ => decide

/-- The two ways a command has a next state, as STATUS tells them apart: it completes with OK and
FAULTED as it was (R218), or it raises an error the table names it for (R212). -/
theorem exec_next_status {i : Instr} {s t : State} (h : exec i s = .next t) :
    (t.code = 0 ∧ t.faulted = s.faulted) ∨ ∃ e : ErrorCode, i ∈ e.raisers ∧ t = s.raise e := by
  obtain ⟨c, hc, hraises⟩ := exec_raisesAs i s
  rcases settle_next_iff.mp (hc.symm.trans h) with ⟨u, -, rfl⟩ | ⟨e, he, rfl⟩
  · refine .inl ⟨rfl, ?_⟩
    rcases exec_next_cases h with ⟨v, hv, hu⟩ | ⟨e, hu⟩
    · rw [hu, State.succeed_faulted, hv.frame]
    · exact absurd (congrArg State.code hu).symm (codeOf_ne_zero e)
  · exact .inr ⟨e, hraises e he, rfl⟩

/-- A command whose code is an error's is one the table names for that error. -/
theorem mem_raisers_of_code {i : Instr} {s t : State} (h : exec i s = .next t) {e : ErrorCode}
    (hcode : t.code = codeOf e) : i ∈ e.raisers := by
  rcases exec_next_status h with ⟨hok, -⟩ | ⟨e', hi, rfl⟩
  · exact absurd (hcode.symm.trans hok) (codeOf_ne_zero e)
  · exact codeOf_injective hcode ▸ hi

/-- The fatal errors are those of codes 1 and 4 (R211, R213). -/
theorem isFatal_eq_decide (e : ErrorCode) :
    isFatal e = decide (codeOf e = 1 ∨ codeOf e = 4) := by
  cases e <;> rfl

/-! ## How a write of CMD is judged -/

/-- First, a faulted block ignores it (R215, R217). -/
theorem step_command_faulted {s : State} {c : Word} {rest : List Event}
    (h : s.pending = .writeReg 0x00 c :: rest) (hf : s.faulted = true) :
    step s = .next { s with pending := rest } := by
  rw [step_writeReg (r := .cmd) h]
  exact issue_faulted (s := { s with pending := rest }) hf c

/-- The commands that read PBUF (R68). -/
def ReadsBuffer (i : Instr) : Prop :=
  i ∈ [Instr.fieldRead, .fieldWrite, .gammaEnc, .gammaDec, .nsDecompress, .nsGet, .spDecompress,
    .spGet, .ovDecompress, .ovGet]

/-- A length register is above the capacity of a memory that the command reads. -/
def LengthAboveCapacity (i : Instr) (s : State) : Prop :=
  (ReadsSeqIn i ∧ s.capN.toNat < s.seqInLen.toNat) ∨
    (ReadsBuffer i ∧ s.capPbuf.toNat < s.pbufLen.toNat)

theorem exec_of_checkPbuf_error {i : Instr} (hi : ReadsBuffer i) {s : State} {e : Stop}
    (h : checkPbuf s = .error e) : exec i s = settle s (.error e) := by
  simp only [ReadsBuffer, List.mem_cons, List.not_mem_nil, or_false] at hi
  rcases hi with rfl | rfl | rfl | rfl | rfl | rfl | rfl | rfl | rfl | rfl
  · simp only [exec, execFieldRead, fieldOperands, h, error_bind]
  · simp only [exec, execFieldWrite, fieldOperands, h, error_bind]
  · simp only [exec, execGammaEnc, h, error_bind]
  · simp only [exec, execGammaDec, h, error_bind]
  · simp only [exec, execNsDecompress, h, error_bind]
  · simp only [exec, execNsGet, h, error_bind]
  · simp only [exec, execSpDecompress, h, error_bind]
  · simp only [exec, execSpGet, h, error_bind]
  · simp only [exec, execOvDecompress, h, error_bind]
  · simp only [exec, execOvGet, h, error_bind]

/-- Third, the length registers are judged before anything else the command looks at (R68, R217). -/
theorem exec_lengthAboveCapacity {i : Instr} {s : State} (h : LengthAboveCapacity i s) :
    exec i s = .next { s with code := 6 } := by
  have hstop : exec i s = settle s (.error (.raise .capacityExceeded)) := by
    rcases h with ⟨hi, hlt⟩ | ⟨hi, hlt⟩
    · exact exec_of_inputSequence_error hi (inputSequence_capacityExceeded hlt)
    · exact exec_of_checkPbuf_error hi (check_pos hlt _)
  rw [hstop, settle_recoverable s rfl, codeOf]

/-! ## What an event leaves of STATUS and of the run's mark -/

theorem step_idle {s : State} (h : s.pending = []) : step s = .next s := by
  simp only [step, advance, h]

/-- A step is idle or performs the first of the host's events. -/
theorem step_next_cases {s t : State} (h : step s = .next t) :
    t = s ∨ ∃ e rest, s.pending = e :: rest ∧ perform { s with pending := rest } e = .next t := by
  cases hp : s.pending with
  | nil =>
    rw [step_idle hp] at h
    cases h
    exact .inl rfl
  | cons e rest => exact .inr ⟨e, rest, rfl, step_cons hp ▸ h⟩

/-- What an event can do to STATUS and to the run's mark: a write of CMD and reset apart, STATUS
stays, and the mark is at most set. -/
theorem perform_cases {s t : State} {e : Event} (h : perform s e = .next t) :
    (∃ c, issue s c = .next t) ∨ (e = .reset ∧ t = s.hardReset) ∨
      (t.code = s.code ∧ t.faulted = s.faulted ∧
        (s.noValueRead = true → t.noValueRead = true)) := by
  cases e with
  | readReg k =>
    simp only [perform] at h
    split at h
    · cases h
      exact .inr (.inr ⟨rfl, rfl, fun hm => by simp [hm]⟩)
    · cases h
  | writeReg k v =>
    simp only [perform] at h
    split at h
    · rename_i r _
      cases r with
      | cmd => exact .inl ⟨v, h⟩
      | a0 | a1 | a2 | a3 | a4 | seqInLen | pbufLen => cases h; exact .inr (.inr ⟨rfl, rfl, id⟩)
      | status | res0 | res1 | seqOutLen | capN | capPbuf => cases h
    · cases h
  | readMem sp k =>
    obtain ⟨-, -, v, -, rfl⟩ := hostReadMem_next_iff.mp h
    exact .inr (.inr ⟨rfl, rfl, id⟩)
  | writeMem sp k v =>
    rcases hostWriteMem_next h with ⟨-, rfl⟩ | ⟨-, rfl⟩ <;> exact .inr (.inr ⟨rfl, rfl, id⟩)
  | reset =>
    cases h
    exact .inr (.inl ⟨rfl, rfl⟩)

/-- FAULTED and the code with it stay until reset (R214, R215). -/
theorem perform_latched {s t : State} {e : Event} (hf : s.faulted = true) (he : e ≠ .reset)
    (h : perform s e = .next t) : t.faulted = true ∧ t.code = s.code := by
  rcases perform_cases h with ⟨c, hc⟩ | ⟨hreset, -⟩ | ⟨hcode, hfaulted, -⟩
  · rw [issue_faulted hf] at hc
    cases hc
    exact ⟨hf, rfl⟩
  · exact absurd hreset he
  · exact ⟨hfaulted.trans hf, hcode⟩

/-- A write of CMD clears no mark: the operands are noted on top of it, and no command writes it. -/
theorem issue_keeps_mark {s t : State} {c : Word} (hm : s.noValueRead = true)
    (h : issue s c = .next t) : t.noValueRead = true := by
  rcases issue_cases s c with ⟨-, hi⟩ | ⟨-, hi | ⟨i, -, hi⟩⟩ <;> rw [hi] at h
  · cases h
    exact hm
  · cases h
    exact hm
  · rw [exec_frame h]
    simp [State.noteOperands, hm]

theorem perform_keeps_mark {s t : State} {e : Event} (hm : s.noValueRead = true)
    (h : perform s e = .next t) : t.noValueRead = true := by
  rcases perform_cases h with ⟨c, hc⟩ | ⟨-, rfl⟩ | ⟨-, -, hmark⟩
  · exact issue_keeps_mark hm hc
  · exact hm
  · exact hmark hm

theorem step_latched {s t : State} (hf : s.faulted = true)
    (hr : ∀ rest, s.pending ≠ .reset :: rest) (h : step s = .next t) :
    t.faulted = true ∧ t.code = s.code := by
  rcases step_next_cases h with rfl | ⟨e, rest, hp, he⟩
  · exact ⟨hf, rfl⟩
  · have hne : e ≠ .reset := by
      rintro rfl
      exact hr rest hp
    exact perform_latched (s := { s with pending := rest }) hf hne he

theorem step_keeps_mark {s t : State} (hm : s.noValueRead = true) (h : step s = .next t) :
    t.noValueRead = true := by
  rcases step_next_cases h with rfl | ⟨e, rest, -, he⟩
  · exact hm
  · exact perform_keeps_mark (s := { s with pending := rest }) hm he

/-! ## The empty Sequence and the empty buffer -/

theorem input_nil {s : State} (h : s.seqInLen = 0) : Input s [] := by
  simp [Input, HoldsSequence, Admitted, h]

/-! ## The obligations -/

/-- Settles O7: a command sets FAULTED with a fatal code, and from then on every event but reset
leaves both. -/
theorem faultLatchHoldsUntilReset : Obligations.FaultLatchHoldsUntilReset := by
  refine ⟨fun i s t h hcode => ?_, fun s t hf hr h => step_latched hf hr h⟩
  rcases exec_next_status h with ⟨hok, -⟩ | ⟨e, -, rfl⟩
  · rw [hok] at hcode
    exact absurd hcode (by decide)
  · have hfatal : isFatal e = true := (isFatal_eq_decide e).trans (decide_eq_true hcode)
    rw [State.raise_faulted, hfatal, Bool.or_true]

/-- Settles O8: the three judgements in order, each made only where the one before it passes. -/
theorem errorPriority : Obligations.ErrorPriority := by
  intro s c rest h
  refine ⟨step_command_faulted h, fun hf hill => ?_, fun hf i hd hlen => ?_⟩
  · exact step_illegalCommand h hf fun ⟨i, hi⟩ => hill i hi
  · rw [stepRunsTheDecodedCommand s c rest i h hf hd]
    exact ⟨_, exec_lengthAboveCapacity hlen⟩

/-- Settles O24: a command with an error's code is one that raised it. -/
theorem failingCommandChangesOnlyStatus : Obligations.FailingCommandChangesOnlyStatus := by
  intro i s t h hne
  rcases exec_next_status h with ⟨hok, -⟩ | ⟨e, -, rfl⟩
  · exact absurd hok hne
  · rw [State.raise_code, ← isFatal_eq_decide]
    rfl

/-- Settles O25: a code is an error's, and each column of the table is that of its code. -/
theorem codesAndTheirRaisers : Obligations.CodesAndTheirRaisers := by
  intro i s t h
  have hcol {e : ErrorCode} (hcode : t.code = codeOf e) : i ∈ e.raisers :=
    mem_raisers_of_code h hcode
  refine ⟨?le, ?ok, @hcol .invalidRange, @hcol .indexOutOfRange, @hcol .malformedBuffer,
    @hcol .invalidArgument, @hcol .unsupportedValue, fun hcode => ?capacity⟩
  case le =>
    rcases exec_next_status h with ⟨hok, -⟩ | ⟨e, hi, rfl⟩
    · rw [hok]
      decide
    · exact codeOf_le_six hi
  case ok =>
    intro hcode
    rcases exec_next_status h with ⟨-, hf⟩ | ⟨e, -, rfl⟩
    · exact hf
    · exact absurd hcode (codeOf_ne_zero e)
  case capacity =>
    have hi := @hcol .capacityExceeded hcode
    constructor <;> rintro rfl <;> exact absurd hi (by decide)

/-- Settles O59: the latch and the mark are kept where they stand, so where they are clear after a
step they were clear before it. -/
theorem goodRunsWereGoodBefore : Obligations.GoodRunsWereGoodBefore := by
  intro s t h
  have hlatch (hr : ∀ rest, s.pending ≠ .reset :: rest) (ht : t.faulted = false) :
      s.faulted = false := Bool.eq_false_iff.mpr fun hf => by
    obtain ⟨hf', -⟩ := step_latched hf hr h
    rw [ht] at hf'
    cases hf'
  have hmark (ht : t.noValueRead = false) : s.noValueRead = false :=
    Bool.eq_false_iff.mpr fun hm => by
      have hm' := step_keeps_mark hm h
      rw [ht] at hm'
      cases hm'
  exact ⟨hlatch, hmark, fun hr ⟨htm, htf⟩ => ⟨hmark htm, hlatch hr htf⟩⟩

/-- Settles O6: the first judgement of a write of CMD. -/
theorem faultedBlockIgnoresCommands : Obligations.FaultedBlockIgnoresCommands :=
  fun _ _ _ h hf => step_command_faulted h hf

/-- Settles O9: a step with no event to perform. -/
theorem idleBlockHoldsItsState : Obligations.IdleBlockHoldsItsState :=
  fun _ h => step_idle h

/-- Settles O43: the empty Sequence is an input that each compress command answers with no buffer. -/
theorem emptyInputCompressesToTheEmptyBuffer :
    Obligations.EmptyInputCompressesToTheEmptyBuffer := by
  intro i hi s h
  simp only [List.mem_cons, List.not_mem_nil, or_false] at hi
  rcases hi with rfl | rfl | rfl
  · exact exec_nsCompress_nil (input_nil h)
  · exact exec_spCompress_nil (input_nil h)
  · exact exec_ovCompress_nil (input_nil h)

/-- Settles O44: the empty buffer passes the capacity check and has no Header, and its length is 0. -/
theorem emptyBufferDecodesToTheEmptySequence :
    Obligations.EmptyBufferDecodesToTheEmptySequence := by
  intro s h
  have hlen : s.pbufLen.toNat = 0 := by rw [h]; rfl
  have hcap : s.pbufLen.toNat ≤ s.capPbuf.toNat := by omega
  have hindex : s.a0.toInt < 0 ∨ ((0 : Nat) : Int) ≤ s.a0.toInt := by omega
  have hnone {f : Nat → Except Stop Word} : ∀ j < 0, f j = .ok 0 := by simp
  constructor
  · intro i hi
    simp only [List.mem_cons, List.not_mem_nil, or_false] at hi
    rcases hi with rfl | rfl | rfl
    · exact exec_nsDecompress_elements hcap (nsHeader_empty hlen) (Nat.zero_le _) hnone
    · exact exec_spDecompress_elements hcap (spHeader_empty hlen) (Nat.zero_le _) hnone
    · exact exec_ovDecompress_elements hcap (ovHeader_empty hlen) (Nat.zero_le _) hnone
  · intro i hi
    simp only [List.mem_cons, List.not_mem_nil, or_false] at hi
    rcases hi with rfl | rfl | rfl
    · exact exec_nsGet_indexOutOfRange hcap (nsHeader_empty hlen) hindex
    · exact exec_spGet_indexOutOfRange hcap (spHeader_empty hlen) hindex
    · exact exec_ovGet_indexOutOfRange hcap (ovHeader_empty hlen) hindex

end Sys2Proof.Machine
end

section
/-! PROOFS. The statements of 70_reset_and_hazards.md: the reset event, the words that stop a
command, and that a decoder sees the words of its buffer alone. -/

namespace Sys2Proof.Machine

open Sys2Proof

/-! ## The shape of the decoders -/

section Bodies

variable {H : Type}

/-- A decompress command over a header: its checks, and every element (R147, R166, R188). -/
def decompressBody (s : State) (header : Except Stop H) (len : H → Nat)
    (element : H → Nat → Except Stop Word) : Except Stop State := do
  checkPbuf s
  let hd ← header
  check (len hd > uint s.capN) .capacityExceeded
  let vs ← collect (element hd) 0 (len hd)
  pure (s.decompressed vs)

/-- A get command over a header: its checks, and one element (R148, R167, R189). -/
def getBody (s : State) (header : Except Stop H) (len : H → Nat)
    (element : H → Nat → Except Stop Word) : Except Stop State := do
  checkPbuf s
  let hd ← header
  check (s.a0.toInt < 0 ∨ s.a0.toInt ≥ len hd) .indexOutOfRange
  let v ← element hd s.a0.toInt.toNat
  pure (s.setRes0 v)

end Bodies

/-! Each of the six decoders has one of the two bodies, over its own header and element. -/

theorem exec_nsDecompress_eq (s : State) : exec .nsDecompress s =
    settle s (decompressBody s (nsHeader s) UniformHeader.len fun hd => nsElement s hd.width) := rfl

theorem exec_spDecompress_eq (s : State) : exec .spDecompress s =
    settle s (decompressBody s (spHeader s) UniformHeader.len fun hd => spElement s hd.width) := rfl

theorem exec_ovDecompress_eq (s : State) : exec .ovDecompress s =
    settle s (decompressBody s (ovHeader s) OverflowHeader.len (ovElement s)) := rfl

theorem exec_nsGet_eq (s : State) : exec .nsGet s =
    settle s (getBody s (nsHeader s) UniformHeader.len fun hd => nsElement s hd.width) := rfl

theorem exec_spGet_eq (s : State) : exec .spGet s =
    settle s (getBody s (spHeader s) UniformHeader.len fun hd => spElement s hd.width) := rfl

theorem exec_ovGet_eq (s : State) : exec .ovGet s =
    settle s (getBody s (ovHeader s) OverflowHeader.len (ovElement s)) := rfl

/-! ## The operands and headers that are answered -/

/-- The operands a field command goes on with name a field of the buffer (R106, R107). -/
theorem namesField_of_fieldOperands_ok {s : State} {p n : Nat}
    (h : fieldOperands s = .ok (p, n)) : NamesField s p n := by
  simp only [fieldOperands, checkPbuf, bind_ok_iff, check_ok_iff, pure_ok] at h
  obtain ⟨-, hcap, -, hrange, -, hfits, h⟩ := h
  cases h
  simp only [sint, uint] at hcap hrange hfits ⊢
  exact namesField_of_toInt (by omega) (by omega) (by omega) (by omega) (by omega)

/-- A Header that is answered with an element is a good one (R146). -/
theorem nsGoodHeader_of_nsHeader_ok {s : State} {hd : UniformHeader} {j : Nat}
    (h : nsHeader s = .ok hd) (hj : j < hd.len) : NsGoodHeader s hd.width hd.len := by
  rcases nsHeader_ok h with ⟨-, rfl⟩ | ⟨hl, hw, h1, -, hlen⟩
  · cases hj
  · exact ⟨BitVec.toNat_ne.mpr hl, hw, by omega, hlen⟩

/-- A Header that is answered with an element is a good one (R164). -/
theorem spGoodHeader_of_spHeader_ok {s : State} {hd : UniformHeader} {j : Nat}
    (h : spHeader s = .ok hd) (hj : j < hd.len) : SpGoodHeader s hd.width hd.len := by
  rcases spHeader_ok h with ⟨-, rfl⟩ | ⟨hl, hw, h1, -, hlen⟩
  · cases hj
  · exact ⟨BitVec.toNat_ne.mpr hl, hw, by omega, hlen⟩

/-- Only the empty buffer has no header, and it has no elements (R186). -/
theorem ovGoodHeader_of_ovHeader_ok_of_lt {s : State} {hd : OverflowHeader} {j : Nat}
    (h : ovHeader s = .ok hd) (hj : j < hd.len) :
    OvGoodHeader s hd.width hd.oc hd.start hd.len := by
  refine ovGoodHeader_of_ovHeader_ok (fun hl => ?_) h
  rcases ovHeader_ok h with ⟨-, rfl⟩ | ⟨hne, -⟩
  · cases hj
  · exact hne (by rw [hl]; rfl)

/-! ## The words that stop a command -/

/-- A refusal that names a word the command reads and that holds no value: an element of the input
Sequence, or a word of the buffer (R37, R243). -/
def NamesUnwrittenWord (i : Instr) (s : State) (r : Refusal) : Prop :=
  (∃ k, r = .noValue .seqIn k ∧ ReadsSeqIn i ∧ k < s.seqInLen.toNat ∧ ¬ s.seqIn.has k) ∨
  ∃ k, r = .noValue .pbuf k ∧ ReadsPbuf s k i ∧ k < s.pbufLen.toNat ∧ ¬ s.pbuf.has k

/-- A part of a command that is refused only as `P` allows. -/
def RefusedOnly {α : Type} (P : Refusal → Prop) (c : Except Stop α) : Prop :=
  ∀ r, c = .error (.refuse r) → P r

section RefusedOnly

variable {α β H : Type} {P : Refusal → Prop}

theorem RefusedOnly.pure (a : α) : RefusedOnly P (.ok a) := fun r h => by cases h

/-- What follows a part is judged for the values the part answers. -/
theorem RefusedOnly.bind {x : Except Stop α} {f : α → Except Stop β} (hx : RefusedOnly P x)
    (hf : ∀ a, x = .ok a → RefusedOnly P (f a)) : RefusedOnly P (x >>= f) := fun r h => by
  rcases bind_error_iff.mp h with h | ⟨a, ha, h⟩
  · exact hx r h
  · exact hf a ha r h

theorem RefusedOnly.ite {p : Prop} [Decidable p] {c d : Except Stop α} (hc : RefusedOnly P c)
    (hd : ¬ p → RefusedOnly P d) : RefusedOnly P (if p then c else d) := by
  by_cases hp : p
  · rwa [if_pos hp]
  · rw [if_neg hp]
    exact hd hp

theorem check_refusedOnly (p : Prop) [Decidable p] (e : ErrorCode) :
    RefusedOnly P (check p e) := fun r h => by
  obtain ⟨-, h⟩ := check_error_iff.mp h
  cases h

theorem orInvalidRange_refusedOnly (v : Option Word) : RefusedOnly P (orInvalidRange v) :=
  fun r h => by cases v <;> cases h

theorem orInvalidArgument_refusedOnly (g : GammaRead) : RefusedOnly P (orInvalidArgument g) :=
  fun r h => by cases g <;> cases h

theorem collect_refusedOnly {f : Nat → Except Stop α} {n : Nat}
    (hf : ∀ j < n, RefusedOnly P (f j)) : RefusedOnly P (collect f 0 n) := fun r h => by
  obtain ⟨j, hj, he⟩ := collect_error h
  rw [Nat.zero_add] at he
  exact hf j hj r he

/-- Packing a buffer whose fields lie in it reads only words that it has zeroed (R66). -/
theorem packBuffer_refusedOnly {s : State} {words : Nat} {fs : List Field}
    (hn : ∀ f ∈ fs, 1 ≤ f.width ∧ f.width ≤ 32)
    (hin : ∀ f ∈ fs, ∀ q, f.covers q → q < 32 * words) :
    RefusedOnly P (packBuffer s words fs) := fun r h => by
  obtain ⟨-, h⟩ := packBuffer_error h hn hin
  cases h

theorem fieldOperands_refusedOnly {s : State} : RefusedOnly P (fieldOperands s) :=
  (check_refusedOnly _ _).bind fun _ _ => (check_refusedOnly _ _).bind fun _ _ =>
    (check_refusedOnly _ _).bind fun _ _ => .pure _

theorem decompressBody_refusedOnly {s : State} {header : Except Stop H} {len : H → Nat}
    {element : H → Nat → Except Stop Word} (hheader : RefusedOnly P header)
    (helement : ∀ hd, header = .ok hd → ∀ j < len hd, RefusedOnly P (element hd j)) :
    RefusedOnly P (decompressBody s header len element) :=
  (check_refusedOnly _ _).bind fun _ _ => hheader.bind fun hd hhd =>
    (check_refusedOnly _ _).bind fun _ _ =>
      (collect_refusedOnly (helement hd hhd)).bind fun _ _ => .pure _

theorem getBody_refusedOnly {s : State} {header : Except Stop H} {len : H → Nat}
    {element : H → Nat → Except Stop Word} (hheader : RefusedOnly P header)
    (helement : ∀ hd, header = .ok hd → ∀ j < len hd, s.a0.toInt = (j : Nat) →
      RefusedOnly P (element hd j)) :
    RefusedOnly P (getBody s header len element) :=
  (check_refusedOnly _ _).bind fun _ _ => hheader.bind fun hd hhd =>
    (check_refusedOnly _ _).bind fun _ hindex => by
      have hindex := check_ok_iff.mp hindex
      exact (helement hd hhd _ (by omega) (by omega)).bind fun _ _ => .pure _

end RefusedOnly

/-- A field that is written touches its own words alone (R103). -/
theorem writeField_error_word {m : Memory} {p n v : Nat} {e : Stop} (h1 : 1 ≤ n)
    (h : writeField m p n v = .error e) :
    ∃ k, FieldWord p n k ∧ e = .refuse (.noValue .pbuf k) ∧ ¬ m.has k := by
  obtain ⟨k, he, hk, rfl | ⟨rfl, hc⟩⟩ := writeField_error h
  · exact ⟨_, ⟨p, le_rfl, by omega, rfl⟩, he, hk⟩
  · exact ⟨_, ⟨32 * (p / 32 + 1), by omega, by omega, by omega⟩, he, hk⟩

/-- A list of fields that is written touches the words of its fields alone. -/
theorem writeFields_error_word {m : Memory} {fs : List Field} {e : Stop}
    (hn : ∀ f ∈ fs, 1 ≤ f.width ∧ f.width ≤ 32) (h : writeFields m fs = .error e) :
    ∃ q, (∃ f ∈ fs, f.covers q) ∧ e = .refuse (.noValue .pbuf (q / 32)) ∧ ¬ m.has (q / 32) := by
  induction fs generalizing m with
  | nil => cases h
  | cons f fs ih =>
    have ⟨h1, h32⟩ := hn f List.mem_cons_self
    rcases bind_error_iff.mp h with h | ⟨m', hm', h⟩
    · obtain ⟨k, ⟨q, hlo, hhi, rfl⟩, he, hk⟩ := writeField_error_word h1 h
      exact ⟨q, ⟨f, List.mem_cons_self, hlo, hhi⟩, he, hk⟩
    · obtain ⟨q, ⟨g, hg, hc⟩, he, hk⟩ := ih (fun g hg => hn g (List.mem_cons_of_mem f hg)) h
      obtain ⟨hhas, -⟩ := writeField_spec hm' h32
      exact ⟨q, ⟨g, List.mem_cons_of_mem f hg, hc⟩, he, fun hq => hk ((hhas _).mpr hq)⟩

section Stops

variable {i : Instr} {s : State}

theorem NamesUnwrittenWord.of_pbuf {k : Nat} (hreads : ReadsPbuf s k i)
    (hk : k < s.pbufLen.toNat) (hno : ¬ s.pbuf.has k) :
    NamesUnwrittenWord i s (.noValue .pbuf k) :=
  .inr ⟨k, rfl, hreads, hk, hno⟩

theorem inputSequence_refusedOnly (s : State) (hi : ReadsSeqIn i := by simp [ReadsSeqIn]) :
    RefusedOnly (NamesUnwrittenWord i s) (inputSequence s) := fun r h => by
  rcases inputSequence_error h with ⟨h, -⟩ | ⟨k, hk, h, hno⟩ | ⟨h, -⟩
  · cases h
  · cases h
    exact .inl ⟨k, rfl, hi, hk, hno⟩
  · cases h

/-- A field command stops at a word of its field. -/
theorem NamesField.refusedOnly {p n : Nat} (h : NamesField s p n) (hi : IsFieldCommand i)
    {α : Type} {c : Except Stop α}
    (hc : ∀ e, c = .error e → ∃ k, FieldWord p n k ∧ e = .refuse (.noValue .pbuf k) ∧
      ¬ s.pbuf.has k) : RefusedOnly (NamesUnwrittenWord i s) c := fun r hr => by
  obtain ⟨k, hk, hr, hno⟩ := hc _ hr
  cases hr
  have hlt : k < s.pbufLen.toNat := by
    obtain ⟨q, -, hq, rfl⟩ := hk
    have := h.fits
    omega
  refine .of_pbuf ?_ hlt hno
  have hp : s.a0.toInt.toNat = p := by rw [h.position, Int.toNat_natCast]
  have hn : s.a1.toInt.toNat = n := by rw [h.width, Int.toNat_natCast]
  rcases hi with rfl | rfl
  · simpa only [ReadsPbuf, hp, hn] using hk
  · simpa only [ReadsPbuf, hp, hn] using hk

/-- GAMMA_ENC's checks passed, it stops at a word of the code (R123). -/
theorem writeCode_refusedOnly
    (hfits : s.a1.toInt.toNat + gammaLen s.a0.toInt.toNat ≤ 32 * s.pbufLen.toNat) :
    RefusedOnly (NamesUnwrittenWord .gammaEnc s)
      (writeFields s.pbuf (gammaFields s.a1.toInt.toNat s.a0.toInt.toNat)) :=
  fun r h => by
    obtain ⟨q, hq, hr, hno⟩ := writeFields_error_word (fun f hf => by
      rw [gammaFields_width hf]
      omega) h
    cases hr
    obtain ⟨hlo, hhi⟩ := gammaFields_covers.mp hq
    exact .of_pbuf ⟨q, hlo, hhi, rfl⟩ (by omega) hno

/-- A Gamma decode stops at a word it reads (R122). -/
theorem gammaRead_refusedOnly {p : Nat}
    (hreads : ∀ q, GammaReads s.pbuf p (32 * s.pbufLen.toNat) q → ReadsPbuf s (q / 32) i) :
    RefusedOnly (NamesUnwrittenWord i s) (gammaRead s.pbuf p (32 * s.pbufLen.toNat)) :=
  fun r h => by
    obtain ⟨q, hq, hr, hno⟩ := gammaRead_error h
    cases hr
    have ⟨_, hlt, _⟩ := hq
    exact .of_pbuf (hreads q hq) (by omega) hno

theorem nsHeader_refusedOnly (h0 : ReadsPbuf s 0 i := by exact .inl rfl) :
    RefusedOnly (NamesUnwrittenWord i s) (nsHeader s) := fun r h => by
  rcases nsHeader_error h with h | ⟨hl, h, hno⟩
  · cases h
  · cases h
    exact .of_pbuf h0 (Nat.pos_of_ne_zero hl) hno

theorem spHeader_refusedOnly (h0 : ReadsPbuf s 0 i := by exact .inl rfl) :
    RefusedOnly (NamesUnwrittenWord i s) (spHeader s) := fun r h => by
  rcases spHeader_error h with h | ⟨hl, h, hno⟩
  · cases h
  · cases h
    exact .of_pbuf h0 (Nat.pos_of_ne_zero hl) hno

theorem ovHeader_refusedOnly
    (hreads : ∀ k, (k = 0 ∨ ∃ q, GammaReads s.pbuf 10 (32 * s.pbufLen.toNat) q ∧ k = q / 32) →
      ReadsPbuf s k i) : RefusedOnly (NamesUnwrittenWord i s) (ovHeader s) := fun r h => by
  rcases ovHeader_error h with h | ⟨k, hk, hread, h, hno⟩
  · cases h
  · cases h
    exact .of_pbuf (hreads k hread) hk hno

theorem NsGoodHeader.element_refusedOnly {w L j : Nat} (h : NsGoodHeader s w L) (hj : j < L)
    (hreads : ∀ k, NsElementWord w j k → ReadsPbuf s k i) :
    RefusedOnly (NamesUnwrittenWord i s) (nsElement s w j) := fun r hr => by
  have ⟨h1, h31⟩ := h.width_bounds
  obtain ⟨k, hk, hword, hr, hno⟩ := Machine.nsElement_error h1 h31 h.slots_le hj hr
  cases hr
  exact .of_pbuf (hreads k hword) hk hno

theorem SpGoodHeader.element_refusedOnly {w L j : Nat} (h : SpGoodHeader s w L) (hj : j < L)
    (hreads : ∀ k, SpElementWord w j k → ReadsPbuf s k i) :
    RefusedOnly (NamesUnwrittenWord i s) (spElement s w j) := fun r hr => by
  have ⟨h1, _⟩ := h.width_bounds
  obtain ⟨k, hk, hword, hr, hno⟩ := Machine.spElement_error h1 h.room hj hr
  cases hr
  exact .of_pbuf (hreads k hword) hk hno

theorem OvGoodHeader.element_refusedOnly {hd : OverflowHeader} {j : Nat}
    (h : OvGoodHeader s hd.width hd.oc hd.start hd.len) (hj : j < hd.len)
    (hreads : ∀ k, OvElementWord s hd.width hd.oc hd.start j k → ReadsPbuf s k i) :
    RefusedOnly (NamesUnwrittenWord i s) (ovElement s hd j) := fun r hr => by
  have ⟨h1, h31⟩ := h.width_bounds
  rcases Machine.ovElement_error h1 h31 hj h.mainBits hr with ⟨hr, -⟩ | ⟨k, hk, hword, hr, hno⟩
  · cases hr
  · cases hr
    exact .of_pbuf (hreads k hword) hk hno

end Stops

/-- Every command is refused only where it reads a word that holds no value. -/
theorem exec_refusedOnly (i : Instr) (s : State) :
    ∃ c, exec i s = settle s c ∧ RefusedOnly (NamesUnwrittenWord i s) c := by
  cases i
  case bfExtract => exact ⟨_, rfl, (orInvalidRange_refusedOnly _).bind fun _ _ => .pure _⟩
  case bfInsert => exact ⟨_, rfl, (orInvalidRange_refusedOnly _).bind fun _ _ => .pure _⟩
  case fieldRead =>
    refine ⟨_, rfl, fieldOperands_refusedOnly.bind fun _ hpn => ?_⟩
    have h := namesField_of_fieldOperands_ok hpn
    exact (h.refusedOnly (.inl rfl) fun e => readField_error_word h.one_le).bind fun _ _ => .pure _
  case fieldWrite =>
    refine ⟨_, rfl, fieldOperands_refusedOnly.bind fun _ hpn => ?_⟩
    have h := namesField_of_fieldOperands_ok hpn
    exact (h.refusedOnly (.inr rfl) fun e => writeField_error_word h.one_le).bind fun _ _ =>
      .pure _
  case gammaEnc =>
    refine ⟨_, rfl, (check_refusedOnly _ _).bind fun _ _ => (check_refusedOnly _ _).bind fun _ _ =>
      (check_refusedOnly _ _).bind fun _ hp => (check_refusedOnly _ _).bind fun _ hfits => ?_⟩
    have hp := check_ok_iff.mp hp
    have hfits := check_ok_iff.mp hfits
    simp only [sint, uint] at hp hfits
    exact (writeCode_refusedOnly (by omega)).bind fun _ _ => .pure _
  case gammaDec =>
    exact ⟨_, rfl, (check_refusedOnly _ _).bind fun _ _ => (check_refusedOnly _ _).bind fun _ _ =>
      (gammaRead_refusedOnly (i := .gammaDec) fun q hq => ⟨q, hq, rfl⟩).bind fun _ _ =>
        (orInvalidArgument_refusedOnly _).bind fun _ _ => .pure _⟩
  case wselUniform => exact ⟨_, rfl, (inputSequence_refusedOnly s).bind fun _ _ => .pure _⟩
  case wselOverflow => exact ⟨_, rfl, (inputSequence_refusedOnly s).bind fun _ _ => .pure _⟩
  case nsCompress =>
    refine ⟨_, rfl, (inputSequence_refusedOnly s).bind fun A hA => .ite (.pure _) fun _ => ?_⟩
    obtain ⟨-, hadm, -⟩ := inputSequence_ok hA
    obtain ⟨⟨h1, -⟩, h31, -⟩ := uniformWidth_spec A
    obtain ⟨hwidth, hfit, -⟩ := nsFields_ok (A := A) h1 (h31 hadm)
    exact (packBuffer_refusedOnly hwidth hfit).bind fun _ _ => .pure _
  case spCompress =>
    refine ⟨_, rfl, (inputSequence_refusedOnly s).bind fun A hA => .ite (.pure _) fun _ => ?_⟩
    obtain ⟨-, hadm, -⟩ := inputSequence_ok hA
    obtain ⟨⟨h1, -⟩, h31, -⟩ := uniformWidth_spec A
    obtain ⟨hwidth, hfit, -⟩ := spFields_ok (A := A) h1 (h31 hadm)
    exact (packBuffer_refusedOnly hwidth hfit).bind fun _ _ => .pure _
  case ovCompress =>
    refine ⟨_, rfl, (inputSequence_refusedOnly s).bind fun A hA => .ite (.pure _) fun _ => ?_⟩
    obtain ⟨-, hadm, -⟩ := inputSequence_ok hA
    obtain ⟨⟨h1, h31, -⟩, hoc⟩ := overflowSelect_spec hadm
    obtain ⟨hwidth, hfit, -⟩ := ovFields_ok h1 h31 hoc
    exact (packBuffer_refusedOnly hwidth hfit).bind fun _ _ => .pure _
  case nsDecompress =>
    refine ⟨_, exec_nsDecompress_eq s, decompressBody_refusedOnly nsHeader_refusedOnly
      fun hd hhd j hj => ?_⟩
    have h := nsGoodHeader_of_nsHeader_ok hhd hj
    exact h.element_refusedOnly hj fun k hk => .inr ⟨_, _, j, h, hj, hk⟩
  case nsGet =>
    refine ⟨_, exec_nsGet_eq s, getBody_refusedOnly nsHeader_refusedOnly
      fun hd hhd j hj ha0 => ?_⟩
    have h := nsGoodHeader_of_nsHeader_ok hhd hj
    exact h.element_refusedOnly hj fun k hk => .inr ⟨_, _, j, h, hj, ha0, hk⟩
  case spDecompress =>
    refine ⟨_, exec_spDecompress_eq s, decompressBody_refusedOnly spHeader_refusedOnly
      fun hd hhd j hj => ?_⟩
    have h := spGoodHeader_of_spHeader_ok hhd hj
    exact h.element_refusedOnly hj fun k hk => .inr ⟨_, _, j, h, hj, hk⟩
  case spGet =>
    refine ⟨_, exec_spGet_eq s, getBody_refusedOnly spHeader_refusedOnly
      fun hd hhd j hj ha0 => ?_⟩
    have h := spGoodHeader_of_spHeader_ok hhd hj
    exact h.element_refusedOnly hj fun k hk => .inr ⟨_, _, j, h, hj, ha0, hk⟩
  case ovDecompress =>
    refine ⟨_, exec_ovDecompress_eq s, decompressBody_refusedOnly
      (ovHeader_refusedOnly fun k hk => hk.imp_right .inl) fun hd hhd j hj => ?_⟩
    have h := ovGoodHeader_of_ovHeader_ok_of_lt hhd hj
    exact h.element_refusedOnly hj fun k hk => .inr (.inr ⟨_, _, _, _, j, h, hj, hk⟩)
  case ovGet =>
    refine ⟨_, exec_ovGet_eq s, getBody_refusedOnly
      (ovHeader_refusedOnly fun k hk => hk.imp_right .inl) fun hd hhd j hj ha0 => ?_⟩
    have h := ovGoodHeader_of_ovHeader_ok_of_lt hhd hj
    exact h.element_refusedOnly hj fun k hk => .inr (.inr ⟨_, _, _, _, j, h, hj, ha0, hk⟩)

/-! ## Two memories alike in the words that are read -/

section Congruences

variable {m m' : Memory}

theorem readWord_congr {sp : Space} {k : Nat} (h : m'.read k = m.read k) :
    readWord sp m' k = readWord sp m k := by
  rw [readWord, readWord, h]

/-- A field is read from the words its positions stand in (R102). -/
theorem readField_congr {p n : Nat} (h1 : 1 ≤ n)
    (h : ∀ q, p ≤ q → q < p + n → m'.read (q / 32) = m.read (q / 32)) :
    readField m' p n = readField m p n := by
  have hlow : readWord .pbuf m' (p / 32) = readWord .pbuf m (p / 32) :=
    readWord_congr (h p le_rfl (by omega))
  simp only [readField, hlow]
  split
  · rfl
  · have hhigh := h (32 * (p / 32 + 1)) (by omega) (by omega)
    rw [Nat.mul_div_cancel_left _ (by omega)] at hhigh
    rw [readWord_congr hhigh]

theorem scanZeros_congr {p fuel k : Nat}
    (h : ∀ q, p + k ≤ q → q < p + k + fuel → m'.read (q / 32) = m.read (q / 32)) :
    scanZeros m' p fuel k = scanZeros m p fuel k := by
  induction fuel generalizing k with
  | zero => rfl
  | succ fuel ih =>
    simp only [scanZeros]
    rw [readField_congr le_rfl fun q hlo hhi => h q hlo (by omega),
      ih fun q hlo hhi => h q (by omega) (by omega)]

theorem readDigits_congr {p count acc : Nat}
    (h : ∀ q, p ≤ q → q < p + count → m'.read (q / 32) = m.read (q / 32)) :
    readDigits m' p count acc = readDigits m p count acc := by
  induction count generalizing p acc with
  | zero => rfl
  | succ count ih =>
    simp only [readDigits]
    rw [readField_congr le_rfl fun q hlo hhi => h q hlo (by omega)]
    exact bind_congr fun b => ih fun q hlo hhi => h q (by omega) (by omega)

/-- A Gamma decode reads positions below its limit alone (R122). -/
theorem gammaRead_congr {p limit : Nat}
    (h : ∀ q, q < limit → m'.read (q / 32) = m.read (q / 32)) :
    gammaRead m' p limit = gammaRead m p limit := by
  simp only [gammaRead]
  rw [scanZeros_congr fun q hlo hhi => h q (by omega)]
  refine bind_congr fun z => ?_
  cases z with
  | none => rfl
  | some k =>
    simp only
    split
    · rfl
    · split
      · rfl
      · rw [readDigits_congr fun q hlo hhi => h q (by omega)]

theorem collect_congr {α : Type} {f f' : Nat → Except Stop α} {i n : Nat}
    (h : ∀ j, i ≤ j → j < i + n → f' j = f j) : collect f' i n = collect f i n := by
  induction n generalizing i with
  | zero => rfl
  | succ n ih =>
    rw [collect, collect, h i le_rfl (by omega),
      ih fun j hlo hhi => h j (by omega) (by omega)]

end Congruences

/-! ## Two blocks alike in their buffer -/

section SameBuffer

variable {s s' : State}

/-- A stream position of the buffer stands in a word that the two blocks share (R53). -/
theorem SameBuffer.read_position (h : SameBuffer s s') {q : Nat} (hq : q < 32 * s.pbufLen.toNat) :
    s'.pbuf.read (q / 32) = s.pbuf.read (q / 32) :=
  h.words _ (by omega)

theorem SameBuffer.readField_eq (h : SameBuffer s s') {p n : Nat} (h1 : 1 ≤ n)
    (hfits : p + n ≤ 32 * s.pbufLen.toNat) : readField s'.pbuf p n = readField s.pbuf p n :=
  readField_congr h1 fun _ _ hq => h.read_position (by omega)

/-- A five-bit field of the Header, which a non-empty buffer has (R11). -/
theorem SameBuffer.header_field_eq (h : SameBuffer s s') (hl : uint s.pbufLen ≠ 0) {p : Nat}
    (hp : p + 5 ≤ 32) : readField s'.pbuf p 5 = readField s.pbuf p 5 :=
  h.readField_eq (by omega) (by simp only [uint] at hl; omega)

theorem SameBuffer.gammaRead_eq (h : SameBuffer s s') (p : Nat) :
    gammaRead s'.pbuf p (32 * s.pbufLen.toNat) = gammaRead s.pbuf p (32 * s.pbufLen.toNat) :=
  gammaRead_congr fun _ hq => h.read_position hq

theorem SameBuffer.checkPbuf_eq (h : SameBuffer s s') : checkPbuf s' = checkPbuf s := by
  obtain ⟨-, hcap⟩ := h.capacities
  simp only [checkPbuf, h.length, hcap]

theorem SameBuffer.fieldOperands_eq (h : SameBuffer s s') :
    fieldOperands s' = fieldOperands s := by
  simp only [fieldOperands, h.checkPbuf_eq, h.position, h.width, h.length]

theorem SameBuffer.nsHeader_eq (h : SameBuffer s s') : nsHeader s' = nsHeader s := by
  simp only [nsHeader, h.length]
  split
  · rfl
  · rename_i hl
    rw [h.header_field_eq hl (p := 0) (by omega), h.header_field_eq hl (p := 5) (by omega)]

theorem SameBuffer.spHeader_eq (h : SameBuffer s s') : spHeader s' = spHeader s := by
  simp only [spHeader, h.length]
  split
  · rfl
  · rename_i hl
    rw [h.header_field_eq hl (p := 0) (by omega), h.header_field_eq hl (p := 5) (by omega)]

theorem SameBuffer.ovHeader_eq (h : SameBuffer s s') : ovHeader s' = ovHeader s := by
  simp only [ovHeader, h.length]
  split
  · rfl
  · rename_i hl
    rw [h.header_field_eq hl (p := 0) (by omega), h.header_field_eq hl (p := 5) (by omega),
      h.gammaRead_eq]

/-- The elements of a good buffer lie in it, so the blocks share their words (R140, R141). -/
theorem SameBuffer.nsElement_eq (h : SameBuffer s s') {w L j : Nat} (hgood : NsGoodHeader s w L)
    (hj : j < L) : nsElement s' w j = nsElement s w j := by
  have ⟨h1, h31⟩ := hgood.width_bounds
  obtain ⟨-, hfits, -⟩ := nsElementPos_bounds h1 h31 hgood.slots_le hj
  rw [nsElement, nsElement, h.readField_eq h1 hfits]

theorem SameBuffer.spElement_eq (h : SameBuffer s s') {w L j : Nat} (hgood : SpGoodHeader s w L)
    (hj : j < L) : spElement s' w j = spElement s w j := by
  have ⟨h1, _⟩ := hgood.width_bounds
  obtain ⟨-, hend⟩ := spElementPos_bounds (w := w) hj
  rw [spElement, spElement, h.readField_eq h1 (hend.trans hgood.room)]

/-- The slot of a relocated element is a word of the buffer too (R182, R187). -/
theorem SameBuffer.ovElement_eq (h : SameBuffer s s') {hd : OverflowHeader} {j : Nat}
    (hgood : OvGoodHeader s hd.width hd.oc hd.start hd.len) (hj : j < hd.len) :
    ovElement s' hd j = ovElement s hd j := by
  have ⟨h1, _⟩ := hgood.width_bounds
  have hoc := hgood.count_lt
  have hend := ov_element_bounds hgood.mainBits hj
  have hslot : ∀ x, readWord .pbuf s'.pbuf (uint s.pbufLen - 1 - x) =
      readWord .pbuf s.pbuf (uint s.pbufLen - 1 - x) := fun x =>
    readWord_congr (h.words _ (by simp only [uint]; omega))
  simp only [ovElement, h.length, hslot]
  rw [h.readField_eq (n := 1) le_rfl (by omega), h.readField_eq h1 (by omega)]

end SameBuffer

/-! ## Commands that end alike -/

/-- A part that answers alike in both states passes on what it answers. -/
theorem Alike.bind_of_ok {α : Type} {i : Instr} {s s' : State} {x x' : Except Stop α}
    {f f' : α → Except Stop State} (hx : x' = x)
    (h : ∀ a, x = .ok a → Alike i s s' (f a) (f' a)) : Alike i s s' (x >>= f) (x' >>= f') := by
  subst hx
  cases hx' : x' with
  | error e => exact .stop e
  | ok a => exact h a hx'

section Decoders

variable {i : Instr} {s s' : State} {H : Type} {header header' : Except Stop H} {len : H → Nat}
  {element element' : H → Nat → Except Stop Word}

theorem SameBuffer.decompressBody_alike (h : SameBuffer s s')
    (hi : i ∈ (Effect.sequence []).writers) (hheader : header' = header)
    (helement : ∀ hd, header = .ok hd → ∀ j < len hd, element' hd j = element hd j) :
    Alike i s s' (decompressBody s header len element)
      (decompressBody s' header' len element') := by
  obtain ⟨hcap, -⟩ := h.capacities
  exact .bind_of_ok h.checkPbuf_eq fun _ _ => .bind_of_ok hheader fun hd hhd =>
    .bind_of_ok (by rw [hcap]) fun _ _ =>
      .bind_of_ok (collect_congr fun j _ hj => helement hd hhd j (by omega)) fun vs _ =>
        .done (.sequence vs) hi

theorem SameBuffer.getBody_alike (h : SameBuffer s s')
    (hi : i ∈ (Effect.result 0).writers) (hheader : header' = header)
    (helement : ∀ hd, header = .ok hd → ∀ j < len hd, element' hd j = element hd j) :
    Alike i s s' (getBody s header len element) (getBody s' header' len element') := by
  refine .bind_of_ok h.checkPbuf_eq fun _ _ => .bind_of_ok hheader fun hd hhd =>
    .bind_of_ok (by rw [h.position]) fun _ hindex => ?_
  have hindex := check_ok_iff.mp hindex
  exact .bind_of_ok (by rw [h.position]; exact helement hd hhd _ (by omega)) fun v _ =>
    .done (.result v) hi

end Decoders

/-- The commands that read PBUF and answer in registers or SEQ_OUT alone. -/
abbrev Decodes (i : Instr) : Prop :=
  i ∈ [Instr.fieldRead, .gammaDec, .nsGet, .spGet, .ovGet, .nsDecompress, .spDecompress,
    .ovDecompress]

/-- From two blocks alike in their buffer, a decoder stops alike or has one effect. -/
theorem SameBuffer.exec_alike {i : Instr} {s s' : State} (h : SameBuffer s s') (hi : Decodes i) :
    ∃ c c', exec i s = settle s c ∧ exec i s' = settle s' c' ∧ Alike i s s' c c' := by
  cases i
  case fieldRead =>
    refine ⟨_, _, rfl, rfl, .bind_of_ok h.fieldOperands_eq fun _ hpn => ?_⟩
    have hfield := namesField_of_fieldOperands_ok hpn
    exact .bind_of_ok (h.readField_eq hfield.one_le hfield.fits) fun v _ =>
      .done (.result (BitVec.ofNat 32 v))
  case gammaDec =>
    exact ⟨_, _, rfl, rfl, .bind_of_ok h.checkPbuf_eq fun _ _ =>
      .bind_of_ok (by rw [h.position]) fun _ _ =>
        .bind_of_ok (by rw [h.position, h.length]; exact h.gammaRead_eq _) fun _ _ =>
          .bind _ fun nq => .done (.results (BitVec.ofNat 32 nq.1) (BitVec.ofNat 32 nq.2))⟩
  case nsGet =>
    exact ⟨_, _, exec_nsGet_eq s, exec_nsGet_eq s', h.getBody_alike (by decide) h.nsHeader_eq
      fun hd hhd j hj => h.nsElement_eq (nsGoodHeader_of_nsHeader_ok hhd hj) hj⟩
  case spGet =>
    exact ⟨_, _, exec_spGet_eq s, exec_spGet_eq s', h.getBody_alike (by decide) h.spHeader_eq
      fun hd hhd j hj => h.spElement_eq (spGoodHeader_of_spHeader_ok hhd hj) hj⟩
  case ovGet =>
    exact ⟨_, _, exec_ovGet_eq s, exec_ovGet_eq s', h.getBody_alike (by decide) h.ovHeader_eq
      fun hd hhd j hj => h.ovElement_eq (ovGoodHeader_of_ovHeader_ok_of_lt hhd hj) hj⟩
  case nsDecompress =>
    exact ⟨_, _, exec_nsDecompress_eq s, exec_nsDecompress_eq s', h.decompressBody_alike
      (by decide) h.nsHeader_eq fun hd hhd j hj =>
        h.nsElement_eq (nsGoodHeader_of_nsHeader_ok hhd hj) hj⟩
  case spDecompress =>
    exact ⟨_, _, exec_spDecompress_eq s, exec_spDecompress_eq s', h.decompressBody_alike
      (by decide) h.spHeader_eq fun hd hhd j hj =>
        h.spElement_eq (spGoodHeader_of_spHeader_ok hhd hj) hj⟩
  case ovDecompress =>
    exact ⟨_, _, exec_ovDecompress_eq s, exec_ovDecompress_eq s', h.decompressBody_alike
      (by decide) h.ovHeader_eq fun hd hhd j hj =>
        h.ovElement_eq (ovGoodHeader_of_ovHeader_ok_of_lt hhd hj) hj⟩
  all_goals exact absurd hi (by decide)

/-- No command that completes writes FAULTED (R218). -/
theorem Effect.apply_faulted (e : Effect) (s : State) : (e.apply s).faulted = s.faulted := by
  cases e <;> rfl

/-- What two blocks that complete with one effect show alike: RES0, RES1 where the effect writes it,
and the decoded Sequence. -/
structure SameAnswers (i : Instr) (t t' : State) : Prop where
  res0 : t'.res0 = t.res0
  res1 : i = .gammaDec → t'.res1 = t.res1
  sequence : i ∈ [Instr.nsDecompress, .spDecompress, .ovDecompress] →
    t'.seqOutLen = t.seqOutLen ∧
      ∀ k, k < t.seqOutLen.toNat → t'.seqOut.read k = t.seqOut.read k

theorem decompressed_sameAnswers {i : Instr} (hi : i ≠ .gammaDec) (s s' : State)
    (vs : List Word) : SameAnswers i (s.decompressed vs) (s'.decompressed vs) where
  res0 := rfl
  res1 h := absurd h hi
  sequence _ := by
    refine ⟨rfl, fun k hk => ?_⟩
    have hk : k < vs.length := lt_of_lt_of_le hk (Nat.mod_le _ _)
    exact (read_store_self s'.seqOut k hk).trans (read_store_self s.seqOut k hk).symm

theorem Effect.sameAnswers {i : Instr} (s s' : State) {e : Effect} (hi : Decodes i)
    (he : i ∈ e.writers) : SameAnswers i (e.apply s) (e.apply s') := by
  cases e with
  | result v =>
    simp only [Effect.writers, List.mem_cons, List.not_mem_nil, or_false] at he
    rcases he with rfl | rfl | rfl | rfl | rfl | rfl <;> exact ⟨rfl, by simp, by simp⟩
  | results v w =>
    simp only [Effect.writers, List.mem_cons, List.not_mem_nil, or_false] at he
    rcases he with rfl | rfl | rfl <;> exact ⟨rfl, fun _ => rfl, by simp⟩
  | sequence vs =>
    have hne : i ≠ .gammaDec := by
      rintro rfl
      simp [Effect.writers] at he
    exact decompressed_sameAnswers hne s s' vs
  | field m | code m v w | bufferAndScratch m words w vs =>
    obtain rfl := List.mem_singleton.mp he
    exact absurd hi (by decide)
  | buffer m words w =>
    simp only [Effect.writers, List.mem_cons, List.not_mem_nil, or_false] at he
    rcases he with rfl | rfl | rfl <;> exact absurd hi (by decide)

/-! ## The obligations -/

/-- Settles O11: the reset event's state has the values of the reset state of its capacities. -/
theorem resetEventRestoresTheResetState : Obligations.ResetEventRestoresTheResetState := by
  intro s rest h
  obtain ⟨-, hstatus, -, hfaulted, hin, hbuf, hout, hcapN, hcapPbuf, hno, hmem⟩ :=
    resetStateValues s.capN s.capPbuf _ rfl
  exact ⟨_, step_cons h, hstatus, hfaulted, hin, hbuf, hout, hcapN, hcapPbuf, hno, hmem, rfl, rfl,
    rfl⟩

/-- Settles O28: what refuses a command is one of its reads, and that read names its word. -/
theorem onlyUnwrittenWordsStopACommand : Obligations.OnlyUnwrittenWordsStopACommand := by
  intro i s r h
  obtain ⟨c, hc, hrefused⟩ := exec_refusedOnly i s
  exact hrefused r (settle_refused_iff.mp (hc.symm.trans h))

/-- Settles O58: a decoder reads only what the two blocks share, so it stops alike or has one effect
in both. -/
theorem decodersSeeOnlyTheWords : Obligations.DecodersSeeOnlyTheWords := by
  intro i hi s s' h
  obtain ⟨c, c', hc, hc', halike⟩ := h.exec_alike hi
  rw [hc, hc']
  cases halike with
  | stop e =>
    refine ⟨fun t ht => ?_, fun r hr => ?_⟩
    · obtain ⟨u, hu, -⟩ | ⟨e, he, rfl⟩ := settle_next_iff.mp ht
      · cases hu
      · cases he
        refine ⟨_, rfl, rfl, fun hf => ?_, fun hok => absurd hok (codeOf_ne_zero e)⟩
        simp only [statusWord, State.raise_code, State.raise_faulted, hf]
    · exact settle_refused_iff.mpr (settle_refused_iff.mp hr)
  | done e he =>
    refine ⟨fun t ht => ?_, fun r hr => by cases hr⟩
    cases ht
    obtain ⟨hres0, hres1, hsequence⟩ := e.sameAnswers s s' hi he
    refine ⟨_, rfl, rfl, fun hf => ?_, fun _ => ⟨hres0, hres1, hsequence⟩⟩
    simp only [statusWord, State.succeed_code, State.succeed_faulted, e.apply_faulted, hf]

end Sys2Proof.Machine
end
